-- ==== Sys2Proof/Word.lean ====
section
/-! DEFINITION. The word types of the engine (spec/00_scope.md R6, R9). -/

namespace Sys2Proof

/-- A scalar register, a component of a field register, a datum of the register port: `XLEN` = 64 bits (R6). -/
abbrev Word := BitVec 64

/-- A byte of the buffer memory: `BYTE_W` = 8 bits (R6). -/
abbrev Byte := BitVec 8

/-- A command word: `CMD_W` = 32 bits (R6, R70). -/
abbrev CmdWord := BitVec 32

/-- A number as a word. Every number a rule stores is below `2^64` where the rule applies (R25), so nothing is
lost there; the narrowing stands in this one place. -/
def wordOf (n : Nat) : Word := BitVec.ofNat 64 n

/-- `ceil8(x)` of R8: how many bytes `x` bits fill. -/
def ceil8 (x : Nat) : Nat := (x + 7) / 8

end Sys2Proof
end

