-- ==== Sys2Proof/Config.lean ====
section
/-! DEFINITION. The implementation parameters of spec/00_scope.md R6 and the free values of the model. -/

namespace Sys2Proof

/-- A value of the open parameter `MEM_BYTES`: R6 bounds it by `2^60`. -/
abbrev MemSize := Fin (2 ^ 60 + 1)

/-- `MEM_BYTES` of the machine `State.reset` describes. R6 leaves the parameter OPEN, so a state carries its own
(`State.memBytes`) and every statement over all states is one over all sizes. DESIGN CHOICE: 256, the size
spec/95_test_vectors.md takes for its vectors. Unsafe for a claim about runs from `State.reset` alone.
See notes/assumptions/1.md. -/
def Config.memBytes : MemSize := ⟨256, by decide⟩

/-- What a byte of memory reads as that no entry of `State.mem` lists. R42 and U6 leave the content of `M` at
power-up open. DESIGN CHOICE: 0. Unsafe for a claim about runs from `State.reset` alone: a statement over all
states ranges over every content of `M`. See notes/assumptions/2.md. -/
def Config.unlistedByte : Byte := 0

/-- `REG_BASE` (R28, open): where a platform places register number 0 on its bus. Nothing in Lean can evaluate it.
See notes/assumptions/9.md. -/
opaque Config.regBase : Nat

/-- The unspecified value R292 leaves in a bit of `Dst` when a command is not hazard free, for the `n`-th such
command (`State.freeCount`) and the absolute bit address. A free value: nothing in Lean can evaluate it.
See notes/assumptions/3.md. -/
opaque Config.freeBit : (n bitAddress : Nat) → Bool

end Sys2Proof
end

