-- ==== Sys2Proof/Syntax.lean ====
section
/-! DEFINITION. The commands of the engine, one constructor per row of spec/opcode_table.json (R75). -/

namespace Sys2Proof

/-- The index of a scalar register, fields `xd` and `xs` (R72). -/
abbrev XIdx := Fin 8

/-- The index of a field register, fields `fd`, `fa`, `fb` (R72). -/
abbrev FIdx := Fin 4

/-- The alignment of a representation, field `align` (R74, R151). -/
inductive Align where
  | left   -- `align = 0`: padding after the field
  | right  -- `align = 1`: padding before the field
deriving DecidableEq, Repr

/-- A command, its operands in the order of the table's `operands` column (R75, R82). The count `n` is the seven
bits of the command word's field (R73); which values are legal is `WellFormed`. `forr` is the table's `FOR` (`for`
is a word of Lean's own). -/
inductive Instr where
  | norm   (fd : FIdx)
  | need   (xd : XIdx) (fa : FIdx)
  | ensure (fd : FIdx)
  | get    (xd : XIdx) (fd : FIdx) (n : BitVec 7)
  | put    (fd : FIdx) (xs : XIdx) (n : BitVec 7)
  | ext2   (fd fa fb : FIdx)
  | bit    (xd : XIdx) (fa : FIdx)
  | uint8  (xd : XIdx) (fa : FIdx)
  | uint16 (xd : XIdx) (fa : FIdx)
  | uint32 (xd : XIdx) (fa : FIdx)
  | uint64 (xd : XIdx) (fa : FIdx)
  | bits   (fd fa : FIdx) (align : Align)
  | setbit (fd : FIdx) (xs : XIdx)
  | setu8  (fd : FIdx) (xs : XIdx)
  | setu16 (fd : FIdx) (xs : XIdx)
  | setu32 (fd : FIdx) (xs : XIdx)
  | setu64 (fd : FIdx) (xs : XIdx)
  | setbits (fd fa : FIdx) (align : Align)
  | rotl   (fd fa : FIdx) (xs : XIdx)
  | lz     (xd : XIdx) (fa : FIdx)
  | tz     (xd : XIdx) (fa : FIdx)
  | ones   (xd : XIdx) (fa : FIdx)
  | rdbits (xd : XIdx) (fd : FIdx) (n : BitVec 7)
  | fand   (fd fa fb : FIdx)
  | fandn  (fd fa fb : FIdx)
  | forr   (fd fa fb : FIdx)
  | fxor   (fd fa fb : FIdx)
  | fnot   (fd fa : FIdx)
  | frotl  (fd fa : FIdx) (xs : XIdx)
  | fcount (xd : XIdx) (fa : FIdx) (xs : XIdx)
  | ffill  (fd : FIdx) (xs : XIdx)
  | band   (fd fa fb : FIdx)
  | bandn  (fd fa fb : FIdx)
  | bor    (fd fa fb : FIdx)
  | bxor   (fd fa fb : FIdx)
  | bnot   (fd fa : FIdx)
deriving DecidableEq, Repr

end Sys2Proof
end

