-- ==== Sys2Proof/WellFormed.lean ====
section
/-! DEFINITION. Which terms of `Instr` are commands: the one constraint of spec/opcode_table.json (R73, R79 (e)). -/

namespace Sys2Proof

/-- The bit count of a command that uses the field `n`. -/
def Instr.count? : Instr → Option Nat
  | .get _ _ n => some n.toNat
  | .put _ _ n => some n.toNat
  | .rdbits _ _ n => some n.toNat
  | .norm .. | .need .. | .ensure .. | .ext2 .. | .bit .. | .uint8 .. | .uint16 .. | .uint32 .. | .uint64 ..
  | .bits .. | .setbit .. | .setu8 .. | .setu16 .. | .setu32 .. | .setu64 .. | .setbits .. | .rotl .. | .lz ..
  | .tz .. | .ones .. | .fand .. | .fandn .. | .forr .. | .fxor .. | .fnot .. | .frotl .. | .fcount ..
  | .ffill .. | .band .. | .bandn .. | .bor .. | .bxor .. | .bnot .. => none

/-- R73: where a command uses `n`, `n` is at most 64; every other operand is legal at every value of its field. -/
abbrev WellFormed (i : Instr) : Prop := ∀ n ∈ i.count?, n ≤ 64

end Sys2Proof
end

