-- ==== Sys2Proof/Decode.lean ====
section
/-! DEFINITION. The command word (spec/30_encoding.md): its fields, the decoder, the encoder, the opcode table. -/

namespace Sys2Proof

/-- The fields of format `C`, most significant first (R71). A field left out of a record is zero. -/
structure Fields where
  opcode : BitVec 8
  fd : BitVec 2 := 0
  fa : BitVec 2 := 0
  fb : BitVec 2 := 0
  xd : BitVec 3 := 0
  xs : BitVec 3 := 0
  n : BitVec 7 := 0
  align : BitVec 1 := 0
  bo : BitVec 1 := 0
  reserved : BitVec 3 := 0
deriving DecidableEq, Repr

/-- The fields of a word (R71). -/
def Fields.ofWord (w : CmdWord) : Fields where
  opcode := w.extractLsb' 24 8
  fd := w.extractLsb' 22 2
  fa := w.extractLsb' 20 2
  fb := w.extractLsb' 18 2
  xd := w.extractLsb' 15 3
  xs := w.extractLsb' 12 3
  n := w.extractLsb' 5 7
  align := w.extractLsb' 4 1
  bo := w.extractLsb' 3 1
  reserved := w.extractLsb' 0 3

/-- The word of its fields (R71). -/
def Fields.toWord (f : Fields) : CmdWord :=
  f.opcode ++ f.fd ++ f.fa ++ f.fb ++ f.xd ++ f.xs ++ f.n ++ f.align ++ f.bo ++ f.reserved

/-- Why a word selects no command: the cases (a) to (e) of R79. -/
inductive Reject where
  | unknownOpcode     -- (a) the opcode is none of the 36
  | unusedField       -- (b) a field the command does not use is nonzero
  | reservedBits      -- (c) one of bits 2:0 is 1
  | littleEndian      -- (d) `bo = 1` (R78)
  | countTooLarge     -- (e) the command uses `n` and `n > 64`
deriving DecidableEq, Repr

/-- Which operand fields a command uses: the `fields used` column of R75. -/
structure Uses where
  fd : Bool := false
  fa : Bool := false
  fb : Bool := false
  xd : Bool := false
  xs : Bool := false
  n : Bool := false
  align : Bool := false
deriving DecidableEq, Repr

/-- A field register's index as a field of the word (R72). -/
def bitsF (i : FIdx) : BitVec 2 := BitVec.ofFin i
/-- A field of the word as a field register's index (R72). -/
def regF (b : BitVec 2) : FIdx := b.toFin
/-- A scalar register's index as a field of the word (R72). -/
def bitsX (i : XIdx) : BitVec 3 := BitVec.ofFin i
/-- A field of the word as a scalar register's index (R72). -/
def regX (b : BitVec 3) : XIdx := b.toFin
/-- The alignment bit: 0 is Left, 1 is Right (R74). -/
def bitOf : Align → BitVec 1
  | .left => 0
  | .right => 1
/-- The alignment a bit stands for (R74). -/
def alignOf (b : BitVec 1) : Align := if b = 0 then .left else .right

/-- Every field the command does not use is zero (R77). -/
abbrev Fields.unusedZero (f : Fields) (u : Uses) : Prop :=
  (u.fd = false → f.fd = 0) ∧ (u.fa = false → f.fa = 0) ∧ (u.fb = false → f.fb = 0) ∧ (u.xd = false → f.xd = 0) ∧
  (u.xs = false → f.xs = 0) ∧ (u.n = false → f.n = 0) ∧ (u.align = false → f.align = 0)

/-- The command `i` if the word is legal for a command that uses `u`, else the first ground of R79 (b) to (e). -/
def Fields.only (f : Fields) (u : Uses) (i : Instr) : Except Reject Instr :=
  if ¬ f.unusedZero u then .error .unusedField
  else if f.reserved ≠ 0 then .error .reservedBits
  else if f.bo ≠ 0 then .error .littleEndian
  else if u.n = true ∧ 64 < f.n.toNat then .error .countTooLarge
  else .ok i

/-- The command the fields select (R75), or the ground on which they select none (R79). -/
def Fields.decode (f : Fields) : Except Reject Instr :=
  match f.opcode.toNat with
  | 0x10 => f.only { fd := true } (.norm (regF f.fd))
  | 0x11 => f.only { xd := true, fa := true } (.need (regX f.xd) (regF f.fa))
  | 0x12 => f.only { fd := true } (.ensure (regF f.fd))
  | 0x20 => f.only { xd := true, fd := true, n := true } (.get (regX f.xd) (regF f.fd) f.n)
  | 0x21 => f.only { fd := true, xs := true, n := true } (.put (regF f.fd) (regX f.xs) f.n)
  | 0x28 => f.only { fd := true, fa := true, fb := true } (.ext2 (regF f.fd) (regF f.fa) (regF f.fb))
  | 0x30 => f.only { xd := true, fa := true } (.bit (regX f.xd) (regF f.fa))
  | 0x31 => f.only { xd := true, fa := true } (.uint8 (regX f.xd) (regF f.fa))
  | 0x32 => f.only { xd := true, fa := true } (.uint16 (regX f.xd) (regF f.fa))
  | 0x33 => f.only { xd := true, fa := true } (.uint32 (regX f.xd) (regF f.fa))
  | 0x34 => f.only { xd := true, fa := true } (.uint64 (regX f.xd) (regF f.fa))
  | 0x35 => f.only { fd := true, fa := true, align := true } (.bits (regF f.fd) (regF f.fa) (alignOf f.align))
  | 0x38 => f.only { fd := true, xs := true } (.setbit (regF f.fd) (regX f.xs))
  | 0x39 => f.only { fd := true, xs := true } (.setu8 (regF f.fd) (regX f.xs))
  | 0x3A => f.only { fd := true, xs := true } (.setu16 (regF f.fd) (regX f.xs))
  | 0x3B => f.only { fd := true, xs := true } (.setu32 (regF f.fd) (regX f.xs))
  | 0x3C => f.only { fd := true, xs := true } (.setu64 (regF f.fd) (regX f.xs))
  | 0x3D => f.only { fd := true, fa := true, align := true } (.setbits (regF f.fd) (regF f.fa) (alignOf f.align))
  | 0x40 => f.only { fd := true, fa := true, xs := true } (.rotl (regF f.fd) (regF f.fa) (regX f.xs))
  | 0x48 => f.only { xd := true, fa := true } (.lz (regX f.xd) (regF f.fa))
  | 0x49 => f.only { xd := true, fa := true } (.tz (regX f.xd) (regF f.fa))
  | 0x4A => f.only { xd := true, fa := true } (.ones (regX f.xd) (regF f.fa))
  | 0x50 => f.only { xd := true, fd := true, n := true } (.rdbits (regX f.xd) (regF f.fd) f.n)
  | 0x51 => f.only { fd := true, fa := true, fb := true } (.fand (regF f.fd) (regF f.fa) (regF f.fb))
  | 0x52 => f.only { fd := true, fa := true, fb := true } (.fandn (regF f.fd) (regF f.fa) (regF f.fb))
  | 0x53 => f.only { fd := true, fa := true, fb := true } (.forr (regF f.fd) (regF f.fa) (regF f.fb))
  | 0x54 => f.only { fd := true, fa := true, fb := true } (.fxor (regF f.fd) (regF f.fa) (regF f.fb))
  | 0x55 => f.only { fd := true, fa := true } (.fnot (regF f.fd) (regF f.fa))
  | 0x56 => f.only { fd := true, fa := true, xs := true } (.frotl (regF f.fd) (regF f.fa) (regX f.xs))
  | 0x57 => f.only { xd := true, fa := true, xs := true } (.fcount (regX f.xd) (regF f.fa) (regX f.xs))
  | 0x58 => f.only { fd := true, xs := true } (.ffill (regF f.fd) (regX f.xs))
  | 0x60 => f.only { fd := true, fa := true, fb := true } (.band (regF f.fd) (regF f.fa) (regF f.fb))
  | 0x61 => f.only { fd := true, fa := true, fb := true } (.bandn (regF f.fd) (regF f.fa) (regF f.fb))
  | 0x62 => f.only { fd := true, fa := true, fb := true } (.bor (regF f.fd) (regF f.fa) (regF f.fb))
  | 0x63 => f.only { fd := true, fa := true, fb := true } (.bxor (regF f.fd) (regF f.fa) (regF f.fb))
  | 0x64 => f.only { fd := true, fa := true } (.bnot (regF f.fd) (regF f.fa))
  | _ => .error .unknownOpcode

/-- The decoder (R75, R79): total on every 32-bit word, and it looks at nothing but the word (R81). -/
def decode (w : CmdWord) : Except Reject Instr := (Fields.ofWord w).decode

/-- The fields of a command (R71, R75): its opcode, its operands, every other field zero. -/
def Instr.fields : Instr → Fields
  | .norm fd => { opcode := 0x10, fd := bitsF fd }
  | .need xd fa => { opcode := 0x11, xd := bitsX xd, fa := bitsF fa }
  | .ensure fd => { opcode := 0x12, fd := bitsF fd }
  | .get xd fd n => { opcode := 0x20, xd := bitsX xd, fd := bitsF fd, n := n }
  | .put fd xs n => { opcode := 0x21, fd := bitsF fd, xs := bitsX xs, n := n }
  | .ext2 fd fa fb => { opcode := 0x28, fd := bitsF fd, fa := bitsF fa, fb := bitsF fb }
  | .bit xd fa => { opcode := 0x30, xd := bitsX xd, fa := bitsF fa }
  | .uint8 xd fa => { opcode := 0x31, xd := bitsX xd, fa := bitsF fa }
  | .uint16 xd fa => { opcode := 0x32, xd := bitsX xd, fa := bitsF fa }
  | .uint32 xd fa => { opcode := 0x33, xd := bitsX xd, fa := bitsF fa }
  | .uint64 xd fa => { opcode := 0x34, xd := bitsX xd, fa := bitsF fa }
  | .bits fd fa align => { opcode := 0x35, fd := bitsF fd, fa := bitsF fa, align := bitOf align }
  | .setbit fd xs => { opcode := 0x38, fd := bitsF fd, xs := bitsX xs }
  | .setu8 fd xs => { opcode := 0x39, fd := bitsF fd, xs := bitsX xs }
  | .setu16 fd xs => { opcode := 0x3A, fd := bitsF fd, xs := bitsX xs }
  | .setu32 fd xs => { opcode := 0x3B, fd := bitsF fd, xs := bitsX xs }
  | .setu64 fd xs => { opcode := 0x3C, fd := bitsF fd, xs := bitsX xs }
  | .setbits fd fa align => { opcode := 0x3D, fd := bitsF fd, fa := bitsF fa, align := bitOf align }
  | .rotl fd fa xs => { opcode := 0x40, fd := bitsF fd, fa := bitsF fa, xs := bitsX xs }
  | .lz xd fa => { opcode := 0x48, xd := bitsX xd, fa := bitsF fa }
  | .tz xd fa => { opcode := 0x49, xd := bitsX xd, fa := bitsF fa }
  | .ones xd fa => { opcode := 0x4A, xd := bitsX xd, fa := bitsF fa }
  | .rdbits xd fd n => { opcode := 0x50, xd := bitsX xd, fd := bitsF fd, n := n }
  | .fand fd fa fb => { opcode := 0x51, fd := bitsF fd, fa := bitsF fa, fb := bitsF fb }
  | .fandn fd fa fb => { opcode := 0x52, fd := bitsF fd, fa := bitsF fa, fb := bitsF fb }
  | .forr fd fa fb => { opcode := 0x53, fd := bitsF fd, fa := bitsF fa, fb := bitsF fb }
  | .fxor fd fa fb => { opcode := 0x54, fd := bitsF fd, fa := bitsF fa, fb := bitsF fb }
  | .fnot fd fa => { opcode := 0x55, fd := bitsF fd, fa := bitsF fa }
  | .frotl fd fa xs => { opcode := 0x56, fd := bitsF fd, fa := bitsF fa, xs := bitsX xs }
  | .fcount xd fa xs => { opcode := 0x57, xd := bitsX xd, fa := bitsF fa, xs := bitsX xs }
  | .ffill fd xs => { opcode := 0x58, fd := bitsF fd, xs := bitsX xs }
  | .band fd fa fb => { opcode := 0x60, fd := bitsF fd, fa := bitsF fa, fb := bitsF fb }
  | .bandn fd fa fb => { opcode := 0x61, fd := bitsF fd, fa := bitsF fa, fb := bitsF fb }
  | .bor fd fa fb => { opcode := 0x62, fd := bitsF fd, fa := bitsF fa, fb := bitsF fb }
  | .bxor fd fa fb => { opcode := 0x63, fd := bitsF fd, fa := bitsF fa, fb := bitsF fb }
  | .bnot fd fa => { opcode := 0x64, fd := bitsF fd, fa := bitsF fa }

/-- The encoder: the word of a command (R75). -/
def encode (i : Instr) : CmdWord := i.fields.toWord

/-- The host's entry to the decoder: the command of the word `w` that the opcode table gives `nbits` bits. -/
def decodeTableWord (nbits w : Nat) : Option Instr :=
  match decode (BitVec.ofNat 32 (w % 2 ^ nbits)) with
  | .ok i => some i
  | .error _ => none

/-- One row of R75's table as the spec prints it. -/
structure TableRow where
  mnemonic : String
  matchBits : CmdWord
  maskBits : CmdWord
  usesN : Bool
deriving DecidableEq, Repr

/-- R75: "A word `w` selects the command when `w AND mask = match` and, for commands that use `n`, `n ≤ 64`." -/
abbrev TableRow.selects (r : TableRow) (w : CmdWord) : Prop :=
  w &&& r.maskBits = r.matchBits ∧ (r.usesN = true → (w.extractLsb' 5 7).toNat ≤ 64)

/-- R75's table, mnemonic, match and mask copied from the spec. The decoder above is written from R71 and the
`fields used` column; that the two agree is a statement of the model. -/
def opcodeTable : List TableRow :=
  [⟨"NORM", 0x10000000, 0xFF3FFFFF, false⟩,
   ⟨"NEED", 0x11000000, 0xFFCC7FFF, false⟩,
   ⟨"ENSURE", 0x12000000, 0xFF3FFFFF, false⟩,
   ⟨"GET", 0x20000000, 0xFF3C701F, true⟩,
   ⟨"PUT", 0x21000000, 0xFF3F801F, true⟩,
   ⟨"EXT2", 0x28000000, 0xFF03FFFF, false⟩,
   ⟨"BIT", 0x30000000, 0xFFCC7FFF, false⟩,
   ⟨"UINT8", 0x31000000, 0xFFCC7FFF, false⟩,
   ⟨"UINT16", 0x32000000, 0xFFCC7FFF, false⟩,
   ⟨"UINT32", 0x33000000, 0xFFCC7FFF, false⟩,
   ⟨"UINT64", 0x34000000, 0xFFCC7FFF, false⟩,
   ⟨"BITS", 0x35000000, 0xFF0FFFEF, false⟩] ++
  [⟨"SETBIT", 0x38000000, 0xFF3F8FFF, false⟩,
   ⟨"SETU8", 0x39000000, 0xFF3F8FFF, false⟩,
   ⟨"SETU16", 0x3A000000, 0xFF3F8FFF, false⟩,
   ⟨"SETU32", 0x3B000000, 0xFF3F8FFF, false⟩,
   ⟨"SETU64", 0x3C000000, 0xFF3F8FFF, false⟩,
   ⟨"SETBITS", 0x3D000000, 0xFF0FFFEF, false⟩,
   ⟨"ROTL", 0x40000000, 0xFF0F8FFF, false⟩,
   ⟨"LZ", 0x48000000, 0xFFCC7FFF, false⟩,
   ⟨"TZ", 0x49000000, 0xFFCC7FFF, false⟩,
   ⟨"ONES", 0x4A000000, 0xFFCC7FFF, false⟩,
   ⟨"RDBITS", 0x50000000, 0xFF3C701F, true⟩,
   ⟨"FAND", 0x51000000, 0xFF03FFFF, false⟩] ++
  [⟨"FANDN", 0x52000000, 0xFF03FFFF, false⟩,
   ⟨"FOR", 0x53000000, 0xFF03FFFF, false⟩,
   ⟨"FXOR", 0x54000000, 0xFF03FFFF, false⟩,
   ⟨"FNOT", 0x55000000, 0xFF0FFFFF, false⟩,
   ⟨"FROTL", 0x56000000, 0xFF0F8FFF, false⟩,
   ⟨"FCOUNT", 0x57000000, 0xFFCC0FFF, false⟩,
   ⟨"FFILL", 0x58000000, 0xFF3F8FFF, false⟩,
   ⟨"BAND", 0x60000000, 0xFF03FFFF, false⟩,
   ⟨"BANDN", 0x61000000, 0xFF03FFFF, false⟩,
   ⟨"BOR", 0x62000000, 0xFF03FFFF, false⟩,
   ⟨"BXOR", 0x63000000, 0xFF03FFFF, false⟩,
   ⟨"BNOT", 0x64000000, 0xFF0FFFFF, false⟩]

/-- The mnemonic of a command (R75). -/
def Instr.mnemonic : Instr → String
  | .norm .. => "NORM"
  | .need .. => "NEED"
  | .ensure .. => "ENSURE"
  | .get .. => "GET"
  | .put .. => "PUT"
  | .ext2 .. => "EXT2"
  | .bit .. => "BIT"
  | .uint8 .. => "UINT8"
  | .uint16 .. => "UINT16"
  | .uint32 .. => "UINT32"
  | .uint64 .. => "UINT64"
  | .bits .. => "BITS"
  | .setbit .. => "SETBIT"
  | .setu8 .. => "SETU8"
  | .setu16 .. => "SETU16"
  | .setu32 .. => "SETU32"
  | .setu64 .. => "SETU64"
  | .setbits .. => "SETBITS"
  | .rotl .. => "ROTL"
  | .lz .. => "LZ"
  | .tz .. => "TZ"
  | .ones .. => "ONES"
  | .rdbits .. => "RDBITS"
  | .fand .. => "FAND"
  | .fandn .. => "FANDN"
  | .forr .. => "FOR"
  | .fxor .. => "FXOR"
  | .fnot .. => "FNOT"
  | .frotl .. => "FROTL"
  | .fcount .. => "FCOUNT"
  | .ffill .. => "FFILL"
  | .band .. => "BAND"
  | .bandn .. => "BANDN"
  | .bor .. => "BOR"
  | .bxor .. => "BXOR"
  | .bnot .. => "BNOT"

end Sys2Proof
end

