-- ==== Sys2Proof/Machine/State.lean ====
section
/-! DEFINITION. The state of the engine (spec/10_state.md R20 to R42), the reasons a step can stop, and reset. -/

namespace Sys2Proof.Machine

/-- A field register: a buffer reference `(base, len, cap)`, a bit position and a width in bits (R22). -/
structure FieldReg where
  base : Word
  len : Word
  cap : Word
  pos : Word
  width : Word
deriving DecidableEq, Repr

/-- The buffer memory `M` (R37): the bytes that do not read as `Config.unlistedByte`, by rising address. -/
abbrev Memory := List Host.Cell

/-- `STATUS.code`: the outcome of the last command (R34, R250). -/
inductive Code where
  | ok
  | eof
  | grow
  | fault
deriving DecidableEq, Repr

/-- `STATUS.cause` (R34, R251). -/
inductive Cause where
  | none        -- 0, with `OK`, `EOF` and `GROW`
  | bounds      -- 1, R254
  | length      -- 2, R263
  | invalidArg  -- 3, R264
  | illegalCmd  -- 4, R252
  | desc        -- 5, R253
deriving DecidableEq, Repr

/-- One step of the machine as the outside world asks for it: the host transactions of R7, R30 to R32, the step
`Reset()` of R280, and the host's own access to `M` between commands (R37, R65, R284 (2)), whose form the spec does
not describe (DEDUCED, safe: notes/assumptions/6.md). -/
inductive HostOp where
  | write (r : Nat) (v : Word)       -- `HostWrite(r, v)`
  | read (r : Nat)                   -- `HostRead(r)`
  | reset                            -- the pin `rst`
  | memWrite (a : Nat) (v : Byte)    -- the host stores a byte of `M` by its own path
  | memRead (a : Nat)                -- the host loads a byte of `M` by its own path
deriving DecidableEq, Repr

/-- The state: R20's, and four fields of the model's own. -/
structure State where
  /-- `X[0..7]` (R21). -/
  x : Vector Word 8
  /-- `F[0..3]` (R22). -/
  f : Vector FieldReg 4
  /-- `CMD`, the last command word accepted (R29). -/
  cmd : CmdWord
  /-- `STATUS` as the host reads it (R34). -/
  status : Word
  /-- `NEEDLEN` (R35). -/
  needlen : Word
  /-- `M` (R37). -/
  mem : Memory
  /-- The model's own: the open parameter `MEM_BYTES` (R6), which no step changes. notes/assumptions/1.md. -/
  memBytes : MemSize
  /-- The model's own: the host transactions to come, the program of R86. notes/assumptions/4.md. -/
  host : List HostOp
  /-- The model's own: what the last transaction returned to the host, if it was a read (R31).
  notes/assumptions/5.md. -/
  portOut : Option Word
  /-- The model's own: how many commands have left unspecified bits in `M` (R292). notes/assumptions/3.md. -/
  freeCount : Nat
deriving DecidableEq, Repr

/-- Why the machine stops. No command stops it: every outcome of a command is a next state (R250). -/
inductive Fault where
  /-- Raised by `HostOp.memWrite` and `HostOp.memRead` at an address at or above `MEM_BYTES`: the host's own access
  to a byte that does not exist (R37, R63). Safe: the engine itself never forms such an address (R253). -/
  | noSuchByte (a : Nat)
deriving DecidableEq, Repr

/-- Why a step has no meaning. -/
inductive Refusal where
  /-- An arm of `exec` without a meaning: no arm is one. Safe. -/
  | notModelled (mnemonic : String)
deriving DecidableEq, Repr

/-- The empty buffer at address 0 (R26, R42). -/
def FieldReg.zero : FieldReg := ⟨0, 0, 0, 0, 0⟩

/-- The machine after reset (R42: "After reset every register is zero"), its open parameter and the content of `M`
at power-up (U6) being arguments. -/
def State.powerOn (memBytes : MemSize) (mem : Memory) : State where
  x := Vector.replicate 8 0
  f := Vector.replicate 4 FieldReg.zero
  cmd := 0
  status := 0
  needlen := 0
  mem := mem
  memBytes := memBytes
  host := []
  portOut := none
  freeCount := 0

/-- The machine right after reset (R42), for one size of `M` and one content of it at power-up
(DESIGN CHOICE, unsafe: notes/assumptions/1.md and 2.md). -/
def State.reset : State := State.powerOn Config.memBytes []

end Sys2Proof.Machine
end

