-- ==== Sys2Proof/Machine/Flags.lean ====
section
/-! DEFINITION. `STATUS`, field by field (spec/10_state.md R34, R36). There are no arithmetic flags (R41). -/

namespace Sys2Proof.Machine

/-- The two bits of an outcome (R34). -/
def Code.bits : Code → BitVec 2
  | .ok => 0
  | .eof => 1
  | .grow => 2
  | .fault => 3

/-- The three bits of a cause (R34, R251). -/
def Cause.bits : Cause → BitVec 3
  | .none => 0
  | .bounds => 1
  | .length => 2
  | .invalidArg => 3
  | .illegalCmd => 4
  | .desc => 5

/-- `STATUS` with an outcome and a cause, the reserved bits 0 (R34). -/
def statusWord (code : Code) (cause : Cause) : Word := 0#57 ++ cause.bits ++ 0#2 ++ code.bits

/-- `STATUS.code` (R34). -/
def State.statusCode (s : State) : BitVec 2 := s.status.extractLsb' 0 2

/-- `STATUS.cause` (R34). -/
def State.statusCause (s : State) : BitVec 3 := s.status.extractLsb' 4 3

/-- The engine is in the faulted state (R33, R260). -/
abbrev State.Faulted (s : State) : Prop := s.statusCode = Code.fault.bits

/-- The pin `fault_o` (R36): "1 exactly when `STATUS.code = FAULT`". -/
def State.faultO (s : State) : Bool := decide s.Faulted

/-- What R34 says of `STATUS` at every time: the reserved bits 3:2 and 63:7 are 0, the causes 6 and 7 never stand
in it, and "`cause` is nonzero exactly when `code = FAULT`". -/
abbrev StatusLegal (w : Word) : Prop :=
  w.extractLsb' 2 2 = 0 ∧ w.extractLsb' 7 57 = 0 ∧ (w.extractLsb' 4 3).toNat ≤ 5 ∧
  (w.extractLsb' 4 3 ≠ 0 ↔ w.extractLsb' 0 2 = Code.fault.bits)

end Sys2Proof.Machine
end

