-- ==== Sys2Proof/Machine/Memory.lean ====
section
/-! DEFINITION. The buffer memory `M`: bytes, bits, bit strings (spec/00_scope.md R10, R11; spec/20_memory.md R51 to R58). -/

namespace Sys2Proof.Machine

/-- The byte at address `a` (R11 `MemRead(a, 1)`). -/
def Memory.read : Memory → Nat → Byte
  | [], _ => Config.unlistedByte
  | (b, v) :: m, a => if b = a then v else Memory.read m a

/-- Take address `a` out of the list. -/
def Memory.erase : Memory → Nat → Memory
  | [], _ => []
  | (b, v) :: m, a => if b = a then Memory.erase m a else (b, v) :: Memory.erase m a

/-- Put a byte in at its place in the order of addresses. -/
def Memory.insert : Memory → Nat → Byte → Memory
  | [], a, v => [(a, v)]
  | (b, u) :: m, a, v => if a < b then (a, v) :: (b, u) :: m else (b, u) :: Memory.insert m a v

/-- The memory with `v` at address `a` (R11 `MemWrite(a, 1, v)`). A byte that reads as an unlisted one is not
listed. -/
def Memory.write (m : Memory) (a : Nat) (v : Byte) : Memory :=
  if v = Config.unlistedByte then Memory.erase m a else Memory.insert (Memory.erase m a) a v

/-- The canonical form: addresses strictly rising, and no entry that reads as an unlisted byte. -/
abbrev Memory.wf (m : Memory) : Prop :=
  m.Pairwise (fun c d => c.1 < d.1) ∧ ∀ c ∈ m, c.2 ≠ Config.unlistedByte

/-- Every listed byte is a byte of `M` (R37: addresses 0 to `MEM_BYTES − 1`). -/
abbrev Memory.within (m : Memory) (size : Nat) : Prop := ∀ c ∈ m, c.1 < size

/-- The byte at `a + i` becomes `g i`, for `i` from 0 to `n − 1`. -/
def Memory.writeBytes (m : Memory) (a : Nat) (g : Nat → Byte) : Nat → Memory
  | 0 => m
  | n + 1 => (Memory.writeBytes m a g n).write (a + n) (g n)

/-- Bit `k` of a byte counted from its most significant bit: bit `7 − k` (R10, R51). -/
def bitOfByte (b : Byte) (k : Nat) : Bool := b.getMsbD k

/-- The byte with the bit `k` from its most significant end set to `v` and every other bit kept (R11 `BitWrite`). -/
def byteWithBit (b : Byte) (k : Nat) (v : Bool) : Byte :=
  if v then b ||| (0x80#8 >>> k) else b &&& ~~~(0x80#8 >>> k)

/-- `BitRead(base, p)` of R11. -/
def Memory.bitRead (m : Memory) (base p : Nat) : Bool := bitOfByte (m.read (base + p / 8)) (p % 8)

/-- `BitWrite(base, p, v)` of R11. -/
def Memory.bitWrite (m : Memory) (base p : Nat) (v : Bool) : Memory :=
  m.write (base + p / 8) (byteWithBit (m.read (base + p / 8)) (p % 8) v)

/-- The `w`-bit value whose bits are `g 0, …, g (w − 1)`, the first the most significant (R11: the sum of
`g i * 2^(w − 1 − i)`). -/
def bitsValue (g : Nat → Bool) : Nat → Nat
  | 0 => 0
  | w + 1 => 2 * bitsValue g w + (g w).toNat

/-- `BitsRead(base, p, w)` of R11. -/
def Memory.bitsRead (m : Memory) (base p w : Nat) : Nat := bitsValue (fun i => m.bitRead base (p + i)) w

/-- Bit `p + i` of the buffer becomes `g i`, for `i` from 0 to `w − 1`; no other bit changes. -/
def Memory.writeBits (m : Memory) (base p : Nat) (g : Nat → Bool) : Nat → Memory
  | 0 => m
  | w + 1 => (Memory.writeBits m base p g w).bitWrite base (p + w) (g w)

/-- `MemRead(a, n)` of R11: the `8n`-bit value whose most significant byte is at `a`. -/
def Memory.readNat (m : Memory) (a : Nat) : Nat → Nat
  | 0 => 0
  | n + 1 => 256 * Memory.readNat m a n + (m.read (a + n)).toNat

/-- `BitsWrite(base, p, w, v)` of R11: bit `p + i` becomes `v[w − 1 − i]`. -/
def Memory.bitsWrite (m : Memory) (base p w v : Nat) : Memory :=
  m.writeBits base p (fun i => v.testBit (w - 1 - i)) w

/-- How many of the bits `g 0, …, g (w − 1)` are 1. -/
def countOnes (g : Nat → Bool) : Nat → Nat
  | 0 => 0
  | w + 1 => countOnes g w + (g w).toNat

/-- The number of steps from `k` to the first `i` with `g i`, at most `n` of them. -/
def zerosFrom (g : Nat → Bool) : Nat → Nat → Nat
  | 0, _ => 0
  | n + 1, k => if g k then 0 else zerosFrom g n (k + 1) + 1

end Sys2Proof.Machine
end

