-- ==== Sys2Proof/Machine/Operands.lean ====
section
/-! DEFINITION. The operands of a command: field registers in their roles, position arithmetic, the register numbers
of the port (spec/10_state.md R21 to R28, spec/40_position_arithmetic.md R100 to R102, spec/44_rotate.md R181). -/

namespace Sys2Proof.Machine

/-- Write a scalar register. -/
def State.setX (s : State) (i : XIdx) (v : Word) : State := { s with x := s.x.set i v }

/-- Write a field register. -/
def State.setF (s : State) (i : FIdx) (r : FieldReg) : State := { s with f := s.f.set i r }

/-- Write the buffer memory. -/
def State.setMem (s : State) (m : Memory) : State := { s with mem := m }

/-- R27: the register's content lies in its storage and its storage in `M`; the sum is exact (R8, R25). -/
abbrev DescOK (memBytes : MemSize) (r : FieldReg) : Prop :=
  r.len.toNat ≤ r.cap.toNat ∧ r.base.toNat + r.cap.toNat ≤ memBytes.val

/-- R100: "the minimal buffer length (in bytes) needed to address the full field". The sum is exact. -/
def needLen (p w : Nat) : Nat := ceil8 (p + w)

/-- R101: the bits `[p, p + w)` are inside the buffer. -/
abbrev InBuf (r : FieldReg) (p w : Nat) : Prop := needLen p w ≤ r.len.toNat

/-- R102: the buffer reference advanced to the byte of bit `p`, the position what is left of it. -/
def normalizeAt (r : FieldReg) (p : Nat) : FieldReg :=
  { base := wordOf (r.base.toNat + p / 8)
    len := wordOf (r.len.toNat - p / 8)
    cap := wordOf (r.cap.toNat - p / 8)
    pos := wordOf (p % 8)
    width := r.width }

/-- R14: the absolute bit address of position `p` in a field register. -/
def absBit (r : FieldReg) (p : Nat) : Nat := 8 * r.base.toNat + p

/-- R181: the rotation amount `signed_64(X[xs])` reduced modulo `T > 0` with the floored remainder of R8. -/
def reducedAmount (v : Word) (T : Nat) : Nat := (v.toInt % (T : Int)).toNat

/-- The five components of a field register (R22). -/
inductive Component where
  | base
  | len
  | cap
  | pos
  | width
deriving DecidableEq, Repr

/-- Read a component. -/
def FieldReg.get (r : FieldReg) : Component → Word
  | .base => r.base
  | .len => r.len
  | .cap => r.cap
  | .pos => r.pos
  | .width => r.width

/-- Write a component. -/
def FieldReg.put (r : FieldReg) (c : Component) (v : Word) : FieldReg :=
  match c with
  | .base => { r with base := v }
  | .len => { r with len := v }
  | .cap => { r with cap := v }
  | .pos => { r with pos := v }
  | .width => { r with width := v }

/-- What a register number names (R28). -/
inductive PortReg where
  | cmd
  | status
  | needlen
  | x (i : XIdx)
  | f (i : FIdx) (c : Component)
  | reserved
deriving DecidableEq, Repr

/-- The component at offset `k` of a field register's eight numbers (R28). -/
def componentAt : Nat → Option Component
  | 0 => some .base
  | 1 => some .len
  | 2 => some .cap
  | 3 => some .pos
  | 4 => some .width
  | _ => none

/-- The register with number `r` (R28). -/
def portReg (r : Nat) : PortReg :=
  if r = 0 then .cmd
  else if r = 1 then .status
  else if r = 2 then .needlen
  else if h : 8 ≤ r ∧ r < 16 then .x ⟨r - 8, by omega⟩
  else if h : 16 ≤ r ∧ r < 48 then
    match componentAt (r % 8) with
    | some c => .f ⟨(r - 16) / 8, by omega⟩ c
    | none => .reserved
  else .reserved

/-- The offset of a component in its register's numbers (R28). -/
def Component.offset : Component → Nat
  | .base => 0
  | .len => 1
  | .cap => 2
  | .pos => 3
  | .width => 4

/-- The number of a scalar register (R28). -/
def xNumber (i : XIdx) : Nat := 8 + i.val

/-- The number of a component of a field register (R28). -/
def fNumber (i : FIdx) (c : Component) : Nat := 16 + 8 * i.val + c.offset

/-- Where a platform places register number `r` on its bus (R28); `REG_BASE` is open (notes/assumptions/9.md). -/
def busAddress (r : Nat) : Nat := Config.regBase + 8 * r

end Sys2Proof.Machine
end

