-- ==== Sys2Proof/Machine/Hazards.lean ====
section
/-! DEFINITION. Aliasing: source and destination ranges, `HazardFree`, and what holds when it fails
(spec/70_reset_and_hazards.md R289 to R292). -/

namespace Sys2Proof.Machine

/-- The absolute bit addresses from `lo` up to but not including `hi` (R290). -/
structure BitRange where
  lo : Nat
  hi : Nat
deriving DecidableEq, Repr

/-- The two ranges have a bit in common. -/
abbrev BitRange.Overlaps (a b : BitRange) : Prop := max a.lo b.lo < min a.hi b.hi

/-- The bit is in the range. -/
abbrev BitRange.Has (a : BitRange) (bit : Nat) : Prop := a.lo ≤ bit ∧ bit < a.hi

/-- The bits `[p, p + w)` of a field register's buffer. -/
def rangeOf (r : FieldReg) (p w : Nat) : BitRange := ⟨absBit r p, absBit r p + w⟩

/-- All 8 bits of every byte that growth to `need` bytes zero-fills: none when `need ≤ len`. -/
def grownRange (r : FieldReg) (need : Nat) : BitRange :=
  ⟨8 * (r.base.toNat + r.len.toNat), 8 * (r.base.toNat + need)⟩

/-- What a command moves: R290's table, a row. `Dst` is `dst` with `grown`; `inPlace` says that R291 permits a
source that starts where the destination does. -/
structure Movement where
  srcs : List BitRange
  dst : BitRange
  grown : BitRange
  inPlace : Bool
deriving DecidableEq, Repr

/-- R290 and R291: each source has no bit of `Dst`, or is a permitted coincidence. -/
abbrev Movement.Free (v : Movement) : Prop :=
  ∀ r ∈ v.srcs, (v.inPlace = true ∧ r.lo = v.dst.lo) ∨ (¬ v.dst.Overlaps r ∧ ¬ v.grown.Overlaps r)

/-- The bit is in `Dst` (R290). -/
abbrev Movement.InDst (v : Movement) (bit : Nat) : Prop := v.dst.Has bit ∨ v.grown.Has bit

/-- A movement of a field of `w` bits at the `pos` of each register, which never grows (R205, R290, R291). -/
def fieldMovement (s : State) (fd : FIdx) (sources : List FIdx) (inPlace : Bool) : Movement :=
  let w := s.f[fd].width.toNat
  { srcs := sources.map fun i => rangeOf s.f[i] s.f[i].pos.toNat w
    dst := rangeOf s.f[fd] s.f[fd].pos.toNat w
    grown := ⟨0, 0⟩
    inPlace := inPlace }

/-- A movement of whole buffers of `F[fa].len` bytes (R231, R290, R291). -/
def bufferMovement (s : State) (fd fa : FIdx) (sources : List FIdx) (inPlace : Bool) : Movement :=
  let n := s.f[fa].len.toNat
  { srcs := sources.map fun i => rangeOf s.f[i] 0 (8 * n)
    dst := rangeOf s.f[fd] 0 (8 * n)
    grown := grownRange s.f[fd] n
    inPlace := inPlace && decide (n ≤ s.f[fd].len.toNat) }

/-- R290's table: the source and destination ranges of the commands that have both. Every other command "either has
no source range in `M` or no destination range in `M` and is always hazard free". -/
def movement (i : Instr) (s : State) : Option Movement :=
  match i with
  | .ext2 fd fa fb =>
    let l := 8 * s.f[fd].len.toNat
    let off := s.f[fa].pos.toNat
    let seam := 8 * s.f[fa].len.toNat
    some { srcs := [⟨absBit s.f[fa] off, absBit s.f[fa] (min (off + l) seam)⟩,
                    ⟨absBit s.f[fb] (max off seam - seam), absBit s.f[fb] (off + l - seam)⟩]
           dst := rangeOf s.f[fd] 0 l
           grown := ⟨0, 0⟩
           inPlace := false }
  | .bits fd fa _ =>
    let w := s.f[fa].width.toNat
    some { srcs := [rangeOf s.f[fa] s.f[fa].pos.toNat w]
           dst := rangeOf s.f[fd] 0 (8 * ceil8 w)
           grown := grownRange s.f[fd] (ceil8 w)
           inPlace := false }
  | .setbits fd fa align =>
    let w := s.f[fd].width.toNat
    let pad := 8 * ceil8 w - w
    some { srcs := [rangeOf s.f[fa] (if align = .left then 0 else pad) w]
           dst := rangeOf s.f[fd] s.f[fd].pos.toNat w
           grown := grownRange s.f[fd] (needLen s.f[fd].pos.toNat w)
           inPlace := false }
  | .rotl fd fa xs => some (bufferMovement s fd fa [fa] (decide (-8 ≤ s.x[xs].toInt ∧ s.x[xs].toInt ≤ 8)))
  | .fand fd fa fb => some (fieldMovement s fd [fa, fb] true)
  | .fandn fd fa fb => some (fieldMovement s fd [fa, fb] true)
  | .forr fd fa fb => some (fieldMovement s fd [fa, fb] true)
  | .fxor fd fa fb => some (fieldMovement s fd [fa, fb] true)
  | .fnot fd fa => some (fieldMovement s fd [fa] true)
  | .frotl fd fa _ => some (fieldMovement s fd [fa] false)
  | .band fd fa fb => some (bufferMovement s fd fa [fa, fb] true)
  | .bandn fd fa fb => some (bufferMovement s fd fa [fa, fb] true)
  | .bor fd fa fb => some (bufferMovement s fd fa [fa, fb] true)
  | .bxor fd fa fb => some (bufferMovement s fd fa [fa, fb] true)
  | .bnot fd fa => some (bufferMovement s fd fa [fa] true)
  | .norm .. | .need .. | .ensure .. | .get .. | .put .. | .bit .. | .uint8 .. | .uint16 .. | .uint32 .. | .uint64 ..
  | .setbit .. | .setu8 .. | .setu16 .. | .setu32 .. | .setu64 .. | .lz .. | .tz .. | .ones .. | .rdbits ..
  | .fcount .. | .ffill .. => none

/-- `HazardFree` of R290 for a command in a state. -/
abbrev HazardFree (i : Instr) (s : State) : Prop := ∀ v ∈ movement i s, v.Free

/-- The memory with a free value in every bit of a range, the values those of the `n`-th use (R292). -/
def Memory.scramble (m : Memory) (n : Nat) (r : BitRange) : Memory :=
  m.writeBits 0 r.lo (fun i => Config.freeBit n (r.lo + i)) (r.hi - r.lo)

/-- The state after a command's movement. When it is not hazard free the bits of `Dst` "hold unspecified values" and
everything else is as the command's rule gives it (R292): the second treatment U1 offers, a free value in each of
those bits (DESIGN CHOICE, safe: notes/assumptions/3.md). -/
def settle (v : Option Movement) (s : State) : State :=
  match v with
  | none => s
  | some v =>
    if v.Free then s
    else { s with mem := (s.mem.scramble s.freeCount v.dst).scramble s.freeCount v.grown
                  freeCount := s.freeCount + 1 }

end Sys2Proof.Machine
end

