-- ==== Sys2Proof/Machine/Ops.lean ====
section
/-! DEFINITION. The shared operations of the commands: taking an exception and leaving it, the checks, growth, and the
execution sequence of spec/30_encoding.md R80. -/

namespace Sys2Proof.Machine

/-- How a command ends other than `OK`: `raise Fault(cause)`, `raise EOF`, `raise Grow(need)` (R11, R250). -/
inductive Raise where
  | fault (c : Cause)
  | eof
  | grow (need : Nat)
deriving DecidableEq, Repr

/-- Taking an exception (R80, R260, R261): `STATUS` records the outcome, `Grow` records the length needed in
`NEEDLEN`, and nothing else changes; `CMD` already holds the word. -/
def raise (r : Raise) (s : State) : State :=
  match r with
  | .fault c => { s with status := statusWord .fault c }
  | .eof => { s with status := statusWord .eof .none }
  | .grow need => { s with status := statusWord .grow .none, needlen := wordOf need }

/-- Step 6 of R80: the outcome `OK`. -/
def finish (s : State) : State := { s with status := statusWord .ok .none }

/-- Reset (R42, R280), the only way out of the faulted state (R262): every register takes its reset value, `M` is not
touched. -/
def State.resetEngine (s : State) : State :=
  { State.powerOn s.memBytes s.mem with host := s.host, freeCount := s.freeCount }

/-- The outcome of the first check that raises, the checks in the order R258 lists them. -/
def firstRaise : List (Option Raise) → Option Raise
  | [] => none
  | some r :: _ => some r
  | none :: rest => firstRaise rest

/-- R252: a term of `Instr` whose count no legal word holds raises what its word raises
(DEDUCED, safe: notes/assumptions/8.md). -/
def checkLegal (i : Instr) : Option Raise := if WellFormed i then none else some (.fault .illegalCmd)

/-- R253: `DescOK` of every field register the command names. -/
def checkDesc (s : State) (named : List FIdx) : Option Raise :=
  if ∀ i ∈ named, DescOK s.memBytes s.f[i] then none else some (.fault .desc)

/-- R101, R254: the bits `[p, p + w)` are inside the register's buffer. -/
def checkBounds (r : FieldReg) (p w : Nat) : Option Raise :=
  if InBuf r p w then none else some (.fault .bounds)

/-- A check that raises `Fault(c)` when `p` holds. -/
def faultIf (c : Cause) (p : Prop) [Decidable p] : Option Raise := if p then some (.fault c) else none

/-- `GrowPlan(F, need)` of R103. -/
def growPlan (r : FieldReg) (need : Nat) : Option Raise :=
  if r.cap.toNat < need ∧ r.len.toNat < need then some (.grow need) else none

/-- `GrowDo(F, need)` of R104. -/
def growDo (i : FIdx) (need : Nat) (s : State) : State :=
  let r := s.f[i]
  if r.len.toNat < need then
    (s.setMem (s.mem.writeBytes (r.base.toNat + r.len.toNat) (fun _ => 0) (need - r.len.toNat))).setF i
      { r with len := wordOf need }
  else s

/-- Steps 3 to 6 of R80: the checks in their order, each before anything changes (R259); then the command is
performed and `STATUS` set to `OK`. -/
def runCommand (checks : List (Option Raise)) (perform : State → State) (s : State) :
    Host.Outcome State Fault Refusal :=
  match firstRaise checks with
  | some r => .next (raise r s)
  | none => .next (finish (perform s))

end Sys2Proof.Machine
end

