-- ==== Sys2Proof/Machine/BufferBoolean.lean ====
section
/-! DEFINITION. `BAND`, `BANDN`, `BOR`, `BXOR`, `BNOT` (spec/47_buffer_boolean.md). -/

namespace Sys2Proof.Machine

/-- R231, the operation: byte `j` of the destination becomes `out s j`, for `j` below the length of `F[fa]`, after
growth to that length. -/
def bufferPerform (i : Instr) (fd fa : FIdx) (out : State → Nat → Byte) (s : State) : State :=
  let n := s.f[fa].len.toNat
  let g := growDo fd n s
  settle (movement i s) (g.setMem (g.mem.writeBytes s.f[fd].base.toNat (out s) n))

/-- Byte `j` of a buffer. -/
def bufferByte (s : State) (i : FIdx) (j : Nat) : Byte := s.mem.read (s.f[i].base.toNat + j)

/-- R231 with two sources. -/
def bufferDyadic (i : Instr) (fd fa fb : FIdx) (op : Byte → Byte → Byte) (s : State) :
    Host.Outcome State Fault Refusal :=
  runCommand
    [checkDesc s [fd, fa, fb], faultIf .length (s.f[fa].len ≠ s.f[fb].len), growPlan s.f[fd] s.f[fa].len.toNat]
    (bufferPerform i fd fa (fun s j => op (bufferByte s fa j) (bufferByte s fb j))) s

/-- R232. -/
def execBand (fd fa fb : FIdx) (s : State) : Host.Outcome State Fault Refusal :=
  bufferDyadic (.band fd fa fb) fd fa fb (fun a b => a &&& b) s

/-- R233: `a AND (255 − b)`. The spec takes the operand order from general knowledge (G1)
(PRESUMED there, unsafe: notes/assumptions/11.md). -/
def execBandn (fd fa fb : FIdx) (s : State) : Host.Outcome State Fault Refusal :=
  bufferDyadic (.bandn fd fa fb) fd fa fb (fun a b => a &&& (255 - b)) s

/-- R234. -/
def execBor (fd fa fb : FIdx) (s : State) : Host.Outcome State Fault Refusal :=
  bufferDyadic (.bor fd fa fb) fd fa fb (fun a b => a ||| b) s

/-- R235. -/
def execBxor (fd fa fb : FIdx) (s : State) : Host.Outcome State Fault Refusal :=
  bufferDyadic (.bxor fd fa fb) fd fa fb (fun a b => a ^^^ b) s

/-- R236: `255 − a`. -/
def execBnot (fd fa : FIdx) (s : State) : Host.Outcome State Fault Refusal :=
  runCommand [checkDesc s [fd, fa], growPlan s.f[fd] s.f[fa].len.toNat]
    (bufferPerform (.bnot fd fa) fd fa (fun s j => 255 - bufferByte s fa j)) s

end Sys2Proof.Machine
end

