-- ==== Sys2Proof/Machine/ConcatExtract.lean ====
section
/-! DEFINITION. `EXT2` (spec/42_concat_extract.md). -/

namespace Sys2Proof.Machine

/-- Byte `i` of the concatenation `C` of two buffers (R141). -/
def concatByte (m : Memory) (x y : FieldReg) (i : Nat) : Byte :=
  if i < x.len.toNat then m.read (x.base.toNat + i) else m.read (y.base.toNat + (i - x.len.toNat))

/-- `Cbit(p)` of R141. -/
def concatBit (m : Memory) (x y : FieldReg) (p : Nat) : Bool := bitOfByte (concatByte m x y (p / 8)) (p % 8)

/-- R141: extract whole bytes from two buffers taken as one. -/
def execExt2 (fd fa fb : FIdx) (s : State) : Host.Outcome State Fault Refusal :=
  let l := s.f[fd].len.toNat
  let off := s.f[fa].pos.toNat
  runCommand
    [checkDesc s [fd, fa, fb],
     faultIf .bounds (8 * (s.f[fa].len.toNat + s.f[fb].len.toNat) < off + 8 * l)]
    (fun s => settle (movement (.ext2 fd fa fb) s)
      (s.setMem (s.mem.writeBytes s.f[fd].base.toNat
        (fun j => BitVec.ofNat 8 (bitsValue (fun i => concatBit s.mem s.f[fa] s.f[fb] (off + 8 * j + i)) 8)) l))) s

end Sys2Proof.Machine
end

