-- ==== Sys2Proof/Machine/Counts.lean ====
section
/-! DEFINITION. `LZ`, `TZ`, `ONES` (spec/45_counts.md). -/

namespace Sys2Proof.Machine

/-- R191: the zeros before the first 1 bit of the buffer, all its bits if there is none. -/
def execLz (xd : XIdx) (fa : FIdx) (s : State) : Host.Outcome State Fault Refusal :=
  let r := s.f[fa]
  runCommand [checkDesc s [fa]]
    (fun s => s.setX xd (wordOf (zerosFrom (s.mem.bitRead r.base.toNat) (8 * r.len.toNat) 0))) s

/-- R192: the zeros after the last 1 bit of the buffer, all its bits if there is none. -/
def execTz (xd : XIdx) (fa : FIdx) (s : State) : Host.Outcome State Fault Refusal :=
  let r := s.f[fa]
  let total := 8 * r.len.toNat
  runCommand [checkDesc s [fa]]
    (fun s => s.setX xd (wordOf (zerosFrom (fun k => s.mem.bitRead r.base.toNat (total - 1 - k)) total 0))) s

/-- R193: the number of 1 bits of the buffer. -/
def execOnes (xd : XIdx) (fa : FIdx) (s : State) : Host.Outcome State Fault Refusal :=
  let r := s.f[fa]
  runCommand [checkDesc s [fa]]
    (fun s => s.setX xd (wordOf (countOnes (s.mem.bitRead r.base.toNat) (8 * r.len.toNat)))) s

end Sys2Proof.Machine
end

