-- ==== Sys2Proof/Machine/FieldAccess.lean ====
section
/-! DEFINITION. `BIT`, `UINT8/16/32/64`, `BITS`, `SETBIT`, `SETU8/16/32/64`, `SETBITS` (spec/43_field_access.md). -/

namespace Sys2Proof.Machine

/-- R152: the bit at `pos`. -/
def execBit (xd : XIdx) (fa : FIdx) (s : State) : Host.Outcome State Fault Refusal :=
  let r := s.f[fa]
  runCommand [checkDesc s [fa], checkBounds r r.pos.toNat 1]
    (fun s => s.setX xd (wordOf (s.mem.bitRead r.base.toNat r.pos.toNat).toNat)) s

/-- R153 to R156: the `w` bits at `pos` as an unsigned integer. -/
def readUint (w : Nat) (xd : XIdx) (fa : FIdx) (s : State) : Host.Outcome State Fault Refusal :=
  let r := s.f[fa]
  runCommand [checkDesc s [fa], checkBounds r r.pos.toNat w]
    (fun s => s.setX xd (wordOf (s.mem.bitsRead r.base.toNat r.pos.toNat w))) s

/-- R153. -/
def execUint8 (xd : XIdx) (fa : FIdx) (s : State) : Host.Outcome State Fault Refusal := readUint 8 xd fa s

/-- R154. -/
def execUint16 (xd : XIdx) (fa : FIdx) (s : State) : Host.Outcome State Fault Refusal := readUint 16 xd fa s

/-- R155. -/
def execUint32 (xd : XIdx) (fa : FIdx) (s : State) : Host.Outcome State Fault Refusal := readUint 32 xd fa s

/-- R156. -/
def execUint64 (xd : XIdx) (fa : FIdx) (s : State) : Host.Outcome State Fault Refusal := readUint 64 xd fa s

/-- R157: a field's representation (R151) into a destination, from its byte 0. A field of width 0 ends the command
after the source check, with no change. -/
def execBits (fd fa : FIdx) (align : Align) (s : State) : Host.Outcome State Fault Refusal :=
  let r := s.f[fa]
  let w := r.width.toNat
  let bytes := ceil8 w
  runCommand
    [checkDesc s [fd, fa], checkBounds r r.pos.toNat w,
     if w = 0 then none else growPlan s.f[fd] bytes]
    (fun s =>
      if w = 0 then s
      else
        let v := s.mem.bitsRead r.base.toNat r.pos.toNat w
        let v' := match align with
          | .left => v * 2 ^ (8 * bytes - w)
          | .right => v
        let g := growDo fd bytes s
        settle (movement (.bits fd fa align) s) (g.setMem (g.mem.bitsWrite s.f[fd].base.toNat 0 (8 * bytes) v'))) s

/-- R160: write one bit. -/
def execSetbit (fd : FIdx) (xs : XIdx) (s : State) : Host.Outcome State Fault Refusal :=
  let o := s.f[fd].pos.toNat
  runCommand [checkDesc s [fd], growPlan s.f[fd] (needLen o 1)]
    (fun s =>
      let g := growDo fd (needLen o 1) s
      g.setMem (g.mem.bitWrite s.f[fd].base.toNat o (decide (s.x[xs].toNat % 2 = 1)))) s

/-- R161 to R164: the low `w` bits of a value into the `w` bits at `pos`, growing the destination to fit. -/
def writeUint (w : Nat) (fd : FIdx) (xs : XIdx) (s : State) : Host.Outcome State Fault Refusal :=
  let o := s.f[fd].pos.toNat
  runCommand [checkDesc s [fd], growPlan s.f[fd] (needLen o w)]
    (fun s =>
      let g := growDo fd (needLen o w) s
      g.setMem (g.mem.bitsWrite s.f[fd].base.toNat o w (s.x[xs].toNat % 2 ^ w))) s

/-- R161. -/
def execSetu8 (fd : FIdx) (xs : XIdx) (s : State) : Host.Outcome State Fault Refusal := writeUint 8 fd xs s

/-- R162. -/
def execSetu16 (fd : FIdx) (xs : XIdx) (s : State) : Host.Outcome State Fault Refusal := writeUint 16 fd xs s

/-- R163. -/
def execSetu32 (fd : FIdx) (xs : XIdx) (s : State) : Host.Outcome State Fault Refusal := writeUint 32 fd xs s

/-- R164. -/
def execSetu64 (fd : FIdx) (xs : XIdx) (s : State) : Host.Outcome State Fault Refusal := writeUint 64 fd xs s

/-- R165: write a field from its representation. -/
def execSetbits (fd fa : FIdx) (align : Align) (s : State) : Host.Outcome State Fault Refusal :=
  let o := s.f[fd].pos.toNat
  let w := s.f[fd].width.toNat
  let bytes := ceil8 w
  let need := needLen o w
  runCommand
    [checkDesc s [fd, fa], faultIf .bounds (s.f[fa].len.toNat < bytes), growPlan s.f[fd] need]
    (fun s =>
      let start := match align with
        | .left => 0
        | .right => 8 * bytes - w
      let v := s.mem.bitsRead s.f[fa].base.toNat start w
      let g := growDo fd need s
      settle (movement (.setbits fd fa align) s) (g.setMem (g.mem.bitsWrite s.f[fd].base.toNat o w v))) s

end Sys2Proof.Machine
end

