-- ==== Sys2Proof/Machine/FieldCursor.lean ====
section
/-! DEFINITION. `RDBITS`, `FAND`, `FANDN`, `FOR`, `FXOR`, `FNOT`, `FROTL`, `FCOUNT`, `FFILL`
(spec/46_field_cursor.md). -/

namespace Sys2Proof.Machine

/-- R201: consume the next `n` bits of the cursor; `EOF` is tested before `BOUNDS`. -/
def execRdbits (xd : XIdx) (fd : FIdx) (n : BitVec 7) (s : State) : Host.Outcome State Fault Refusal :=
  let r := s.f[fd]
  let p := r.pos.toNat
  let w := r.width.toNat
  runCommand
    [checkLegal (.rdbits xd fd n), checkDesc s [fd], if w < n.toNat then some .eof else none,
     checkBounds r p n.toNat]
    (fun s => (s.setX xd (wordOf (s.mem.bitsRead r.base.toNat p n.toNat))).setF fd
      { r with pos := wordOf (p + n.toNat), width := wordOf (w - n.toNat) }) s

/-- R205, the checks: every source field as wide as the destination, then the destination's bits in its buffer, then
each source's bits in its own. -/
def fieldChecks (s : State) (fd : FIdx) (sources : List FIdx) : List (Option Raise) :=
  let w := s.f[fd].width.toNat
  sources.map (fun i => faultIf .bounds (s.f[i].width.toNat < w)) ++
  [checkBounds s.f[fd] s.f[fd].pos.toNat w] ++
  sources.map (fun i => checkBounds s.f[i] s.f[i].pos.toNat w)

/-- The first `w` bits of a field (R205). -/
def fieldBits (s : State) (i : FIdx) (w : Nat) : Nat := s.mem.bitsRead s.f[i].base.toNat s.f[i].pos.toNat w

/-- R205 with two sources; `op` gets the width and the two `w`-bit values. -/
def fieldDyadic (i : Instr) (fd fa fb : FIdx) (op : Nat → Nat → Nat → Nat) (s : State) :
    Host.Outcome State Fault Refusal :=
  let w := s.f[fd].width.toNat
  runCommand (checkDesc s [fd, fa, fb] :: fieldChecks s fd [fa, fb])
    (fun s => settle (movement i s)
      (s.setMem (s.mem.bitsWrite s.f[fd].base.toNat s.f[fd].pos.toNat w
        (op w (fieldBits s fa w) (fieldBits s fb w))))) s

/-- R206. -/
def execFand (fd fa fb : FIdx) (s : State) : Host.Outcome State Fault Refusal :=
  fieldDyadic (.fand fd fa fb) fd fa fb (fun _ a b => a &&& b) s

/-- R207: `a AND (NOT b)`, the NOT over `W` bits. The spec takes the operand order from general knowledge (G1)
(PRESUMED there, unsafe: notes/assumptions/11.md). -/
def execFandn (fd fa fb : FIdx) (s : State) : Host.Outcome State Fault Refusal :=
  fieldDyadic (.fandn fd fa fb) fd fa fb (fun w a b => a &&& (2 ^ w - 1 - b)) s

/-- R208. -/
def execFor (fd fa fb : FIdx) (s : State) : Host.Outcome State Fault Refusal :=
  fieldDyadic (.forr fd fa fb) fd fa fb (fun _ a b => a ||| b) s

/-- R209. -/
def execFxor (fd fa fb : FIdx) (s : State) : Host.Outcome State Fault Refusal :=
  fieldDyadic (.fxor fd fa fb) fd fa fb (fun _ a b => a ^^^ b) s

/-- R210: the complement over `W` bits, `(2^W − 1) − a`. -/
def execFnot (fd fa : FIdx) (s : State) : Host.Outcome State Fault Refusal :=
  let w := s.f[fd].width.toNat
  runCommand (checkDesc s [fd, fa] :: fieldChecks s fd [fa])
    (fun s => settle (movement (.fnot fd fa) s)
      (s.setMem (s.mem.bitsWrite s.f[fd].base.toNat s.f[fd].pos.toNat w (2 ^ w - 1 - fieldBits s fa w)))) s

/-- R212: rotate the first `W` bits of a field left by a signed bit count. -/
def execFrotl (fd fa : FIdx) (xs : XIdx) (s : State) : Host.Outcome State Fault Refusal :=
  let w := s.f[fd].width.toNat
  runCommand (checkDesc s [fd, fa] :: fieldChecks s fd [fa])
    (fun s =>
      if w = 0 then s
      else
        let r := reducedAmount s.x[xs] w
        let d := fun i => s.mem.bitRead s.f[fa].base.toNat (s.f[fa].pos.toNat + (i + r) % w)
        settle (movement (.frotl fd fa xs) s)
          (s.setMem (s.mem.writeBits s.f[fd].base.toNat s.f[fd].pos.toNat d w))) s

/-- R214: how many bits of the field have the value `X[xs]`, which must be 0 or 1. -/
def execFcount (xd : XIdx) (fa : FIdx) (xs : XIdx) (s : State) : Host.Outcome State Fault Refusal :=
  let r := s.f[fa]
  let b := s.x[xs].toNat
  runCommand [checkDesc s [fa], faultIf .invalidArg (1 < b), checkBounds r r.pos.toNat r.width.toNat]
    (fun s => s.setX xd (wordOf (countOnes
      (fun i => s.mem.bitRead r.base.toNat (r.pos.toNat + i) == decide (b = 1)) r.width.toNat))) s

/-- R215: every bit of the field becomes `X[xs]`, which must be 0 or 1. -/
def execFfill (fd : FIdx) (xs : XIdx) (s : State) : Host.Outcome State Fault Refusal :=
  let r := s.f[fd]
  let b := s.x[xs].toNat
  let w := r.width.toNat
  runCommand [checkDesc s [fd], faultIf .invalidArg (1 < b), checkBounds r r.pos.toNat w]
    (fun s => s.setMem (s.mem.bitsWrite r.base.toNat r.pos.toNat w (b * (2 ^ w - 1)))) s

end Sys2Proof.Machine
end

