-- ==== Sys2Proof/Machine/PositionArithmetic.lean ====
section
/-! DEFINITION. `NORM`, `NEED`, `ENSURE` (spec/40_position_arithmetic.md). -/

namespace Sys2Proof.Machine

/-- R106: bring a position into normalised form. -/
def execNorm (fd : FIdx) (s : State) : Host.Outcome State Fault Refusal :=
  let r := s.f[fd]
  runCommand [checkDesc s [fd], checkBounds r r.pos.toNat 0]
    (fun s => s.setF fd (normalizeAt r r.pos.toNat)) s

/-- R107: the byte length a field needs. -/
def execNeed (xd : XIdx) (fa : FIdx) (s : State) : Host.Outcome State Fault Refusal :=
  let r := s.f[fa]
  runCommand [checkDesc s [fa]] (fun s => s.setX xd (wordOf (needLen r.pos.toNat r.width.toNat))) s

/-- R108: make the buffer long enough for the field. -/
def execEnsure (fd : FIdx) (s : State) : Host.Outcome State Fault Refusal :=
  let need := needLen s.f[fd].pos.toNat s.f[fd].width.toNat
  runCommand [checkDesc s [fd], growPlan s.f[fd] need] (growDo fd need) s

end Sys2Proof.Machine
end

