-- ==== Sys2Proof/Machine/Rotate.lean ====
section
/-! DEFINITION. `ROTL` (spec/44_rotate.md). -/

namespace Sys2Proof.Machine

/-- R182: rotate the whole of a buffer left by a signed bit count. The small and the large path (R183, R184) give the
same result; they differ in the coincidence they permit (`movement`). -/
def execRotl (fd fa : FIdx) (xs : XIdx) (s : State) : Host.Outcome State Fault Refusal :=
  let ls := s.f[fa].len.toNat
  let total := 8 * ls
  runCommand [checkDesc s [fd, fa], growPlan s.f[fd] ls]
    (fun s =>
      if total = 0 then s.setF fd { s.f[fd] with len := 0 }
      else
        let r := reducedAmount s.x[xs] total
        let d := fun i => s.mem.bitRead s.f[fa].base.toNat ((i + r) % total)
        let g := growDo fd ls s
        settle (movement (.rotl fd fa xs) s)
          ((g.setMem (g.mem.writeBits s.f[fd].base.toNat 0 d total)).setF fd { s.f[fd] with len := wordOf ls })) s

end Sys2Proof.Machine
end

