-- ==== Sys2Proof/Machine/WordGetPut.lean ====
section
/-! DEFINITION. `GET`, `PUT` (spec/41_word_get_put.md). -/

namespace Sys2Proof.Machine

/-- R121: read the next `n` bits and advance. -/
def execGet (xd : XIdx) (fd : FIdx) (n : BitVec 7) (s : State) : Host.Outcome State Fault Refusal :=
  let r := s.f[fd]
  let p := r.pos.toNat
  runCommand [checkLegal (.get xd fd n), checkDesc s [fd], checkBounds r p n.toNat]
    (fun s => (s.setX xd (wordOf (s.mem.bitsRead r.base.toNat p n.toNat))).setF fd (normalizeAt r (p + n.toNat))) s

/-- R125: write the low `n` bits of a value and advance. -/
def execPut (fd : FIdx) (xs : XIdx) (n : BitVec 7) (s : State) : Host.Outcome State Fault Refusal :=
  let r := s.f[fd]
  let p := r.pos.toNat
  runCommand [checkLegal (.put fd xs n), checkDesc s [fd], checkBounds r p n.toNat]
    (fun s => (s.setMem (s.mem.bitsWrite r.base.toNat p n.toNat (s.x[xs].toNat % 2 ^ n.toNat))).setF fd
      (normalizeAt r (p + n.toNat))) s

end Sys2Proof.Machine
end

