-- ==== Sys2Proof/Machine/Dispatch.lean ====
section
/-! DEFINITION. The meaning of every command: steps 3 to 6 of spec/30_encoding.md R80. -/

namespace Sys2Proof.Machine

def exec (i : Instr) (s : State) : Host.Outcome State Fault Refusal :=
  match i with
  | .norm fd => Sys2Proof.Machine.execNorm fd s
  | .need xd fa => Sys2Proof.Machine.execNeed xd fa s
  | .ensure fd => Sys2Proof.Machine.execEnsure fd s
  | .get xd fd n => Sys2Proof.Machine.execGet xd fd n s
  | .put fd xs n => Sys2Proof.Machine.execPut fd xs n s
  | .ext2 fd fa fb => Sys2Proof.Machine.execExt2 fd fa fb s
  | .bit xd fa => Sys2Proof.Machine.execBit xd fa s
  | .uint8 xd fa => Sys2Proof.Machine.execUint8 xd fa s
  | .uint16 xd fa => Sys2Proof.Machine.execUint16 xd fa s
  | .uint32 xd fa => Sys2Proof.Machine.execUint32 xd fa s
  | .uint64 xd fa => Sys2Proof.Machine.execUint64 xd fa s
  | .bits fd fa align => Sys2Proof.Machine.execBits fd fa align s
  | .setbit fd xs => Sys2Proof.Machine.execSetbit fd xs s
  | .setu8 fd xs => Sys2Proof.Machine.execSetu8 fd xs s
  | .setu16 fd xs => Sys2Proof.Machine.execSetu16 fd xs s
  | .setu32 fd xs => Sys2Proof.Machine.execSetu32 fd xs s
  | .setu64 fd xs => Sys2Proof.Machine.execSetu64 fd xs s
  | .setbits fd fa align => Sys2Proof.Machine.execSetbits fd fa align s
  | .rotl fd fa xs => Sys2Proof.Machine.execRotl fd fa xs s
  | .lz xd fa => Sys2Proof.Machine.execLz xd fa s
  | .tz xd fa => Sys2Proof.Machine.execTz xd fa s
  | .ones xd fa => Sys2Proof.Machine.execOnes xd fa s
  | .rdbits xd fd n => Sys2Proof.Machine.execRdbits xd fd n s
  | .fand fd fa fb => Sys2Proof.Machine.execFand fd fa fb s
  | .fandn fd fa fb => Sys2Proof.Machine.execFandn fd fa fb s
  | .forr fd fa fb => Sys2Proof.Machine.execFor fd fa fb s
  | .fxor fd fa fb => Sys2Proof.Machine.execFxor fd fa fb s
  | .fnot fd fa => Sys2Proof.Machine.execFnot fd fa s
  | .frotl fd fa xs => Sys2Proof.Machine.execFrotl fd fa xs s
  | .fcount xd fa xs => Sys2Proof.Machine.execFcount xd fa xs s
  | .ffill fd xs => Sys2Proof.Machine.execFfill fd xs s
  | .band fd fa fb => Sys2Proof.Machine.execBand fd fa fb s
  | .bandn fd fa fb => Sys2Proof.Machine.execBandn fd fa fb s
  | .bor fd fa fb => Sys2Proof.Machine.execBor fd fa fb s
  | .bxor fd fa fb => Sys2Proof.Machine.execBxor fd fa fb s
  | .bnot fd fa => Sys2Proof.Machine.execBnot fd fa s

end Sys2Proof.Machine
end

