-- ==== Sys2Proof/Machine/HostPort.lean ====
section
/-! DEFINITION. The register port and the other host transactions (spec/10_state.md R28 to R36,
spec/30_encoding.md R80 to R86). -/

namespace Sys2Proof.Machine

/-- `HostRead(r)` (R28, R31): the value the port returns. -/
def hostRead (r : Nat) (s : State) : Word :=
  match portReg r with
  | .cmd => s.cmd.zeroExtend 64
  | .status => s.status
  | .needlen => s.needlen
  | .x i => s.x[i]
  | .f i c => s.f[i].get c
  | .reserved => 0

/-- Steps 1 to 6 of R80 for the word `w`: `CMD` takes it, it is decoded, an illegal word raises
`Fault(ILLEGAL_CMD)` (R79, R252), a legal one is executed. -/
def issueCommand (w : CmdWord) (s : State) : Host.Outcome State Fault Refusal :=
  match decode w with
  | .ok i => exec i { s with cmd := w }
  | .error _ => .next (raise (.fault .illegalCmd) { s with cmd := w })

/-- `HostWrite(r, v)` (R30, R32, R33): ignored in the faulted state; to `CMD` it issues the command `v[31:0]`; to a
writable register it sets it; to any other number nothing happens. -/
def hostWrite (r : Nat) (v : Word) (s : State) : Host.Outcome State Fault Refusal :=
  if s.Faulted then .next s
  else
    match portReg r with
    | .cmd => issueCommand (v.extractLsb' 0 32) s
    | .x i => .next (s.setX i v)
    | .f i c => .next (s.setF i (s.f[i].put c v))
    | .status => .next s
    | .needlen => .next s
    | .reserved => .next s

/-- One transaction of the host. The host's own access to `M` reaches the addresses below `MEM_BYTES` only (R37, R63;
notes/assumptions/6.md). -/
def transact (t : HostOp) (s : State) : Host.Outcome State Fault Refusal :=
  match t with
  | .write r v => hostWrite r v s
  | .read r => .next { s with portOut := some (hostRead r s) }
  | .reset => .next s.resetEngine
  | .memWrite a v => if a < s.memBytes.val then .next (s.setMem (s.mem.write a v)) else .fault (.noSuchByte a)
  | .memRead a =>
    if a < s.memBytes.val then .next { s with portOut := some ((s.mem.read a).zeroExtend 64) }
    else .fault (.noSuchByte a)

/-- The next transaction of the host; with none pending the engine is idle and keeps all its state (R271). -/
def nextTransaction (s : State) : Host.Outcome State Fault Refusal :=
  match s.host with
  | [] => .next s
  | t :: rest => transact t { s with host := rest, portOut := none }

/-- The host transaction that issues the command word `w` (R32). -/
def commandWrite (w : CmdWord) : HostOp := .write 0 (w.zeroExtend 64)

/-- A state in which the next transaction issues the word `w`. In the faulted state no command can be issued (R33), so
its `STATUS` is put to `OK` first, for a reset and a set-up of the registers as they stand (notes/assumptions/4.md). -/
def State.withCommand (s : State) (w : CmdWord) : State :=
  { s with host := commandWrite w :: s.host
           status := if s.Faulted then statusWord .ok .none else s.status }

end Sys2Proof.Machine
end

