-- ==== Sys2Proof/Machine/Step.lean ====
section
/-! DEFINITION. One step of the machine: one host transaction (spec/00_scope.md R7). -/

namespace Sys2Proof.Machine

/-- One step: the next transaction of the host (R7). -/
def step (s : State) : Host.Outcome State Fault Refusal := nextTransaction s

/-- `s` with the instruction of the word `w`, `nbits` bits of it as the opcode table numbers them, where the next step
takes its instruction: a host write of it to `CMD` (R32). -/
def State.withFetchWord (s : State) (nbits w : Nat) : State := s.withCommand (BitVec.ofNat 32 (w % 2 ^ nbits))

end Sys2Proof.Machine
end

