-- ==== Sys2Proof/Safety.lean ====
section
/-! DEFINITION. The terms the statements are made in: the invariant of the machine, what a command may change, what it
may raise, and how two states are compared (spec/20_memory.md R56, R57; spec/60_exceptions.md R259, R272). -/

namespace Sys2Proof.Machine

/-- What every step keeps: `M` in its canonical form and inside `MEM_BYTES` (R37, R253), `STATUS` with its reserved bits
0 and a cause exactly when the outcome is `FAULT` (R34). -/
structure State.Inv (s : State) : Prop where
  memWf : s.mem.wf
  memWithin : s.mem.within s.memBytes.val
  statusLegal : StatusLegal s.status

/-- The field registers a command names, in the order `fd`, `fa`, `fb` (R75, R80 step 3). -/
def named : Instr → List FIdx
  | .norm fd => [fd]
  | .need _ fa => [fa]
  | .ensure fd => [fd]
  | .get _ fd _ => [fd]
  | .put fd _ _ => [fd]
  | .ext2 fd fa fb => [fd, fa, fb]
  | .bit _ fa => [fa]
  | .uint8 _ fa => [fa]
  | .uint16 _ fa => [fa]
  | .uint32 _ fa => [fa]
  | .uint64 _ fa => [fa]
  | .bits fd fa _ => [fd, fa]
  | .setbit fd _ => [fd]
  | .setu8 fd _ => [fd]
  | .setu16 fd _ => [fd]
  | .setu32 fd _ => [fd]
  | .setu64 fd _ => [fd]
  | .setbits fd fa _ => [fd, fa]
  | .rotl fd fa _ => [fd, fa]
  | .lz _ fa => [fa]
  | .tz _ fa => [fa]
  | .ones _ fa => [fa]
  | .rdbits _ fd _ => [fd]
  | .fand fd fa fb => [fd, fa, fb]
  | .fandn fd fa fb => [fd, fa, fb]
  | .forr fd fa fb => [fd, fa, fb]
  | .fxor fd fa fb => [fd, fa, fb]
  | .fnot fd fa => [fd, fa]
  | .frotl fd fa _ => [fd, fa]
  | .fcount _ fa _ => [fa]
  | .ffill fd _ => [fd]
  | .band fd fa fb => [fd, fa, fb]
  | .bandn fd fa fb => [fd, fa, fb]
  | .bor fd fa fb => [fd, fa, fb]
  | .bxor fd fa fb => [fd, fa, fb]
  | .bnot fd fa => [fd, fa]

/-- The scalar register a command writes (R72). -/
def writesX : Instr → List XIdx
  | .need xd _ => [xd]
  | .get xd _ _ => [xd]
  | .bit xd _ => [xd]
  | .uint8 xd _ => [xd]
  | .uint16 xd _ => [xd]
  | .uint32 xd _ => [xd]
  | .uint64 xd _ => [xd]
  | .lz xd _ => [xd]
  | .tz xd _ => [xd]
  | .ones xd _ => [xd]
  | .rdbits xd _ _ => [xd]
  | .fcount xd _ _ => [xd]
  | .norm .. | .ensure .. | .put .. | .ext2 .. | .bits .. | .setbit .. | .setu8 .. | .setu16 .. | .setu32 ..
  | .setu64 .. | .setbits .. | .rotl .. | .fand .. | .fandn .. | .forr .. | .fxor .. | .fnot .. | .frotl ..
  | .ffill .. | .band .. | .bandn .. | .bor .. | .bxor .. | .bnot .. => []

/-- The field register whose components a command may change, and which of the five (R105, R106, R121, R125, R182,
R201): growth changes `len` alone. -/
def writesF : Instr → List (FIdx × List Component)
  | .norm fd => [(fd, [.base, .len, .cap, .pos])]
  | .get _ fd _ => [(fd, [.base, .len, .cap, .pos])]
  | .put fd _ _ => [(fd, [.base, .len, .cap, .pos])]
  | .rdbits _ fd _ => [(fd, [.pos, .width])]
  | .ensure fd => [(fd, [.len])]
  | .bits fd _ _ => [(fd, [.len])]
  | .setbit fd _ => [(fd, [.len])]
  | .setu8 fd _ => [(fd, [.len])]
  | .setu16 fd _ => [(fd, [.len])]
  | .setu32 fd _ => [(fd, [.len])]
  | .setu64 fd _ => [(fd, [.len])]
  | .setbits fd _ _ => [(fd, [.len])]
  | .rotl fd _ _ => [(fd, [.len])]
  | .band fd _ _ => [(fd, [.len])]
  | .bandn fd _ _ => [(fd, [.len])]
  | .bor fd _ _ => [(fd, [.len])]
  | .bxor fd _ _ => [(fd, [.len])]
  | .bnot fd _ => [(fd, [.len])]
  | .need .. | .ext2 .. | .bit .. | .uint8 .. | .uint16 .. | .uint32 .. | .uint64 .. | .lz .. | .tz .. | .ones ..
  | .fand .. | .fandn .. | .forr .. | .fxor .. | .fnot .. | .frotl .. | .fcount .. | .ffill .. => []

/-- The field register through which a command writes `M` (R57, R72): none for a command whose rule names no
destination range in `M`. -/
def writesM : Instr → List FIdx
  | .ensure fd => [fd]
  | .put fd _ _ => [fd]
  | .ext2 fd _ _ => [fd]
  | .bits fd _ _ => [fd]
  | .setbit fd _ => [fd]
  | .setu8 fd _ => [fd]
  | .setu16 fd _ => [fd]
  | .setu32 fd _ => [fd]
  | .setu64 fd _ => [fd]
  | .setbits fd _ _ => [fd]
  | .rotl fd _ _ => [fd]
  | .fand fd _ _ => [fd]
  | .fandn fd _ _ => [fd]
  | .forr fd _ _ => [fd]
  | .fxor fd _ _ => [fd]
  | .fnot fd _ => [fd]
  | .frotl fd _ _ => [fd]
  | .ffill fd _ => [fd]
  | .band fd _ _ => [fd]
  | .bandn fd _ _ => [fd]
  | .bor fd _ _ => [fd]
  | .bxor fd _ _ => [fd]
  | .bnot fd _ => [fd]
  | .norm .. | .need .. | .get .. | .bit .. | .uint8 .. | .uint16 .. | .uint32 .. | .uint64 .. | .lz .. | .tz ..
  | .ones .. | .rdbits .. | .fcount .. => []

/-- The values `STATUS` can hold after a command, read off R272's table: `0x00` `OK`, `0x01` `EOF`, `0x02` `GROW`,
`0x13` `BOUNDS`, `0x23` `LENGTH`, `0x33` `INVALID_ARG`, `0x53` `DESC`. -/
def mayEnd : Instr → List Word
  | .need .. | .lz .. | .tz .. | .ones .. => [0x00, 0x53]
  | .norm .. | .get .. | .put .. | .ext2 .. | .bit .. | .uint8 .. | .uint16 .. | .uint32 .. | .uint64 .. =>
    [0x00, 0x53, 0x13]
  | .fand .. | .fandn .. | .forr .. | .fxor .. | .fnot .. | .frotl .. => [0x00, 0x53, 0x13]
  | .fcount .. | .ffill .. => [0x00, 0x53, 0x13, 0x33]
  | .rdbits .. => [0x00, 0x53, 0x13, 0x01]
  | .bits .. | .setbits .. => [0x00, 0x53, 0x13, 0x02]
  | .ensure .. | .setbit .. | .setu8 .. | .setu16 .. | .setu32 .. | .setu64 .. | .rotl .. | .bnot .. =>
    [0x00, 0x53, 0x02]
  | .band .. | .bandn .. | .bor .. | .bxor .. => [0x00, 0x53, 0x23, 0x02]

/-- Bit `p` of the buffer of a field register (R10). -/
def bitAt (s : State) (i : FIdx) (p : Nat) : Bool := s.mem.bitRead s.f[i].base.toNat p

/-- From `s` to `t` no register changed but the scalar registers `xs` and the field registers `fs`, nor did any field of
the model's own, `STATUS` apart. -/
structure Frame (s t : State) (xs : List XIdx) (fs : List FIdx) : Prop where
  x : ∀ j, j ∉ xs → t.x[j] = s.x[j]
  f : ∀ j, j ∉ fs → t.f[j] = s.f[j]
  cmd : t.cmd = s.cmd
  needlen : t.needlen = s.needlen
  memBytes : t.memBytes = s.memBytes
  host : t.host = s.host
  portOut : t.portOut = s.portOut
  freeCount : t.freeCount = s.freeCount

/-- Every byte of `M` reads as before. -/
def KeepsMem (s t : State) : Prop := ∀ a, t.mem.read a = s.mem.read a

/-- Every bit of `M` outside the range (absolute bit addresses) reads as before, and so does every byte with no bit in
it (R57). -/
structure KeepsOutside (s t : State) (r : BitRange) : Prop where
  bits : ∀ b, ¬ r.Has b → t.mem.bitRead 0 b = s.mem.bitRead 0 b
  bytes : ∀ a, 8 * a + 8 ≤ r.lo ∨ r.hi ≤ 8 * a → t.mem.read a = s.mem.read a

/-- The field register has advanced by `n` bits from position `p` and is normalised (R102, R127 (e)): it starts later,
ends at the same bytes, and its absolute bit address has risen by `n`. -/
structure Advanced (before after : FieldReg) (n : Nat) : Prop where
  pos : after.pos.toNat < 8
  address : absBit after after.pos.toNat = absBit before before.pos.toNat + n
  contentEnd : after.base.toNat + after.len.toNat = before.base.toNat + before.len.toNat
  storageEnd : after.base.toNat + after.cap.toNat = before.base.toNat + before.cap.toNat
  width : after.width = before.width

/-- Growth of a destination to `need` bytes: `len` is the larger of the two, the other components are kept (R104). -/
structure Grown (before after : FieldReg) (need : Nat) : Prop where
  len : after.len.toNat = max before.len.toNat need
  base : after.base = before.base
  cap : after.cap = before.cap
  pos : after.pos = before.pos
  width : after.width = before.width

end Sys2Proof.Machine
end

