-- ==== Sys2Proof/Certificates/Slice0/Obligations.lean ====
section
/-! DEFINITION. The statements about the model. Each docstring names the rules of spec/ the statement comes from. -/

open Sys2Proof Sys2Proof.Machine

/-! ### The command word -/

/-- R71, R75: the decoder gives back every well-formed command from the word the encoder makes of it. -/
def Obligations.DecodeOfEncode : Prop :=
  ∀ i : Instr, WellFormed i → decode (encode i) = .ok i

/-- R79: "every 32-bit word either selects exactly one command or is illegal": a word that decodes is the word of the
command it decodes to, every bit of it, and that command is well formed. -/
def Obligations.EncodeOfDecode : Prop :=
  ∀ (w : CmdWord) (i : Instr), decode w = .ok i → encode i = w ∧ WellFormed i

/-- R75: "A word `w` selects the command when `w AND mask = match` and, for commands that use `n`, `n ≤ 64`", for the
36 rows of the table as the spec prints them. -/
def Obligations.DecodeFollowsMatchAndMask : Prop :=
  ∀ (w : CmdWord) (m : String),
    (∃ i, decode w = .ok i ∧ i.mnemonic = m) ↔ ∃ r ∈ opcodeTable, r.mnemonic = m ∧ r.selects w

/-- R77, R78: a word with a reserved bit 1 or with `bo = 1` is no command. -/
def Obligations.ReservedAndLittleEndianIllegal : Prop :=
  ∀ w : CmdWord, w.extractLsb' 0 3 ≠ 0 ∨ w.extractLsb' 3 1 = 1 → ∀ i, decode w ≠ .ok i

/-- R85 and the words of spec/95_test_vectors.md, a command of every family: decoding is right on them. -/
def Obligations.SpecWordsDecode : Prop :=
  decode 0x204100A0 = .ok (.get 2 1 5) ∧ decode 0x35100010 = .ok (.bits 0 1 .right) ∧
  decode 0x5711A000 = .ok (.fcount 3 1 2) ∧ decode 0x11218000 = .ok (.need 3 2) ∧
  decode 0x28180000 = .ok (.ext2 0 1 2) ∧ decode 0x40103000 = .ok (.rotl 0 1 3) ∧
  decode 0x48120000 = .ok (.lz 4 1) ∧ decode 0x61180000 = .ok (.bandn 0 1 2)

/-! ### The machine around the commands -/

/-- R32, R80: a host write to `CMD` outside the faulted state runs the command its low 32 bits decode to, with `CMD`
holding the word. Around `exec` the model's step takes the transaction off the host's list and answers no read
(log 4, log 5). -/
def Obligations.StepRunsDecodedCommand : Prop :=
  ∀ (s : State) (v : Word) (rest : List HostOp) (i : Instr),
    s.host = .write 0 v :: rest → ¬ s.Faulted → decode (v.extractLsb' 0 32) = .ok i →
    step s = exec i { s with cmd := v.extractLsb' 0 32, host := rest, portOut := none }

/-- R79, R252: an illegal word raises `Fault(ILLEGAL_CMD)` (`STATUS` 0x43): it "changes no register but `CMD` and
`STATUS`, and touches no memory". -/
def Obligations.IllegalWordFaults : Prop :=
  ∀ (s : State) (v : Word) (rest : List HostOp),
    s.host = .write 0 v :: rest → ¬ s.Faulted → (∀ i, decode (v.extractLsb' 0 32) ≠ .ok i) →
    step s = .next { s with cmd := v.extractLsb' 0 32, status := 0x43, host := rest, portOut := none }

/-- R33, R262: in the faulted state every host write is ignored, whatever register it names, a host read still works,
and "Only reset leaves this state". -/
def Obligations.FaultedStateIgnoresWrites : Prop :=
  ∀ s : State, s.Faulted →
    (∀ r v rest, s.host = .write r v :: rest → step s = .next { s with host := rest, portOut := none }) ∧
    (∀ r rest, s.host = .read r :: rest → step s = .next { s with host := rest, portOut := some (hostRead r s) }) ∧
    (∀ t, step s = .next t → ¬ t.Faulted → ∃ rest, s.host = .reset :: rest)

/-- R280: reset puts every register at 0 (whatever register number the host reads), `fault_o` at 0, and does not touch
`M`. -/
def Obligations.ResetClearsEveryRegister : Prop :=
  ∀ (s : State) (rest : List HostOp), s.host = .reset :: rest →
    ∃ t, step s = .next t ∧ (∀ r, hostRead r t = 0) ∧ t.faultO = false ∧ t.mem = s.mem ∧ t.memBytes = s.memBytes

/-- R28: the register numbers of the port. -/
def Obligations.PortNumbersNameRegisters : Prop :=
  portReg 0 = .cmd ∧ portReg 1 = .status ∧ portReg 2 = .needlen ∧
  (∀ i : XIdx, portReg (8 + i.val) = .x i) ∧
  (∀ i : FIdx, portReg (16 + 8 * i.val + 0) = .f i .base ∧ portReg (16 + 8 * i.val + 1) = .f i .len ∧
    portReg (16 + 8 * i.val + 2) = .f i .cap ∧ portReg (16 + 8 * i.val + 3) = .f i .pos ∧
    portReg (16 + 8 * i.val + 4) = .f i .width ∧
    ∀ k, 5 ≤ k → k ≤ 7 → portReg (16 + 8 * i.val + k) = .reserved) ∧
  (∀ r, 3 ≤ r → r ≤ 7 → portReg r = .reserved) ∧ (∀ r, 48 ≤ r → portReg r = .reserved)

/-- R31: `HostRead(r)` returns the value of the register `r` names, in every state, the faulted one too, and changes no
register and no byte of `M`. -/
def Obligations.HostReadReturnsRegister : Prop :=
  ∀ (s : State) (r : Nat) (rest : List HostOp), s.host = .read r :: rest →
    ∃ v, step s = .next { s with host := rest, portOut := some v } ∧
      v = match portReg r with
        | .cmd => s.cmd.zeroExtend 64
        | .status => s.status
        | .needlen => s.needlen
        | .x i => s.x[i]
        | .f i .base => s.f[i].base
        | .f i .len => s.f[i].len
        | .f i .cap => s.f[i].cap
        | .f i .pos => s.f[i].pos
        | .f i .width => s.f[i].width
        | .reserved => 0

/-- R30: in the faulted state a host write does nothing; outside it a host write to a writable register sets that
register and no other, and a write to a read-only or reserved number does nothing. -/
def Obligations.HostWriteSetsOneRegister : Prop :=
  ∀ (s : State) (r : Nat) (v : Word), r ≠ 0 →
    (s.Faulted → hostWrite r v s = .next s) ∧
    (¬ s.Faulted → ∃ t, hostWrite r v s = .next t ∧
      ((portReg r = .status ∨ portReg r = .needlen ∨ portReg r = .reserved) → t = s) ∧
      (¬ (portReg r = .status ∨ portReg r = .needlen ∨ portReg r = .reserved) → hostRead r t = v) ∧
      (∀ q, portReg q ≠ portReg r → hostRead q t = hostRead q s) ∧
      t.mem = s.mem ∧ t.memBytes = s.memBytes ∧ t.host = s.host ∧ t.portOut = s.portOut ∧ t.freeCount = s.freeCount)

/-- R37, R63, R271: the host's own path to `M` between commands reaches exactly the bytes below `MEM_BYTES`, and stops at
any other address; a step with no transaction pending changes nothing. The form of that path, and the stop, are the
model's (log 6, log 7). -/
def Obligations.HostPathReachesBytesOfMemory : Prop :=
  ∀ (s : State) (a : Nat) (v : Byte) (rest : List HostOp),
    (a < s.memBytes.val →
      (s.host = .memRead a :: rest →
        step s = .next { s with host := rest, portOut := some ((s.mem.read a).zeroExtend 64) }) ∧
      (s.host = .memWrite a v :: rest → ∃ m, step s = .next { s with mem := m, host := rest, portOut := none } ∧
        ∀ b, m.read b = if b = a then v else s.mem.read b)) ∧
    (s.memBytes.val ≤ a → s.host = .memRead a :: rest ∨ s.host = .memWrite a v :: rest →
      step s = .fault (.noSuchByte a)) ∧
    (s.host = [] → step s = .next s)

/-! ### Invariants and rules over all commands -/

/-- R34, R37, R253: every step keeps `M` canonical and inside `MEM_BYTES`, the reserved bits of `STATUS` 0, and a cause
in it exactly when its outcome is `FAULT`. -/
def Obligations.StepKeepsInvariant : Prop :=
  ∀ s t : State, s.Inv → step s = .next t → t.Inv

/-- R42: the machine after reset has the invariant, for every size of `M` and every canonical content of it, and reads
0 at every register number. -/
def Obligations.PowerOnHasInvariant : Prop :=
  ∀ (size : MemSize) (m : Memory), m.wf → m.within size.val →
    (State.powerOn size m).Inv ∧ (∀ r, hostRead r (State.powerOn size m) = 0) ∧
    (State.powerOn size m).faultO = false ∧ (State.powerOn size m).mem = m

/-- R250, R273: every command, in every state, ends in a next state, never in a stop, and `STATUS` then records a legal
outcome. -/
def Obligations.EveryCommandEndsWithAnOutcome : Prop :=
  ∀ (i : Instr) (s : State), ∃ t, exec i s = .next t ∧ StatusLegal t.status

/-- R62, R259: a command that ends `EOF`, `GROW` or `FAULT` has changed no `X` or `F` register and no byte of `M`; only
`GROW` writes `NEEDLEN` (R35). -/
def Obligations.CheckBeforeMutate : Prop :=
  ∀ (i : Instr) (s t : State), exec i s = .next t → t.statusCode ≠ 0 →
    t.x = s.x ∧ t.f = s.f ∧ t.mem = s.mem ∧ t.cmd = s.cmd ∧ (t.statusCode ≠ 2 → t.needlen = s.needlen) ∧
    t.memBytes = s.memBytes ∧ t.host = s.host ∧ t.portOut = s.portOut ∧ t.freeCount = s.freeCount

/-- R50, R57: a command writes `M` through the storage `[base, base + cap)` of its destination register only, and a
command with no destination range writes nothing. -/
def Obligations.WritesStayInDestinationStorage : Prop :=
  ∀ (i : Instr) (s t : State) (a : Nat), exec i s = .next t →
    (∀ fd ∈ writesM i, ¬ (s.f[fd].base.toNat ≤ a ∧ a < s.f[fd].base.toNat + s.f[fd].cap.toNat)) →
    t.mem.read a = s.mem.read a

/-- R72, R105, R150, R200, R205: a command writes its `xd` and no other scalar register, and of the field registers it
changes only the components its rule names of its `fd`; it writes neither `CMD` nor the host's side. -/
def Obligations.RegistersKeptByEveryCommand : Prop :=
  ∀ (i : Instr) (s t : State), exec i s = .next t →
    (∀ j, j ∉ writesX i → t.x[j] = s.x[j]) ∧
    (∀ (j : FIdx) (c : Component), (∀ p ∈ writesF i, p.1 = j → c ∉ p.2) → t.f[j].get c = s.f[j].get c) ∧
    t.cmd = s.cmd ∧ t.memBytes = s.memBytes ∧ t.host = s.host ∧ t.portOut = s.portOut

/-- R272: which command can end how; a term of `Instr` that is well formed never ends `ILLEGAL_CMD`. -/
def Obligations.OutcomesFollowTable : Prop :=
  ∀ (i : Instr) (s t : State), WellFormed i → exec i s = .next t → t.status ∈ mayEnd i

/-- R253, R258: a command that names an ill-formed field register ends `FAULT` with cause `DESC` (`STATUS` 0x53),
whatever its own checks would say, and changes nothing else; field registers it does not name may hold anything: if
those it names are well formed it never ends so. -/
def Obligations.DescriptorFaultComesFirst : Prop :=
  ∀ (i : Instr) (s : State), WellFormed i →
    ((∃ j ∈ named i, ¬ DescOK s.memBytes s.f[j]) → exec i s = .next { s with status := 0x53 }) ∧
    ((∀ j ∈ named i, DescOK s.memBytes s.f[j]) → ∀ t, exec i s = .next t → t.status ≠ 0x53)

/-- R56, R283, R292: no check, register or `STATUS` update depends on a byte outside the content of the field registers
a command names, and every byte of `M` that two states share before the command they share after it. -/
def Obligations.ResultsDependOnBufferContentOnly : Prop :=
  ∀ (i : Instr) (s t : State) (m : Memory),
    (∀ j ∈ named i, ∀ a, s.f[j].base.toNat ≤ a → a < s.f[j].base.toNat + s.f[j].len.toNat → m.read a = s.mem.read a) →
    exec i s = .next t →
    ∃ u, exec i (s.setMem m) = .next u ∧ u.x = t.x ∧ u.f = t.f ∧ u.cmd = t.cmd ∧ u.status = t.status ∧
      u.needlen = t.needlen ∧ u.freeCount = t.freeCount ∧
      ∀ a, m.read a = s.mem.read a → u.mem.read a = t.mem.read a

/-- R292, for every command that moves data: a command that ends `OK` without being hazard free still does everything
else its rule gives. Every bit of `M` outside `Dst` reads as before and the bits of `Dst` take the free values of the
model (log 3); no scalar register changes, and of the field registers only its `fd`, which grows, or for `ROTL` takes
the source's length, as in a hazard-free run. -/
def Obligations.HazardLeavesOnlyDestinationOpen : Prop :=
  ∀ (i : Instr) (s t : State) (v : Movement), exec i s = .next t → t.status = 0 → movement i s = some v → ¬ v.Free →
    (∀ b, ¬ v.InDst b → t.mem.bitRead 0 b = s.mem.bitRead 0 b) ∧
    (∀ b, v.InDst b → t.mem.bitRead 0 b = Config.freeBit s.freeCount b) ∧
    t.x = s.x ∧ t.needlen = s.needlen ∧ t.freeCount = s.freeCount + 1 ∧
    (∀ j, (∀ p ∈ writesF i, p.1 ≠ j) → t.f[j] = s.f[j]) ∧
    (∀ p ∈ writesF i, ∀ need, 8 * (s.f[p.1].base.toNat + need) = v.grown.hi →
      match i with
      | .rotl .. => t.f[p.1] = { s.f[p.1] with len := BitVec.ofNat 64 need }
      | _ => Grown s.f[p.1] t.f[p.1] need)

/-! ### Faults and requests of the commands -/

/-- R254: a command that reads, or writes without growing, bits that are not inside their buffer faults with `BOUNDS`
(`STATUS` 0x13) and changes nothing else: one range of one buffer; the concatenation of `EXT2` (R141); the fields of a
whole-field command, a source narrower than the destination among them (R205). For `RDBITS` the count is within the
width (R201), for `FCOUNT` and `FFILL` the bit value is 0 or 1 (R214, R215). -/
def Obligations.OutOfBoundsFaults : Prop :=
  ∀ (s : State) (fd fa fb : FIdx) (xd xs : XIdx) (n : BitVec 7), n.toNat ≤ 64 →
    DescOK s.memBytes s.f[fd] → DescOK s.memBytes s.f[fa] → DescOK s.memBytes s.f[fb] →
    (∀ iw ∈ [(Instr.norm fa, 0), (.get xd fa n, n.toNat), (.put fa xs n, n.toNat), (.bit xd fa, 1), (.uint8 xd fa, 8),
             (.uint16 xd fa, 16), (.uint32 xd fa, 32), (.uint64 xd fa, 64)],
      ¬ InBuf s.f[fa] s.f[fa].pos.toNat iw.2 → exec iw.1 s = .next { s with status := 0x13 }) ∧
    (n.toNat ≤ s.f[fa].width.toNat → ¬ InBuf s.f[fa] s.f[fa].pos.toNat n.toNat →
      exec (.rdbits xd fa n) s = .next { s with status := 0x13 }) ∧
    (s.x[xs].toNat ≤ 1 → ¬ InBuf s.f[fa] s.f[fa].pos.toNat s.f[fa].width.toNat →
      exec (.fcount xd fa xs) s = .next { s with status := 0x13 } ∧
      exec (.ffill fa xs) s = .next { s with status := 0x13 }) ∧
    (8 * (s.f[fa].len.toNat + s.f[fb].len.toNat) < s.f[fa].pos.toNat + 8 * s.f[fd].len.toNat →
      exec (.ext2 fd fa fb) s = .next { s with status := 0x13 }) ∧
    (∀ i ∈ [Instr.fnot fd fa, .frotl fd fa xs, .fand fd fa fb, .fandn fd fa fb, .forr fd fa fb, .fxor fd fa fb],
      s.f[fa].width.toNat < s.f[fd].width.toNat ∨ ¬ InBuf s.f[fd] s.f[fd].pos.toNat s.f[fd].width.toNat ∨
        ¬ InBuf s.f[fa] s.f[fa].pos.toNat s.f[fd].width.toNat →
      exec i s = .next { s with status := 0x13 }) ∧
    (∀ i ∈ [Instr.fand fd fa fb, .fandn fd fa fb, .forr fd fa fb, .fxor fd fa fb],
      s.f[fb].width.toNat < s.f[fd].width.toNat ∨ ¬ InBuf s.f[fb] s.f[fb].pos.toNat s.f[fd].width.toNat →
      exec i s = .next { s with status := 0x13 })

/-- R103, R256: `ENSURE`, the fixed-width writes, `ROTL` and `BNOT` end `GROW` (`STATUS` 0x02) when the length needed
exceeds the capacity, with that length in `NEEDLEN`, and change nothing else. -/
def Obligations.TooSmallCapacityRequestsGrowth : Prop :=
  ∀ (s : State) (fd fa : FIdx) (xs : XIdx), DescOK s.memBytes s.f[fd] → DescOK s.memBytes s.f[fa] →
    ∀ iw ∈ [(Instr.ensure fd, needLen s.f[fd].pos.toNat s.f[fd].width.toNat),
            (.setbit fd xs, needLen s.f[fd].pos.toNat 1), (.setu8 fd xs, needLen s.f[fd].pos.toNat 8),
            (.setu16 fd xs, needLen s.f[fd].pos.toNat 16), (.setu32 fd xs, needLen s.f[fd].pos.toNat 32),
            (.setu64 fd xs, needLen s.f[fd].pos.toNat 64), (.rotl fd fa xs, s.f[fa].len.toNat),
            (.bnot fd fa, s.f[fa].len.toNat)],
      s.f[fd].cap.toNat < iw.2 → exec iw.1 s = .next { s with status := 0x02, needlen := BitVec.ofNat 64 iw.2 }

/-- R165, R157, R258: `BITS` and `SETBITS` fault on their source side before they ask for growth on their destination
side. -/
def Obligations.SourceFaultBeforeGrowth : Prop :=
  ∀ (s : State) (fd fa : FIdx) (al : Align), DescOK s.memBytes s.f[fd] → DescOK s.memBytes s.f[fa] →
    (¬ InBuf s.f[fa] s.f[fa].pos.toNat s.f[fa].width.toNat →
      exec (.bits fd fa al) s = .next { s with status := 0x13 }) ∧
    (InBuf s.f[fa] s.f[fa].pos.toNat s.f[fa].width.toNat → 0 < s.f[fa].width.toNat →
      s.f[fd].cap.toNat < (s.f[fa].width.toNat + 7) / 8 →
      exec (.bits fd fa al) s =
        .next { s with status := 0x02, needlen := BitVec.ofNat 64 ((s.f[fa].width.toNat + 7) / 8) }) ∧
    (s.f[fa].len.toNat < (s.f[fd].width.toNat + 7) / 8 →
      exec (.setbits fd fa al) s = .next { s with status := 0x13 }) ∧
    ((s.f[fd].width.toNat + 7) / 8 ≤ s.f[fa].len.toNat →
      s.f[fd].cap.toNat < needLen s.f[fd].pos.toNat s.f[fd].width.toNat →
      exec (.setbits fd fa al) s = .next
        { s with status := 0x02, needlen := BitVec.ofNat 64 (needLen s.f[fd].pos.toNat s.f[fd].width.toNat) })

/-- R263, R258: a dyadic whole-buffer command whose sources differ in length ends `FAULT` with cause `LENGTH`
(`STATUS` 0x23), before growth is planned; with equal lengths above the destination's capacity it ends `GROW` (R256).
Neither changes anything else. -/
def Obligations.MismatchedLengthsFault : Prop :=
  ∀ (s : State) (fd fa fb : FIdx), DescOK s.memBytes s.f[fd] → DescOK s.memBytes s.f[fa] → DescOK s.memBytes s.f[fb] →
    ∀ i ∈ [Instr.band fd fa fb, .bandn fd fa fb, .bor fd fa fb, .bxor fd fa fb],
      (s.f[fa].len ≠ s.f[fb].len → exec i s = .next { s with status := 0x23 }) ∧
      (s.f[fa].len = s.f[fb].len → s.f[fd].cap.toNat < s.f[fa].len.toNat →
        exec i s = .next { s with status := 0x02, needlen := s.f[fa].len })

/-- R201, R255: `RDBITS` past the remaining width ends `EOF` (`STATUS` 0x01), wherever the position is. R264: `FCOUNT`
and `FFILL` end `FAULT` with cause `INVALID_ARG` (`STATUS` 0x33) when `X[xs] > 1`, "comparing all 64 bits, before the
bounds check". Neither changes anything else. -/
def Obligations.ArgumentTestedBeforeBounds : Prop :=
  ∀ (s : State) (xd : XIdx) (f : FIdx) (xs : XIdx) (n : BitVec 7), n.toNat ≤ 64 → DescOK s.memBytes s.f[f] →
    (s.f[f].width.toNat < n.toNat → exec (.rdbits xd f n) s = .next { s with status := 0x01 }) ∧
    (1 < s.x[xs].toNat → exec (.fcount xd f xs) s = .next { s with status := 0x33 } ∧
      exec (.ffill f xs) s = .next { s with status := 0x33 })

/-! ### Position arithmetic -/

/-- R102, R106: `NORM` keeps the absolute bit address and every bound, and leaves `pos` below 8. -/
def Obligations.NormKeepsAddressAndBounds : Prop :=
  ∀ (s : State) (fd : FIdx), DescOK s.memBytes s.f[fd] → InBuf s.f[fd] s.f[fd].pos.toNat 0 →
    ∃ t, exec (.norm fd) s = .next t ∧ t.status = 0 ∧ Advanced s.f[fd] t.f[fd] 0 ∧
      (∀ w, InBuf t.f[fd] t.f[fd].pos.toNat w ↔ InBuf s.f[fd] s.f[fd].pos.toNat w) ∧
      Frame s t [] [fd] ∧ KeepsMem s t

/-- R106: "`NORM` applied twice equals `NORM` applied once". -/
def Obligations.NormTwiceIsNormOnce : Prop :=
  ∀ (s t : State) (fd : FIdx), exec (.norm fd) s = .next t → exec (.norm fd) t = .next t

/-- R107: `NEED` writes `ceil((pos + width) / 8)`, the sum formed exactly. -/
def Obligations.NeedGivesByteLength : Prop :=
  ∀ (s : State) (xd : XIdx) (fa : FIdx), DescOK s.memBytes s.f[fa] →
    ∃ t, exec (.need xd fa) s = .next t ∧ t.status = 0 ∧
      t.x[xd].toNat = (s.f[fa].pos.toNat + s.f[fa].width.toNat + 7) / 8 ∧ Frame s t [xd] [] ∧ KeepsMem s t

/-- R104, R108: `ENSURE` raises `len` to the length the field needs, the bytes it brings in read 0, no other byte
changes. -/
def Obligations.EnsureGrowsWithZeros : Prop :=
  ∀ (s : State) (fd : FIdx) (need : Nat), need = (s.f[fd].pos.toNat + s.f[fd].width.toNat + 7) / 8 →
    DescOK s.memBytes s.f[fd] → need ≤ s.f[fd].cap.toNat →
    ∃ t, exec (.ensure fd) s = .next t ∧ t.status = 0 ∧ Grown s.f[fd] t.f[fd] need ∧
      (∀ a, t.mem.read a =
        if s.f[fd].base.toNat + s.f[fd].len.toNat ≤ a ∧ a < s.f[fd].base.toNat + need then 0 else s.mem.read a) ∧
      Frame s t [] [fd]

/-! ### Get and put -/

/-- R121: `GET` returns the next `n` bits, the first the most significant, and advances by `n`. -/
def Obligations.GetReadsNextBits : Prop :=
  ∀ (s : State) (xd : XIdx) (fd : FIdx) (n : BitVec 7), n.toNat ≤ 64 → DescOK s.memBytes s.f[fd] →
    InBuf s.f[fd] s.f[fd].pos.toNat n.toNat →
    ∃ t, exec (.get xd fd n) s = .next t ∧ t.status = 0 ∧
      (∀ k < n.toNat, t.x[xd].getLsbD (n.toNat - 1 - k) = bitAt s fd (s.f[fd].pos.toNat + k)) ∧
      (∀ k, n.toNat ≤ k → t.x[xd].getLsbD k = false) ∧
      Advanced s.f[fd] t.f[fd] n.toNat ∧ Frame s t [xd] [fd] ∧ KeepsMem s t

/-- R124, R126: `GET` and `PUT` as shift and mask over the 0 to 9 bytes that hold the field: with `s = p mod 8`,
`b = base + p div 8`, `k = ceil8(s + n)`, `sh = 8k − s − n`, `A = MemRead(b, k)`, a `GET` gives `(A div 2^sh) mod 2^n`
and a `PUT` makes the bytes `A − ((A div 2^sh) mod 2^n) * 2^sh + v * 2^sh`. -/
def Obligations.GetAndPutAreShiftAndMask : Prop :=
  ∀ (s : State) (xd xs : XIdx) (fd : FIdx) (n : BitVec 7) (b k sh : Nat), n.toNat ≤ 64 → DescOK s.memBytes s.f[fd] →
    InBuf s.f[fd] s.f[fd].pos.toNat n.toNat →
    b = s.f[fd].base.toNat + s.f[fd].pos.toNat / 8 → k = (s.f[fd].pos.toNat % 8 + n.toNat + 7) / 8 →
    sh = 8 * k - s.f[fd].pos.toNat % 8 - n.toNat →
    (∃ t, exec (.get xd fd n) s = .next t ∧ t.x[xd].toNat = s.mem.readNat b k / 2 ^ sh % 2 ^ n.toNat) ∧
    (∃ t, exec (.put fd xs n) s = .next t ∧
      t.mem.readNat b k = s.mem.readNat b k - (s.mem.readNat b k / 2 ^ sh % 2 ^ n.toNat) * 2 ^ sh +
        (s.x[xs].toNat % 2 ^ n.toNat) * 2 ^ sh)

/-- R125: `PUT` writes the low `n` bits of `X[xs]`, the most significant first, disturbs no other bit, and advances by
`n`. -/
def Obligations.PutWritesNextBits : Prop :=
  ∀ (s : State) (fd : FIdx) (xs : XIdx) (n : BitVec 7), n.toNat ≤ 64 → DescOK s.memBytes s.f[fd] →
    InBuf s.f[fd] s.f[fd].pos.toNat n.toNat →
    ∃ t, exec (.put fd xs n) s = .next t ∧ t.status = 0 ∧
      (∀ k < n.toNat, t.mem.bitRead s.f[fd].base.toNat (s.f[fd].pos.toNat + k) =
        s.x[xs].getLsbD (n.toNat - 1 - k)) ∧
      KeepsOutside s t (rangeOf s.f[fd] s.f[fd].pos.toNat n.toNat) ∧
      Advanced s.f[fd] t.f[fd] n.toNat ∧ Frame s t [] [fd]

/-- R127 (a), (b): a `GET` at the position of a `PUT` returns the value put, and a `PUT` of the value a `GET` returned
leaves `M` unchanged. -/
def Obligations.PutAndGetAreInverse : Prop :=
  ∀ (s : State) (xd : XIdx) (fd : FIdx) (xs : XIdx) (n : BitVec 7), n.toNat ≤ 64 → DescOK s.memBytes s.f[fd] →
    InBuf s.f[fd] s.f[fd].pos.toNat n.toNat →
    (∃ t u, exec (.put fd xs n) s = .next t ∧ exec (.get xd fd n) (t.setF fd s.f[fd]) = .next u ∧
      u.x[xd].toNat = s.x[xs].toNat % 2 ^ n.toNat) ∧
    (∃ t u, exec (.get xd fd n) s = .next t ∧ exec (.put fd xd n) (t.setF fd s.f[fd]) = .next u ∧ KeepsMem s u)

/-- R127 (d): a `GET` of `n1` bits and then one of `n2` bits return the two parts of what one `GET` of `n1 + n2` bits
returns, and leave the same register. -/
def Obligations.GetSplits : Prop :=
  ∀ (s : State) (x1 x2 x3 : XIdx) (fd : FIdx) (n1 n2 n3 : BitVec 7), n3.toNat = n1.toNat + n2.toNat → n3.toNat ≤ 64 →
    DescOK s.memBytes s.f[fd] → InBuf s.f[fd] s.f[fd].pos.toNat n3.toNat →
    ∃ t u w, exec (.get x1 fd n1) s = .next t ∧ exec (.get x2 fd n2) t = .next u ∧ exec (.get x3 fd n3) s = .next w ∧
      w.x[x3].toNat = t.x[x1].toNat * 2 ^ n2.toNat + u.x[x2].toNat ∧ w.f = u.f

/-! ### Concatenated extraction -/

/-- R141, R142: byte `j` of the destination is put together from byte `q + j` of the concatenation and, at a sub-byte
offset, the next one. -/
def Obligations.ExtractAssemblesBytes : Prop :=
  ∀ (s : State) (fd fa fb : FIdx), DescOK s.memBytes s.f[fd] → DescOK s.memBytes s.f[fa] → DescOK s.memBytes s.f[fb] →
    s.f[fa].pos.toNat + 8 * s.f[fd].len.toNat ≤ 8 * (s.f[fa].len.toNat + s.f[fb].len.toNat) →
    HazardFree (.ext2 fd fa fb) s →
    ∀ c : Nat → Byte, (∀ i < s.f[fa].len.toNat, c i = s.mem.read (s.f[fa].base.toNat + i)) →
      (∀ i < s.f[fb].len.toNat, c (s.f[fa].len.toNat + i) = s.mem.read (s.f[fb].base.toNat + i)) →
    ∃ t, exec (.ext2 fd fa fb) s = .next t ∧ t.status = 0 ∧
      (∀ j < s.f[fd].len.toNat, t.mem.read (s.f[fd].base.toNat + j) =
        if s.f[fa].pos.toNat % 8 = 0 then c (s.f[fa].pos.toNat / 8 + j)
        else c (s.f[fa].pos.toNat / 8 + j) <<< (s.f[fa].pos.toNat % 8) |||
          c (s.f[fa].pos.toNat / 8 + j + 1) >>> (8 - s.f[fa].pos.toNat % 8)) ∧
      KeepsOutside s t (rangeOf s.f[fd] 0 (8 * s.f[fd].len.toNat)) ∧ Frame s t [] []

/-! ### Field access -/

/-- R152 to R156: `BIT`, `UINT8`, `UINT16`, `UINT32`, `UINT64` return the 1, 8, 16, 32 or 64 bits at `pos` as an
unsigned integer, the first bit the most significant, and change nothing else. -/
def Obligations.UintReadsFixedWidth : Prop :=
  ∀ (s : State) (xd : XIdx) (fa : FIdx), DescOK s.memBytes s.f[fa] →
    ∀ iw ∈ [(Instr.bit xd fa, 1), (.uint8 xd fa, 8), (.uint16 xd fa, 16), (.uint32 xd fa, 32), (.uint64 xd fa, 64)],
      InBuf s.f[fa] s.f[fa].pos.toNat iw.2 →
      ∃ t, exec iw.1 s = .next t ∧ t.status = 0 ∧
        (∀ k < iw.2, t.x[xd].getLsbD (iw.2 - 1 - k) = bitAt s fa (s.f[fa].pos.toNat + k)) ∧
        (∀ k, iw.2 ≤ k → t.x[xd].getLsbD k = false) ∧ Frame s t [xd] [] ∧ KeepsMem s t

/-- R10, R152: "`Bit(B, o) == (Uint8(B, o & ~7) >> (7 - o%8)) & 1` for big-endian order". -/
def Obligations.BitAgreesWithByte : Prop :=
  ∀ (s : State) (xd : XIdx) (fa : FIdx) (o : Nat), o = s.f[fa].pos.toNat → DescOK s.memBytes s.f[fa] →
    InBuf s.f[fa] o 1 →
    ∃ t u, exec (.bit xd fa) s = .next t ∧
      exec (.uint8 xd fa) (s.setF fa { s.f[fa] with pos := BitVec.ofNat 64 (o - o % 8) }) = .next u ∧
      t.x[xd] = (u.x[xd] >>> (7 - o % 8)) &&& 1

/-- R151, R157: `BITS` writes the representation of a field of width `w`: `ceil8(w)` bytes, the field first and then
zeros (Left), or zeros first and then the field (Right); the destination grows to fit, and nothing else changes. A field
of width 0 has no byte: nothing at all changes. -/
def Obligations.BitsWritesRepresentation : Prop :=
  ∀ (s : State) (fd fa : FIdx) (al : Align) (w n : Nat), w = s.f[fa].width.toNat → n = (w + 7) / 8 →
    DescOK s.memBytes s.f[fd] → DescOK s.memBytes s.f[fa] → InBuf s.f[fa] s.f[fa].pos.toNat w →
    n ≤ s.f[fd].cap.toNat → HazardFree (.bits fd fa al) s →
    ∃ t, exec (.bits fd fa al) s = .next t ∧ t.status = 0 ∧
      (∀ k < 8 * n, t.mem.bitRead s.f[fd].base.toNat k =
        match al with
        | .left => if k < w then bitAt s fa (s.f[fa].pos.toNat + k) else false
        | .right => if k < 8 * n - w then false else bitAt s fa (s.f[fa].pos.toNat + (k - (8 * n - w)))) ∧
      Grown s.f[fd] t.f[fd] n ∧ KeepsOutside s t (rangeOf s.f[fd] 0 (8 * n)) ∧ Frame s t [] [fd]

/-- R160 to R164, R158: `SETBIT`, `SETU8`, `SETU16`, `SETU32`, `SETU64` write the low 1, 8, 16, 32 or 64 bits of `X[xs]`
at `pos`, growing the destination to fit; a bit of a grown byte outside the field is 0; every other bit is kept and
`pos` is not advanced. -/
def Obligations.SetUintWritesFixedWidth : Prop :=
  ∀ (s : State) (fd : FIdx) (xs : XIdx) (o : Nat), o = s.f[fd].pos.toNat → DescOK s.memBytes s.f[fd] →
    ∀ iw ∈ [(Instr.setbit fd xs, 1), (.setu8 fd xs, 8), (.setu16 fd xs, 16), (.setu32 fd xs, 32), (.setu64 fd xs, 64)],
      needLen o iw.2 ≤ s.f[fd].cap.toNat →
      ∃ t, exec iw.1 s = .next t ∧ t.status = 0 ∧
        (∀ b, t.mem.bitRead 0 b =
          if (rangeOf s.f[fd] o iw.2).Has b then s.x[xs].getLsbD (iw.2 - 1 - (b - absBit s.f[fd] o))
          else if (grownRange s.f[fd] (needLen o iw.2)).Has b then false else s.mem.bitRead 0 b) ∧
        (∀ a, 8 * a + 8 ≤ absBit s.f[fd] o ∨ absBit s.f[fd] o + iw.2 ≤ 8 * a →
          t.mem.read a = if s.f[fd].base.toNat + s.f[fd].len.toNat ≤ a ∧
            a < s.f[fd].base.toNat + needLen o iw.2 then 0 else s.mem.read a) ∧
        Grown s.f[fd] t.f[fd] (needLen o iw.2) ∧ Frame s t [] [fd]

/-- R165: `SETBITS` writes the field its source's representation holds, first bits (Left) or last bits (Right); the
destination grows to fit; a bit of a grown byte outside the field is 0; every other bit is kept. -/
def Obligations.SetBitsWritesField : Prop :=
  ∀ (s : State) (fd fa : FIdx) (al : Align) (o w n : Nat), o = s.f[fd].pos.toNat → w = s.f[fd].width.toNat →
    n = (w + 7) / 8 → DescOK s.memBytes s.f[fd] → DescOK s.memBytes s.f[fa] → n ≤ s.f[fa].len.toNat →
    needLen o w ≤ s.f[fd].cap.toNat → HazardFree (.setbits fd fa al) s →
    ∃ t, exec (.setbits fd fa al) s = .next t ∧ t.status = 0 ∧
      (∀ b, t.mem.bitRead 0 b =
        if (rangeOf s.f[fd] o w).Has b then
          match al with
          | .left => bitAt s fa (b - absBit s.f[fd] o)
          | .right => bitAt s fa (8 * n - w + (b - absBit s.f[fd] o))
        else if (grownRange s.f[fd] (needLen o w)).Has b then false else s.mem.bitRead 0 b) ∧
      (∀ a, 8 * a + 8 ≤ absBit s.f[fd] o ∨ absBit s.f[fd] o + w ≤ 8 * a →
        t.mem.read a = if s.f[fd].base.toNat + s.f[fd].len.toNat ≤ a ∧ a < s.f[fd].base.toNat + needLen o w then 0
          else s.mem.read a) ∧
      Grown s.f[fd] t.f[fd] (needLen o w) ∧ Frame s t [] [fd]

/-- R167 (a), the source's round trip: `BITS` of a field of `F[f1]`, then `SETBITS` of what it made into the same field
of `F[f2]`, a buffer that agrees with the first outside that field, makes the second buffer equal to the first. -/
def Obligations.ExtractThenReinsertIsIdentity : Prop :=
  ∀ (s : State) (f0 f1 f2 : FIdx) (al : Align), f0 ≠ f1 → f0 ≠ f2 →
    DescOK s.memBytes s.f[f0] → DescOK s.memBytes s.f[f1] → DescOK s.memBytes s.f[f2] →
    0 < s.f[f1].width.toNat → InBuf s.f[f1] s.f[f1].pos.toNat s.f[f1].width.toNat →
    (s.f[f1].width.toNat + 7) / 8 ≤ s.f[f0].cap.toNat →
    s.f[f2].len = s.f[f1].len → s.f[f2].pos = s.f[f1].pos → s.f[f2].width = s.f[f1].width →
    (s.f[f0].base.toNat + (s.f[f1].width.toNat + 7) / 8 ≤ s.f[f2].base.toNat ∨
      s.f[f2].base.toNat + s.f[f2].len.toNat ≤ s.f[f0].base.toNat) →
    (∀ k < 8 * s.f[f1].len.toNat, ¬ (s.f[f1].pos.toNat ≤ k ∧ k < s.f[f1].pos.toNat + s.f[f1].width.toNat) →
      bitAt s f2 k = bitAt s f1 k) →
    HazardFree (.bits f0 f1 al) s →
    ∃ t u, exec (.bits f0 f1 al) s = .next t ∧ exec (.setbits f2 f0 al) t = .next u ∧ u.status = 0 ∧
      ∀ j < s.f[f1].len.toNat, u.mem.read (s.f[f2].base.toNat + j) = s.mem.read (s.f[f1].base.toNat + j)

/-! ### Rotation -/

/-- R182, R185: `ROTL` in the byte form of the rotation multiplexer, `r` being the amount reduced modulo the bit length;
in place too where R183 permits it. The rotation of an empty buffer makes the destination empty and touches no byte. -/
def Obligations.RotateSelectsBytes : Prop :=
  ∀ (s : State) (fd fa : FIdx) (xs : XIdx) (n r : Nat), n = s.f[fa].len.toNat →
    (0 < n → r < 8 * n ∧ ((8 * n : Nat) : Int) ∣ s.x[xs].toInt - r) →
    DescOK s.memBytes s.f[fd] → DescOK s.memBytes s.f[fa] → n ≤ s.f[fd].cap.toNat → HazardFree (.rotl fd fa xs) s →
    ∃ t, exec (.rotl fd fa xs) s = .next t ∧ t.status = 0 ∧
      (∀ j < n, t.mem.read (s.f[fd].base.toNat + j) =
        if r % 8 = 0 then s.mem.read (s.f[fa].base.toNat + (j + r / 8) % n)
        else s.mem.read (s.f[fa].base.toNat + (j + r / 8) % n) <<< (r % 8) |||
          s.mem.read (s.f[fa].base.toNat + (j + r / 8 + 1) % n) >>> (8 - r % 8)) ∧
      t.f[fd] = { s.f[fd] with len := s.f[fa].len } ∧
      KeepsOutside s t (rangeOf s.f[fd] 0 (8 * n)) ∧ Frame s t [] [fd]

/-- R186: rotation is a group action: a rotation by `n1` and then one of its result by `n2` give the bytes of one
rotation by `n1 + n2`. -/
def Obligations.RotationsCompose : Prop :=
  ∀ (s t u v : State) (fa fb fc fd : FIdx) (x1 x2 x3 : XIdx), fa ≠ fb → fb ≠ fc →
    s.x[x3].toInt = s.x[x1].toInt + s.x[x2].toInt →
    exec (.rotl fb fa x1) s = .next t → t.status = 0 → HazardFree (.rotl fb fa x1) s →
    exec (.rotl fc fb x2) t = .next u → u.status = 0 → HazardFree (.rotl fc fb x2) t →
    exec (.rotl fd fa x3) s = .next v → v.status = 0 → HazardFree (.rotl fd fa x3) s →
    ∀ j < s.f[fa].len.toNat, u.mem.read (s.f[fc].base.toNat + j) = v.mem.read (s.f[fd].base.toNat + j)

/-! ### Counts -/

/-- R191, R192: `LZ` counts the zeros before the first 1 bit and `TZ` those after the last, each all the bits of the
buffer if there is none. -/
def Obligations.ZeroRunsCounted : Prop :=
  ∀ (s : State) (xd : XIdx) (fa : FIdx) (T : Nat), T = 8 * s.f[fa].len.toNat → DescOK s.memBytes s.f[fa] →
    (∃ t, exec (.lz xd fa) s = .next t ∧ t.status = 0 ∧ t.x[xd].toNat ≤ T ∧
      (∀ p < t.x[xd].toNat, bitAt s fa p = false) ∧ (t.x[xd].toNat < T → bitAt s fa t.x[xd].toNat = true) ∧
      Frame s t [xd] [] ∧ KeepsMem s t) ∧
    (∃ t, exec (.tz xd fa) s = .next t ∧ t.status = 0 ∧ t.x[xd].toNat ≤ T ∧
      (∀ p < T, T ≤ p + t.x[xd].toNat → bitAt s fa p = false) ∧
      (t.x[xd].toNat < T → bitAt s fa (T - 1 - t.x[xd].toNat) = true) ∧
      Frame s t [xd] [] ∧ KeepsMem s t)

/-- R193: `ONES` counts the 1 bits of the whole buffer. -/
def Obligations.OnesCounted : Prop :=
  ∀ (s : State) (xd : XIdx) (fa : FIdx), DescOK s.memBytes s.f[fa] →
    ∃ t, exec (.ones xd fa) s = .next t ∧ t.status = 0 ∧
      t.x[xd].toNat = (List.range (8 * s.f[fa].len.toNat)).countP (fun p => bitAt s fa p) ∧
      Frame s t [xd] [] ∧ KeepsMem s t

/-- R194: of a buffer that is not all zero, `LZ + TZ ≤ T − 1`, with equality exactly when `ONES = 1`. -/
def Obligations.ZeroRunsBoundedByOnes : Prop :=
  ∀ (s t u v : State) (xd : XIdx) (fa : FIdx) (T : Nat), T = 8 * s.f[fa].len.toNat → DescOK s.memBytes s.f[fa] →
    (∃ p < T, bitAt s fa p = true) →
    exec (.lz xd fa) s = .next t → exec (.tz xd fa) s = .next u → exec (.ones xd fa) s = .next v →
    t.x[xd].toNat + u.x[xd].toNat ≤ T - 1 ∧ (t.x[xd].toNat + u.x[xd].toNat = T - 1 ↔ v.x[xd].toNat = 1)

/-- R194, R237: "`OnesCount(B) + OnesCount(Not(B)) == 8*len(B)`". -/
def Obligations.OnesOfComplement : Prop :=
  ∀ (s t u v : State) (xd : XIdx) (fd fa : FIdx), s.f[fd].len.toNat ≤ s.f[fa].len.toNat →
    exec (.ones xd fa) s = .next t → t.status = 0 →
    exec (.bnot fd fa) s = .next u → u.status = 0 → HazardFree (.bnot fd fa) s →
    exec (.ones xd fd) u = .next v → v.status = 0 ∧ t.x[xd].toNat + v.x[xd].toNat = 8 * s.f[fa].len.toNat

/-! ### Field cursor -/

/-- R201: `RDBITS` within the width returns the next `n` bits, raises `pos` by `n`, lowers `width` by `n`, and moves
nothing else. -/
def Obligations.CursorConsumesBits : Prop :=
  ∀ (s : State) (xd : XIdx) (fd : FIdx) (n : BitVec 7), n.toNat ≤ 64 → DescOK s.memBytes s.f[fd] →
    n.toNat ≤ s.f[fd].width.toNat → InBuf s.f[fd] s.f[fd].pos.toNat n.toNat →
    ∃ t, exec (.rdbits xd fd n) s = .next t ∧ t.status = 0 ∧
      (∀ k < n.toNat, t.x[xd].getLsbD (n.toNat - 1 - k) = bitAt s fd (s.f[fd].pos.toNat + k)) ∧
      (∀ k, n.toNat ≤ k → t.x[xd].getLsbD k = false) ∧
      t.f[fd].pos.toNat = s.f[fd].pos.toNat + n.toNat ∧ t.f[fd].width.toNat = s.f[fd].width.toNat - n.toNat ∧
      t.f[fd].base = s.f[fd].base ∧ t.f[fd].len = s.f[fd].len ∧ t.f[fd].cap = s.f[fd].cap ∧
      Frame s t [xd] [fd] ∧ KeepsMem s t

/-- R206, R208, R209: `FAND`, `FOR`, `FXOR` write the bitwise operation of the first `W` bits of two fields into the
destination field and change no other bit and no register; the destination may be a source (R291). -/
def Obligations.FieldBooleanIsBitwise : Prop :=
  ∀ (s : State) (fd fa fb : FIdx) (W : Nat), W = s.f[fd].width.toNat →
    DescOK s.memBytes s.f[fd] → DescOK s.memBytes s.f[fa] → DescOK s.memBytes s.f[fb] →
    W ≤ s.f[fa].width.toNat → W ≤ s.f[fb].width.toNat → InBuf s.f[fd] s.f[fd].pos.toNat W →
    InBuf s.f[fa] s.f[fa].pos.toNat W → InBuf s.f[fb] s.f[fb].pos.toNat W →
    ∀ io ∈ [(Instr.fand fd fa fb, Bool.and), (.forr fd fa fb, Bool.or), (.fxor fd fa fb, Bool.xor)],
      HazardFree io.1 s →
      ∃ t, exec io.1 s = .next t ∧ t.status = 0 ∧
        (∀ k < W, t.mem.bitRead s.f[fd].base.toNat (s.f[fd].pos.toNat + k) =
          io.2 (bitAt s fa (s.f[fa].pos.toNat + k)) (bitAt s fb (s.f[fb].pos.toNat + k))) ∧
        KeepsOutside s t (rangeOf s.f[fd] s.f[fd].pos.toNat W) ∧ Frame s t [] []

/-- R207: `FANDN` keeps the bits of its first source that are not set in its second. The operand order is what the spec
takes from general knowledge (G1, log 11). -/
def Obligations.FieldAndNotKeepsFirstSource : Prop :=
  ∀ (s : State) (fd fa fb : FIdx) (W : Nat), W = s.f[fd].width.toNat →
    DescOK s.memBytes s.f[fd] → DescOK s.memBytes s.f[fa] → DescOK s.memBytes s.f[fb] →
    W ≤ s.f[fa].width.toNat → W ≤ s.f[fb].width.toNat → InBuf s.f[fd] s.f[fd].pos.toNat W →
    InBuf s.f[fa] s.f[fa].pos.toNat W → InBuf s.f[fb] s.f[fb].pos.toNat W → HazardFree (.fandn fd fa fb) s →
    ∃ t, exec (.fandn fd fa fb) s = .next t ∧ t.status = 0 ∧
      (∀ k < W, t.mem.bitRead s.f[fd].base.toNat (s.f[fd].pos.toNat + k) =
        (bitAt s fa (s.f[fa].pos.toNat + k) && !bitAt s fb (s.f[fb].pos.toNat + k))) ∧
      KeepsOutside s t (rangeOf s.f[fd] s.f[fd].pos.toNat W) ∧ Frame s t [] []

/-- R210: `FNOT` writes the complement of the first `W` bits of a field; in place too (R291). -/
def Obligations.FieldNotComplements : Prop :=
  ∀ (s : State) (fd fa : FIdx) (W : Nat), W = s.f[fd].width.toNat →
    DescOK s.memBytes s.f[fd] → DescOK s.memBytes s.f[fa] → W ≤ s.f[fa].width.toNat →
    InBuf s.f[fd] s.f[fd].pos.toNat W → InBuf s.f[fa] s.f[fa].pos.toNat W → HazardFree (.fnot fd fa) s →
    ∃ t, exec (.fnot fd fa) s = .next t ∧ t.status = 0 ∧
      (∀ k < W, t.mem.bitRead s.f[fd].base.toNat (s.f[fd].pos.toNat + k) =
        !bitAt s fa (s.f[fa].pos.toNat + k)) ∧
      KeepsOutside s t (rangeOf s.f[fd] s.f[fd].pos.toNat W) ∧ Frame s t [] []

/-- R212: `FROTL` rotates the first `W` bits of a field among themselves, `r` being the amount reduced modulo `W`; with
`W = 0` it writes nothing. -/
def Obligations.FieldRotates : Prop :=
  ∀ (s : State) (fd fa : FIdx) (xs : XIdx) (W r : Nat), W = s.f[fd].width.toNat →
    (0 < W → r < W ∧ (W : Int) ∣ s.x[xs].toInt - r) →
    DescOK s.memBytes s.f[fd] → DescOK s.memBytes s.f[fa] → W ≤ s.f[fa].width.toNat →
    InBuf s.f[fd] s.f[fd].pos.toNat W → InBuf s.f[fa] s.f[fa].pos.toNat W → HazardFree (.frotl fd fa xs) s →
    ∃ t, exec (.frotl fd fa xs) s = .next t ∧ t.status = 0 ∧
      (∀ k < W, t.mem.bitRead s.f[fd].base.toNat (s.f[fd].pos.toNat + k) =
        bitAt s fa (s.f[fa].pos.toNat + (k + r) % W)) ∧
      KeepsOutside s t (rangeOf s.f[fd] s.f[fd].pos.toNat W) ∧ Frame s t [] []

/-- R214: `FCOUNT` counts the bits of a field that have the value `X[xs]`, 0 or 1. -/
def Obligations.FieldCountCountsBitValue : Prop :=
  ∀ (s : State) (xd : XIdx) (fa : FIdx) (xs : XIdx), DescOK s.memBytes s.f[fa] → s.x[xs].toNat ≤ 1 →
    InBuf s.f[fa] s.f[fa].pos.toNat s.f[fa].width.toNat →
    ∃ t, exec (.fcount xd fa xs) s = .next t ∧ t.status = 0 ∧
      t.x[xd].toNat = (List.range s.f[fa].width.toNat).countP
        (fun k => (bitAt s fa (s.f[fa].pos.toNat + k)).toNat = s.x[xs].toNat) ∧
      Frame s t [xd] [] ∧ KeepsMem s t

/-- R215: `FFILL` makes every bit of a field `X[xs]`, 0 or 1, and changes no other bit and no register. -/
def Obligations.FieldFillSetsEveryBit : Prop :=
  ∀ (s : State) (fd : FIdx) (xs : XIdx) (W : Nat), W = s.f[fd].width.toNat → DescOK s.memBytes s.f[fd] →
    s.x[xs].toNat ≤ 1 → InBuf s.f[fd] s.f[fd].pos.toNat W →
    ∃ t, exec (.ffill fd xs) s = .next t ∧ t.status = 0 ∧
      (∀ k < W, (t.mem.bitRead s.f[fd].base.toNat (s.f[fd].pos.toNat + k)).toNat = s.x[xs].toNat) ∧
      KeepsOutside s t (rangeOf s.f[fd] s.f[fd].pos.toNat W) ∧ Frame s t [] []

/-! ### Whole-buffer boolean algebra -/

/-- R231, R232, R234, R235: `BAND`, `BOR`, `BXOR` write the bytewise operation of two buffers of equal length from byte 0
of the destination, which grows to that length and never shrinks; no other byte changes; the destination may be a
source (R291). -/
def Obligations.BufferBooleanIsBytewise : Prop :=
  ∀ (s : State) (fd fa fb : FIdx) (L : Nat), L = s.f[fa].len.toNat → s.f[fb].len = s.f[fa].len →
    DescOK s.memBytes s.f[fd] → DescOK s.memBytes s.f[fa] → DescOK s.memBytes s.f[fb] → L ≤ s.f[fd].cap.toNat →
    ∀ io ∈ [(Instr.band fd fa fb, BitVec.and), (.bor fd fa fb, BitVec.or), (.bxor fd fa fb, BitVec.xor)],
      HazardFree io.1 s →
      ∃ t, exec io.1 s = .next t ∧ t.status = 0 ∧
        (∀ a, t.mem.read a =
          if s.f[fd].base.toNat ≤ a ∧ a < s.f[fd].base.toNat + L then
            io.2 (s.mem.read (s.f[fa].base.toNat + (a - s.f[fd].base.toNat)))
              (s.mem.read (s.f[fb].base.toNat + (a - s.f[fd].base.toNat)))
          else s.mem.read a) ∧
        Grown s.f[fd] t.f[fd] L ∧ Frame s t [] [fd]

/-- R233: `BANDN` keeps the bits of its first source that are not set in its second. The operand order is what the spec
takes from general knowledge (G1, log 11). -/
def Obligations.BufferAndNotKeepsFirstSource : Prop :=
  ∀ (s : State) (fd fa fb : FIdx) (L : Nat), L = s.f[fa].len.toNat → s.f[fb].len = s.f[fa].len →
    DescOK s.memBytes s.f[fd] → DescOK s.memBytes s.f[fa] → DescOK s.memBytes s.f[fb] → L ≤ s.f[fd].cap.toNat →
    HazardFree (.bandn fd fa fb) s →
    ∃ t, exec (.bandn fd fa fb) s = .next t ∧ t.status = 0 ∧
      (∀ a, t.mem.read a =
        if s.f[fd].base.toNat ≤ a ∧ a < s.f[fd].base.toNat + L then
          s.mem.read (s.f[fa].base.toNat + (a - s.f[fd].base.toNat)) &&&
            ~~~(s.mem.read (s.f[fb].base.toNat + (a - s.f[fd].base.toNat)))
        else s.mem.read a) ∧
      Grown s.f[fd] t.f[fd] L ∧ Frame s t [] [fd]

/-- R236: `BNOT` writes the complement of every byte of a buffer; in place too (R291). -/
def Obligations.BufferNotComplements : Prop :=
  ∀ (s : State) (fd fa : FIdx) (L : Nat), L = s.f[fa].len.toNat →
    DescOK s.memBytes s.f[fd] → DescOK s.memBytes s.f[fa] → L ≤ s.f[fd].cap.toNat → HazardFree (.bnot fd fa) s →
    ∃ t, exec (.bnot fd fa) s = .next t ∧ t.status = 0 ∧
      (∀ a, t.mem.read a =
        if s.f[fd].base.toNat ≤ a ∧ a < s.f[fd].base.toNat + L then
          ~~~(s.mem.read (s.f[fa].base.toNat + (a - s.f[fd].base.toNat)))
        else s.mem.read a) ∧
      Grown s.f[fd] t.f[fd] L ∧ Frame s t [] [fd]
end

