-- ==== Sys2Proof/Laws/Memory.lean ====
section
/-! SUPPORT. What the operations over memory do: bytes, bits, bit strings, and the canonical form they keep. -/

namespace Sys2Proof.Machine

/-! ### Bytes -/

theorem Memory.read_erase (m : Memory) (a b : Nat) :
    (Memory.erase m a).read b = if b = a then Config.unlistedByte else m.read b := by
  induction m with
  | nil => simp [Memory.erase, Memory.read]
  | cons c m ih =>
    obtain ⟨d, v⟩ := c
    simp only [Memory.erase]
    split <;> simp only [Memory.read, ih] <;> grind

theorem Memory.read_insert (m : Memory) (a : Nat) (v : Byte) (b : Nat) (h : ∀ c ∈ m, c.1 ≠ a) :
    (Memory.insert m a v).read b = if b = a then v else m.read b := by
  induction m with
  | nil => simp [Memory.insert, Memory.read, eq_comm]
  | cons c m ih =>
    obtain ⟨d, u⟩ := c
    have hd : d ≠ a := h (d, u) (by simp)
    have ih := ih (fun c hc => h c (by simp [hc]))
    simp only [Memory.insert]
    split <;> simp only [Memory.read, ih] <;> grind

theorem Memory.erase_ne (m : Memory) (a : Nat) : ∀ c ∈ Memory.erase m a, c.1 ≠ a := by
  induction m with
  | nil => simp [Memory.erase]
  | cons c m ih =>
    obtain ⟨d, v⟩ := c
    simp only [Memory.erase]
    split <;> grind

/-- A byte read after a byte write. -/
theorem Memory.read_write (m : Memory) (a : Nat) (v : Byte) (b : Nat) :
    (m.write a v).read b = if b = a then v else m.read b := by
  unfold Memory.write
  split
  · next h => rw [Memory.read_erase, h]
  · rw [Memory.read_insert _ _ _ _ (Memory.erase_ne m a), Memory.read_erase]; grind

@[simp] theorem Memory.writeBytes_zero (m : Memory) (a : Nat) (g : Nat → Byte) : m.writeBytes a g 0 = m := rfl

/-- A byte read after a run of byte writes. -/
theorem Memory.read_writeBytes (m : Memory) (a : Nat) (g : Nat → Byte) (n b : Nat) :
    (m.writeBytes a g n).read b = if a ≤ b ∧ b < a + n then g (b - a) else m.read b := by
  induction n with
  | zero => grind [Memory.writeBytes]
  | succ n ih =>
    simp only [Memory.writeBytes, Memory.read_write, ih]
    split
    · next h => subst h; simp
    · grind

/-! ### Bits -/

theorem bitOfByte_byteWithBit (b : Byte) (k : Nat) (v : Bool) (j : Nat) (hk : k < 8) :
    bitOfByte (byteWithBit b k v) j = if j = k then v else bitOfByte b j := by
  have h : ∀ (k j : Fin 8) (v : Bool) (b : Byte),
      bitOfByte (byteWithBit b k v) j = if j = k then v else bitOfByte b j := by decide +kernel
  by_cases hj : j < 8
  · have := h ⟨k, hk⟩ ⟨j, hj⟩ v b
    simpa [Fin.ext_iff] using this
  · have : j ≠ k := by omega
    simp [bitOfByte, this, BitVec.getMsbD_of_ge _ _ (Nat.le_of_not_lt hj)]

/-- Two bytes with the same eight bits are the same. -/
theorem byte_ext {b c : Byte} (h : ∀ k < 8, bitOfByte b k = bitOfByte c k) : b = c := by
  apply BitVec.eq_of_getMsbD_eq
  intro k hk
  exact h k hk

/-- A bit read after a bit write, at absolute bit addresses. -/
theorem Memory.bitRead_bitWrite (m : Memory) (base p : Nat) (v : Bool) (base' q : Nat) :
    (m.bitWrite base p v).bitRead base' q =
      if 8 * base' + q = 8 * base + p then v else m.bitRead base' q := by
  simp only [Memory.bitRead, Memory.bitWrite, Memory.read_write]
  by_cases ha : base' + q / 8 = base + p / 8
  · rw [if_pos ha, bitOfByte_byteWithBit _ _ _ _ (Nat.mod_lt _ (by decide)), ha]
    grind
  · rw [if_neg ha, if_neg (by omega)]

@[simp] theorem Memory.writeBits_zero (m : Memory) (base p : Nat) (g : Nat → Bool) : m.writeBits base p g 0 = m := rfl

/-- A bit read after a bit string is written, at absolute bit addresses. -/
theorem Memory.bitRead_writeBits (m : Memory) (base p : Nat) (g : Nat → Bool) (w base' q : Nat) :
    (m.writeBits base p g w).bitRead base' q =
      if 8 * base + p ≤ 8 * base' + q ∧ 8 * base' + q < 8 * base + p + w
      then g (8 * base' + q - (8 * base + p)) else m.bitRead base' q := by
  induction w with
  | zero => grind [Memory.writeBits]
  | succ w ih =>
    simp only [Memory.writeBits, Memory.bitRead_bitWrite, ih]
    split
    · next h =>
      rw [if_pos (by omega)]
      congr 1; omega
    · grind

/-- A byte is its eight bits, each at its absolute bit address. -/
theorem Memory.read_eq_of_bits {m m' : Memory} {a : Nat} (h : ∀ k < 8, m.bitRead 0 (8 * a + k) = m'.bitRead 0 (8 * a + k)) :
    m.read a = m'.read a := by
  apply byte_ext
  intro k hk
  have := h k hk
  simpa [Memory.bitRead, show (8 * a + k) / 8 = a by omega, show (8 * a + k) % 8 = k by omega] using this

/-- A bit of a buffer by its absolute bit address. -/
theorem Memory.bitRead_abs (m : Memory) (base p : Nat) : m.bitRead base p = m.bitRead 0 (8 * base + p) := by
  simp [Memory.bitRead, show (8 * base + p) / 8 = base + p / 8 by omega, show (8 * base + p) % 8 = p % 8 by omega]

/-- A byte no bit of which is written keeps its value. -/
theorem Memory.read_writeBits_of_disjoint (m : Memory) (base p : Nat) (g : Nat → Bool) (w a : Nat)
    (h : 8 * a + 8 ≤ 8 * base + p ∨ 8 * base + p + w ≤ 8 * a) : (m.writeBits base p g w).read a = m.read a := by
  apply Memory.read_eq_of_bits
  intro k hk
  rw [Memory.bitRead_writeBits, if_neg (by omega)]

/-- A bit after a run of byte writes. -/
theorem Memory.bitRead_writeBytes (m : Memory) (a : Nat) (g : Nat → Byte) (n base q : Nat) :
    (m.writeBytes a g n).bitRead base q =
      if a ≤ base + q / 8 ∧ base + q / 8 < a + n then bitOfByte (g (base + q / 8 - a)) (q % 8)
      else m.bitRead base q := by
  simp only [Memory.bitRead, Memory.read_writeBytes]
  split <;> rfl

/-! ### Bit strings as values -/

theorem bitsValue_lt (g : Nat → Bool) (w : Nat) : bitsValue g w < 2 ^ w := by
  induction w with
  | zero => simp [bitsValue]
  | succ w ih => simp only [bitsValue]; have := Bool.toNat_le (g w); rw [Nat.pow_succ]; omega

/-- Bit `k` of the value is the bit `w − 1 − k` of the string. -/
theorem bitsValue_testBit (g : Nat → Bool) (w k : Nat) :
    (bitsValue g w).testBit k = (decide (k < w) && g (w - 1 - k)) := by
  induction w generalizing k with
  | zero => simp [bitsValue]
  | succ w ih =>
    cases k with
    | zero =>
      simp only [bitsValue, Nat.testBit_zero]
      cases hg : g w <;> simp [hg, Nat.add_mod]
    | succ k =>
      have h2 : (2 * bitsValue g w + (g w).toNat) / 2 = bitsValue g w := by
        have := Bool.toNat_le (g w); omega
      rw [bitsValue, Nat.testBit_succ, h2, ih]
      simp [show w - (k + 1) = w - 1 - k by omega]

/-- The string of a value's bits has that value. -/
theorem bitsValue_of_testBit (v w : Nat) : bitsValue (fun i => v.testBit (w - 1 - i)) w = v % 2 ^ w := by
  apply Nat.eq_of_testBit_eq
  intro k
  rw [bitsValue_testBit, Nat.testBit_mod_two_pow]
  by_cases h : k < w
  · simp [h, show w - 1 - (w - 1 - k) = k by omega]
  · simp [h]

theorem bitsValue_congr {g h : Nat → Bool} {w : Nat} (e : ∀ i < w, g i = h i) : bitsValue g w = bitsValue h w := by
  induction w with
  | zero => rfl
  | succ w ih => simp only [bitsValue]; rw [ih (fun i hi => e i (by omega)), e w (by omega)]

theorem Memory.bitsRead_lt (m : Memory) (base p w : Nat) : m.bitsRead base p w < 2 ^ w := bitsValue_lt _ _

/-- Two strings one after the other. -/
theorem bitsValue_append (g : Nat → Bool) (w w' : Nat) :
    bitsValue g (w + w') = bitsValue g w * 2 ^ w' + bitsValue (fun i => g (w + i)) w' := by
  induction w' with
  | zero => simp [bitsValue]
  | succ w' ih => rw [← Nat.add_assoc, bitsValue, ih, bitsValue, Nat.pow_succ]; ring

/-- A bit read after `BitsWrite`, at absolute bit addresses. -/
theorem Memory.bitRead_bitsWrite (m : Memory) (base p w v base' q : Nat) :
    (m.bitsWrite base p w v).bitRead base' q =
      if 8 * base + p ≤ 8 * base' + q ∧ 8 * base' + q < 8 * base + p + w
      then v.testBit (w - 1 - (8 * base' + q - (8 * base + p))) else m.bitRead base' q :=
  Memory.bitRead_writeBits ..

/-- `BitsRead` of what `BitsWrite` wrote. -/
theorem Memory.bitsRead_bitsWrite (m : Memory) (base p w v : Nat) :
    (m.bitsWrite base p w v).bitsRead base p w = v % 2 ^ w := by
  rw [← bitsValue_of_testBit v w, Memory.bitsRead]
  apply bitsValue_congr
  intro i hi
  rw [Memory.bitRead_bitsWrite, if_pos (by omega)]
  congr 1; omega

/-- Bit `k` of a bit string of at most 64 bits held in a word. -/
theorem Memory.bitsRead_getLsbD (m : Memory) (base p w k : Nat) (hw : w ≤ 64) :
    (wordOf (m.bitsRead base p w)).getLsbD k = (decide (k < w) && m.bitRead base (p + (w - 1 - k))) := by
  simp only [wordOf]
  rw [← BitVec.testBit_toNat, BitVec.toNat_ofNat, Nat.testBit_mod_two_pow, Memory.bitsRead, bitsValue_testBit]
  by_cases h : k < w
  · simp [h]; omega
  · simp [h]

/-- A byte is the value of its eight bits. -/
theorem bitsValue_bitOfByte (b : Byte) : bitsValue (bitOfByte b) 8 = b.toNat := by
  revert b; decide +kernel

/-- The byte of an eight-bit string has the bits of the string. -/
theorem bitOfByte_ofNat_bitsValue (g : Nat → Bool) {k : Nat} (hk : k < 8) :
    bitOfByte (BitVec.ofNat 8 (bitsValue g 8)) k = g k := by
  rw [bitOfByte, BitVec.getMsbD_eq_getLsbD, ← BitVec.testBit_toNat, BitVec.toNat_ofNat, Nat.testBit_mod_two_pow,
    show 8 - 1 - k = 7 - k by omega, bitsValue_testBit, decide_eq_true hk, decide_eq_true (show 7 - k < 8 by omega)]
  simp; congr 1; omega

/-- `n` bytes read as one value are their `8 * n` bits read as one value. -/
theorem Memory.readNat_eq_bitsRead (m : Memory) (a n : Nat) : m.readNat a n = m.bitsRead a 0 (8 * n) := by
  induction n with
  | zero => rfl
  | succ n ih =>
    have : bitsValue (bitOfByte (m.read (a + n))) 8 = bitsValue (fun i => m.bitRead a (0 + (8 * n + i))) 8 := by
      apply bitsValue_congr
      intro i hi
      simp [Memory.bitRead, show (8 * n + i) / 8 = n by omega, show (8 * n + i) % 8 = i by omega]
    rw [Memory.readNat, ih, Memory.bitsRead, Memory.bitsRead, show 8 * (n + 1) = 8 * n + 8 by ring, bitsValue_append,
      ← bitsValue_bitOfByte, this]
    ring

/-- A byte put together from the low bits of one byte and the high bits of the next. -/
theorem bitOfByte_shift_or (a b : Byte) {s k : Nat} (hs : 0 < s) (hs' : s < 8) (hk : k < 8) :
    bitOfByte (a <<< s ||| b >>> (8 - s)) k = if k + s < 8 then bitOfByte a (k + s) else bitOfByte b (k + s - 8) := by
  simp only [bitOfByte, BitVec.getMsbD_or, BitVec.getMsbD_shiftLeft, BitVec.getMsbD_ushiftRight]
  split
  · rw [decide_eq_true (show k < 8 - s by omega)]; simp [hk, Nat.add_comm]
  · rw [BitVec.getMsbD_of_ge _ _ (by omega), show k - (8 - s) = k + s - 8 by omega]; simp [hk]; omega

/-! ### Counts -/

theorem countOnes_le (g : Nat → Bool) (w : Nat) : countOnes g w ≤ w := by
  induction w with
  | zero => simp [countOnes]
  | succ w ih => simp only [countOnes]; have := Bool.toNat_le (g w); omega

theorem zerosFrom_le (g : Nat → Bool) (n k : Nat) : zerosFrom g n k ≤ n := by
  induction n generalizing k with
  | zero => simp [zerosFrom]
  | succ n ih => simp only [zerosFrom]; split; · omega
                 · have := ih (k + 1); omega

/-- Before the place `zerosFrom` stops at every bit is 0. -/
theorem zerosFrom_before (g : Nat → Bool) (n k i : Nat) (h : i < zerosFrom g n k) : g (k + i) = false := by
  induction n generalizing k i with
  | zero => simp [zerosFrom] at h
  | succ n ih =>
    simp only [zerosFrom] at h
    split at h
    · omega
    · next hk =>
      cases i with
      | zero => simpa using hk
      | succ i => have := ih (k + 1) i (by omega); rwa [show k + 1 + i = k + (i + 1) by omega] at this

/-- At the place `zerosFrom` stops at, short of the end, the bit is 1. -/
theorem zerosFrom_at (g : Nat → Bool) (n k : Nat) (h : zerosFrom g n k < n) : g (k + zerosFrom g n k) = true := by
  induction n generalizing k with
  | zero => simp at h
  | succ n ih =>
    simp only [zerosFrom] at h ⊢
    split
    · next hk => simpa using hk
    · next hk =>
      rw [if_neg hk] at h
      have := ih (k + 1) (by omega)
      rwa [show k + 1 + zerosFrom g n (k + 1) = k + (zerosFrom g n (k + 1) + 1) by omega] at this

/-! ### The canonical form -/

theorem Memory.mem_erase {m : Memory} {a : Nat} {c : Host.Cell} (h : c ∈ Memory.erase m a) : c ∈ m := by
  induction m with
  | nil => simp [Memory.erase] at h
  | cons d m ih =>
    obtain ⟨d, v⟩ := d
    simp only [Memory.erase] at h
    split at h <;> grind

theorem Memory.mem_insert {m : Memory} {a : Nat} {v : Byte} {c : Host.Cell} (h : c ∈ Memory.insert m a v) :
    c = (a, v) ∨ c ∈ m := by
  induction m with
  | nil => simpa [Memory.insert] using h
  | cons d m ih =>
    obtain ⟨d, u⟩ := d
    simp only [Memory.insert] at h
    split at h <;> grind

theorem Memory.erase_sorted {m : Memory} (h : m.Pairwise (fun c d => c.1 < d.1)) (a : Nat) :
    (Memory.erase m a).Pairwise (fun c d => c.1 < d.1) := by
  induction m with
  | nil => simp [Memory.erase]
  | cons c m ih =>
    obtain ⟨d, v⟩ := c
    rw [List.pairwise_cons] at h
    simp only [Memory.erase]
    split
    · exact ih h.2
    · rw [List.pairwise_cons]
      exact ⟨fun e he => h.1 e (Memory.mem_erase he), ih h.2⟩

theorem Memory.insert_sorted {m : Memory} (h : m.Pairwise (fun c d => c.1 < d.1)) (a : Nat) (v : Byte)
    (hne : ∀ c ∈ m, c.1 ≠ a) : (Memory.insert m a v).Pairwise (fun c d => c.1 < d.1) := by
  induction m with
  | nil => simp [Memory.insert]
  | cons c m ih =>
    obtain ⟨d, u⟩ := c
    have hc := List.pairwise_cons.1 h
    have hd : d ≠ a := hne (d, u) (by simp)
    simp only [Memory.insert]
    split
    · rw [List.pairwise_cons]
      refine ⟨fun e he => ?_, h⟩
      rcases List.mem_cons.1 he with rfl | he
      · assumption
      · have := hc.1 e he; simp only at this ⊢; omega
    · rw [List.pairwise_cons]
      refine ⟨fun e he => ?_, ih hc.2 (fun c hc => hne c (by simp [hc]))⟩
      rcases Memory.mem_insert he with rfl | he
      · simp only; omega
      · exact hc.1 e he

theorem Memory.write_wf {m : Memory} (h : m.wf) (a : Nat) (v : Byte) : (m.write a v).wf := by
  unfold Memory.write
  split
  · exact ⟨Memory.erase_sorted h.1 a, fun c hc => h.2 c (Memory.mem_erase hc)⟩
  · next hv =>
    refine ⟨Memory.insert_sorted (Memory.erase_sorted h.1 a) a v (Memory.erase_ne m a), fun c hc => ?_⟩
    rcases Memory.mem_insert hc with rfl | hc
    · exact hv
    · exact h.2 c (Memory.mem_erase hc)

theorem Memory.write_within {m : Memory} {size : Nat} (h : m.within size) {a : Nat} (ha : a < size) (v : Byte) :
    (m.write a v).within size := by
  intro c hc
  unfold Memory.write at hc
  split at hc
  · exact h c (Memory.mem_erase hc)
  · rcases Memory.mem_insert hc with rfl | hc
    · exact ha
    · exact h c (Memory.mem_erase hc)

theorem Memory.writeBytes_wf {m : Memory} (h : m.wf) (a : Nat) (g : Nat → Byte) (n : Nat) : (m.writeBytes a g n).wf := by
  induction n with
  | zero => exact h
  | succ n ih => exact Memory.write_wf ih _ _

theorem Memory.writeBytes_within {m : Memory} {size : Nat} (h : m.within size) {a n : Nat} (g : Nat → Byte)
    (ha : a + n ≤ size) : (m.writeBytes a g n).within size := by
  induction n with
  | zero => exact h
  | succ n ih => exact Memory.write_within (ih (by omega)) (by omega) _

theorem Memory.bitWrite_wf {m : Memory} (h : m.wf) (base p : Nat) (v : Bool) : (m.bitWrite base p v).wf :=
  Memory.write_wf h _ _

theorem Memory.writeBits_wf {m : Memory} (h : m.wf) (base p : Nat) (g : Nat → Bool) (w : Nat) :
    (m.writeBits base p g w).wf := by
  induction w with
  | zero => exact h
  | succ w ih => exact Memory.bitWrite_wf ih _ _ _

theorem Memory.writeBits_within {m : Memory} {size : Nat} (h : m.within size) {base p w : Nat} (g : Nat → Bool)
    (ha : 8 * base + p + w ≤ 8 * size) : (m.writeBits base p g w).within size := by
  induction w with
  | zero => exact h
  | succ w ih => exact Memory.write_within (ih (by omega)) (by omega) _

theorem Memory.bitsWrite_wf {m : Memory} (h : m.wf) (base p w v : Nat) : (m.bitsWrite base p w v).wf :=
  Memory.writeBits_wf h ..

theorem Memory.bitsWrite_within {m : Memory} {size : Nat} (h : m.within size) {base p w : Nat} (v : Nat)
    (ha : 8 * base + p + w ≤ 8 * size) : (m.bitsWrite base p w v).within size :=
  Memory.writeBits_within h _ ha

theorem Memory.scramble_wf {m : Memory} (h : m.wf) (n : Nat) (r : BitRange) : (m.scramble n r).wf :=
  Memory.writeBits_wf h ..

theorem Memory.scramble_within {m : Memory} {size : Nat} (h : m.within size) (n : Nat) {r : BitRange}
    (hr : r.lo ≤ r.hi) (hs : r.hi ≤ 8 * size) : (m.scramble n r).within size :=
  Memory.writeBits_within h _ (by omega)

/-- A bit after the bits of a range took free values. -/
theorem Memory.bitRead_scramble (m : Memory) (n : Nat) (r : BitRange) (base q : Nat) :
    (m.scramble n r).bitRead base q =
      if r.Has (8 * base + q) then Config.freeBit n (8 * base + q) else m.bitRead base q := by
  rw [Memory.scramble, Memory.bitRead_writeBits]
  grind

/-- Equal reads and the canonical form make equal memories. -/
theorem Memory.ext_of_wf {m m' : Memory} (h : m.wf) (h' : m'.wf) (e : ∀ a, m.read a = m'.read a) : m = m' := by
  have listed : ∀ {m : Memory}, m.wf → ∀ c : Host.Cell, c ∈ m ↔ (m.read c.1 = c.2 ∧ c.2 ≠ Config.unlistedByte) := by
    intro m hm c
    induction m with
    | nil => simp [Memory.read, eq_comm]
    | cons d m ih =>
      obtain ⟨a, v⟩ := d
      obtain ⟨b, u⟩ := c
      have hp := List.pairwise_cons.1 hm.1
      have ih := ih ⟨hp.2, fun c hc => hm.2 c (by simp [hc])⟩
      have hv := hm.2 (a, v) (by simp)
      simp only [Memory.read, List.mem_cons, Prod.mk.injEq] at ih ⊢
      by_cases hab : a = b
      · subst hab
        have hn : (a, u) ∉ m := fun hc => by have := hp.1 _ hc; simp at this
        simp [hn]
        constructor
        · rintro rfl; exact ⟨rfl, hv⟩
        · rintro ⟨rfl, -⟩; rfl
      · simp [hab, ih, Ne.symm hab]
  have hperm : m.Perm m' := by
    rw [List.perm_ext_iff_of_nodup]
    · intro c; rw [listed h, listed h', e]
    · exact h.1.imp (fun hlt heq => by rw [heq] at hlt; omega)
    · exact h'.1.imp (fun hlt heq => by rw [heq] at hlt; omega)
  exact hperm.eq_of_pairwise (fun a b _ _ h1 h2 => by omega) h.1 h'.1

end Sys2Proof.Machine
end

