-- ==== Sys2Proof/Laws/State.lean ====
section
/-! SUPPORT. The fields of a state after each update of it. -/

namespace Sys2Proof.Machine

variable (s : State) (i : XIdx) (k : FIdx) (v : Word) (r : FieldReg) (m : Memory)

@[simp] theorem State.setX_x : (s.setX i v).x = s.x.set i v := rfl
@[simp] theorem State.setX_f : (s.setX i v).f = s.f := rfl
@[simp] theorem State.setX_cmd : (s.setX i v).cmd = s.cmd := rfl
@[simp] theorem State.setX_status : (s.setX i v).status = s.status := rfl
@[simp] theorem State.setX_needlen : (s.setX i v).needlen = s.needlen := rfl
@[simp] theorem State.setX_mem : (s.setX i v).mem = s.mem := rfl
@[simp] theorem State.setX_memBytes : (s.setX i v).memBytes = s.memBytes := rfl
@[simp] theorem State.setX_host : (s.setX i v).host = s.host := rfl
@[simp] theorem State.setX_portOut : (s.setX i v).portOut = s.portOut := rfl
@[simp] theorem State.setX_freeCount : (s.setX i v).freeCount = s.freeCount := rfl

@[simp] theorem State.setF_x : (s.setF k r).x = s.x := rfl
@[simp] theorem State.setF_f : (s.setF k r).f = s.f.set k r := rfl
@[simp] theorem State.setF_cmd : (s.setF k r).cmd = s.cmd := rfl
@[simp] theorem State.setF_status : (s.setF k r).status = s.status := rfl
@[simp] theorem State.setF_needlen : (s.setF k r).needlen = s.needlen := rfl
@[simp] theorem State.setF_mem : (s.setF k r).mem = s.mem := rfl
@[simp] theorem State.setF_memBytes : (s.setF k r).memBytes = s.memBytes := rfl
@[simp] theorem State.setF_host : (s.setF k r).host = s.host := rfl
@[simp] theorem State.setF_portOut : (s.setF k r).portOut = s.portOut := rfl
@[simp] theorem State.setF_freeCount : (s.setF k r).freeCount = s.freeCount := rfl

@[simp] theorem State.setMem_x : (s.setMem m).x = s.x := rfl
@[simp] theorem State.setMem_f : (s.setMem m).f = s.f := rfl
@[simp] theorem State.setMem_cmd : (s.setMem m).cmd = s.cmd := rfl
@[simp] theorem State.setMem_status : (s.setMem m).status = s.status := rfl
@[simp] theorem State.setMem_needlen : (s.setMem m).needlen = s.needlen := rfl
@[simp] theorem State.setMem_mem : (s.setMem m).mem = m := rfl
@[simp] theorem State.setMem_memBytes : (s.setMem m).memBytes = s.memBytes := rfl
@[simp] theorem State.setMem_host : (s.setMem m).host = s.host := rfl
@[simp] theorem State.setMem_portOut : (s.setMem m).portOut = s.portOut := rfl
@[simp] theorem State.setMem_freeCount : (s.setMem m).freeCount = s.freeCount := rfl

@[simp] theorem finish_x : (finish s).x = s.x := rfl
@[simp] theorem finish_f : (finish s).f = s.f := rfl
@[simp] theorem finish_cmd : (finish s).cmd = s.cmd := rfl
@[simp] theorem finish_status : (finish s).status = statusWord .ok .none := rfl
@[simp] theorem finish_needlen : (finish s).needlen = s.needlen := rfl
@[simp] theorem finish_mem : (finish s).mem = s.mem := rfl
@[simp] theorem finish_memBytes : (finish s).memBytes = s.memBytes := rfl
@[simp] theorem finish_host : (finish s).host = s.host := rfl
@[simp] theorem finish_portOut : (finish s).portOut = s.portOut := rfl
@[simp] theorem finish_freeCount : (finish s).freeCount = s.freeCount := rfl

variable (e : Raise)

@[simp] theorem raise_x : (raise e s).x = s.x := by cases e <;> rfl
@[simp] theorem raise_f : (raise e s).f = s.f := by cases e <;> rfl
@[simp] theorem raise_cmd : (raise e s).cmd = s.cmd := by cases e <;> rfl
@[simp] theorem raise_mem : (raise e s).mem = s.mem := by cases e <;> rfl
@[simp] theorem raise_memBytes : (raise e s).memBytes = s.memBytes := by cases e <;> rfl
@[simp] theorem raise_host : (raise e s).host = s.host := by cases e <;> rfl
@[simp] theorem raise_portOut : (raise e s).portOut = s.portOut := by cases e <;> rfl
@[simp] theorem raise_freeCount : (raise e s).freeCount = s.freeCount := by cases e <;> rfl
@[simp] theorem raise_fault_status (c : Cause) : (raise (.fault c) s).status = statusWord .fault c := rfl
@[simp] theorem raise_fault_needlen (c : Cause) : (raise (.fault c) s).needlen = s.needlen := rfl
@[simp] theorem raise_eof_status : (raise .eof s).status = statusWord .eof .none := rfl
@[simp] theorem raise_eof_needlen : (raise .eof s).needlen = s.needlen := rfl
@[simp] theorem raise_grow_status (n : Nat) : (raise (.grow n) s).status = statusWord .grow .none := rfl
@[simp] theorem raise_grow_needlen (n : Nat) : (raise (.grow n) s).needlen = wordOf n := rfl

@[simp] theorem State.resetEngine_mem : s.resetEngine.mem = s.mem := rfl
@[simp] theorem State.resetEngine_memBytes : s.resetEngine.memBytes = s.memBytes := rfl
@[simp] theorem State.resetEngine_host : s.resetEngine.host = s.host := rfl
@[simp] theorem State.resetEngine_status : s.resetEngine.status = 0 := rfl
@[simp] theorem State.resetEngine_cmd : s.resetEngine.cmd = 0 := rfl
@[simp] theorem State.resetEngine_needlen : s.resetEngine.needlen = 0 := rfl
@[simp] theorem State.resetEngine_x : s.resetEngine.x = Vector.replicate 8 0 := rfl
@[simp] theorem State.resetEngine_f : s.resetEngine.f = Vector.replicate 4 FieldReg.zero := rfl
@[simp] theorem State.resetEngine_freeCount : s.resetEngine.freeCount = s.freeCount := rfl
@[simp] theorem State.resetEngine_portOut : s.resetEngine.portOut = none := rfl

end Sys2Proof.Machine
end

