-- ==== Sys2Proof/Laws/Ops.lean ====
section
/-! SUPPORT. What each shared operation of the commands can do, said once. -/

namespace Sys2Proof.Machine

/-! ### Numbers as words -/

theorem wordOf_toNat (n : Nat) : (wordOf n).toNat = n % 2 ^ 64 := by simp [wordOf]

theorem wordOf_of_lt {n : Nat} (h : n < 2 ^ 64) : (wordOf n).toNat = n := by
  rw [wordOf_toNat, Nat.mod_eq_of_lt h]

@[simp] theorem wordOf_toNat_self (w : Word) : wordOf w.toNat = w := by simp [wordOf]

/-- R25, R27: a register that passes `DescOK` has its storage below `2^60`. -/
theorem DescOK.bound {size : MemSize} {r : FieldReg} (h : DescOK size r) :
    r.len.toNat ≤ r.cap.toNat ∧ r.base.toNat + r.cap.toNat ≤ size.val ∧ size.val ≤ 2 ^ 60 :=
  ⟨h.1, h.2, Nat.lt_succ_iff.1 size.isLt⟩

/-- R181: the reduced amount is the one number below `T` congruent to the amount. -/
theorem reducedAmount_eq {v : Word} {T r : Nat} (hr : r < T) (hd : (T : Int) ∣ v.toInt - r) : reducedAmount v T = r := by
  obtain ⟨c, hc⟩ := hd
  have : v.toInt % (T : Int) = r := by
    rw [show v.toInt = r + T * c by linarith, Int.add_mul_emod_self_left,
      Int.emod_eq_of_lt (by positivity) (by exact_mod_cast hr)]
  rw [reducedAmount, this]; simp

/-! ### The checks -/

@[simp] theorem checkLegal_eq_none {i : Instr} : checkLegal i = none ↔ WellFormed i := by
  unfold checkLegal; split
  · next h => simpa using h
  · next h => simpa using h

@[simp] theorem checkDesc_eq_none {s : State} {l : List FIdx} :
    checkDesc s l = none ↔ ∀ i ∈ l, DescOK s.memBytes s.f[i] := by
  unfold checkDesc; split
  · next h => simpa using h
  · next h => simpa using h

@[simp] theorem checkBounds_eq_none {r : FieldReg} {p w : Nat} : checkBounds r p w = none ↔ InBuf r p w := by
  unfold checkBounds; split <;> simp_all

@[simp] theorem faultIf_eq_none {c : Cause} {p : Prop} [Decidable p] : faultIf c p = none ↔ ¬ p := by
  unfold faultIf; split <;> simp_all

@[simp] theorem growPlan_eq_none {r : FieldReg} {need : Nat} :
    growPlan r need = none ↔ need ≤ r.cap.toNat ∨ need ≤ r.len.toNat := by
  unfold growPlan; split <;> simp <;> omega

theorem checkLegal_cases (i : Instr) : checkLegal i = none ∨ checkLegal i = some (.fault .illegalCmd) := by
  unfold checkLegal; split <;> simp

theorem checkDesc_cases (s : State) (l : List FIdx) : checkDesc s l = none ∨ checkDesc s l = some (.fault .desc) := by
  unfold checkDesc; split <;> simp

theorem checkBounds_cases (r : FieldReg) (p w : Nat) :
    checkBounds r p w = none ∨ checkBounds r p w = some (.fault .bounds) := by
  unfold checkBounds; split <;> simp

theorem faultIf_cases (c : Cause) (p : Prop) [Decidable p] : faultIf c p = none ∨ faultIf c p = some (.fault c) := by
  unfold faultIf; split <;> simp

theorem growPlan_cases (r : FieldReg) (need : Nat) : growPlan r need = none ∨ growPlan r need = some (.grow need) := by
  unfold growPlan; split <;> simp

theorem checkLegal_raises {i : Instr} {r : Raise} (h : some r = checkLegal i) :
    r = .fault .illegalCmd ∧ ¬ WellFormed i := by
  unfold checkLegal at h; split at h <;> simp_all

theorem checkDesc_raises {s : State} {l : List FIdx} {r : Raise} (h : some r = checkDesc s l) : r = .fault .desc := by
  unfold checkDesc at h; split at h <;> simp_all

theorem checkBounds_raises {f : FieldReg} {p w : Nat} {r : Raise} (h : some r = checkBounds f p w) :
    r = .fault .bounds := by
  unfold checkBounds at h; split at h <;> simp_all

theorem faultIf_raises {c : Cause} {p : Prop} [Decidable p] {r : Raise} (h : some r = faultIf c p) : r = .fault c := by
  unfold faultIf at h; split at h <;> simp_all

theorem growPlan_raises {f : FieldReg} {need : Nat} {r : Raise} (h : some r = growPlan f need) : r = .grow need := by
  unfold growPlan at h; split at h <;> simp_all

theorem checkBounds_of_not {r : FieldReg} {p w : Nat} (h : ¬ InBuf r p w) : checkBounds r p w = some (.fault .bounds) :=
  if_neg h

/-- A length above the capacity of a well-formed register is asked for. -/
theorem growPlan_of_cap_lt {r : FieldReg} {need : Nat} (hd : r.len.toNat ≤ r.cap.toNat) (h : r.cap.toNat < need) :
    growPlan r need = some (.grow need) := if_pos ⟨h, by omega⟩

@[simp] theorem firstRaise_nil : firstRaise [] = none := rfl
@[simp] theorem firstRaise_none (l : List (Option Raise)) : firstRaise (none :: l) = firstRaise l := rfl
@[simp] theorem firstRaise_some (r : Raise) (l : List (Option Raise)) : firstRaise (some r :: l) = some r := rfl

/-- No check raises exactly when each does not. -/
theorem firstRaise_eq_none {l : List (Option Raise)} : firstRaise l = none ↔ ∀ c ∈ l, c = none := by
  induction l with
  | nil => simp
  | cons c l ih => cases c <;> simp [ih]

/-- What is raised is raised by one of the checks. -/
theorem firstRaise_mem {l : List (Option Raise)} {r : Raise} (h : firstRaise l = some r) : some r ∈ l := by
  induction l with
  | nil => simp at h
  | cons c l ih => cases c <;> simp_all

/-- Checks that raise nothing can be passed over. -/
theorem firstRaise_append {l l' : List (Option Raise)} (h : firstRaise l = none) :
    firstRaise (l ++ l') = firstRaise l' := by
  induction l with
  | nil => rfl
  | cons c l ih => cases c <;> simp_all

/-! ### The execution sequence -/

theorem runCommand_none_cons (l : List (Option Raise)) (perform : State → State) (s : State) :
    runCommand (none :: l) perform s = runCommand l perform s := rfl

theorem runCommand_of_none {checks : List (Option Raise)} (h : firstRaise checks = none) (perform : State → State)
    (s : State) : runCommand checks perform s = .next (finish (perform s)) := by simp [runCommand, h]

theorem runCommand_of_some {checks : List (Option Raise)} {r : Raise} (h : firstRaise checks = some r)
    (perform : State → State) (s : State) : runCommand checks perform s = .next (raise r s) := by simp [runCommand, h]

/-- A command raises what its first failing check raises, or performs its operation and ends `OK`. -/
theorem runCommand_cases {checks : List (Option Raise)} {perform : State → State} {s t : State}
    (h : runCommand checks perform s = .next t) :
    (∃ r, firstRaise checks = some r ∧ t = raise r s) ∨ (firstRaise checks = none ∧ t = finish (perform s)) := by
  unfold runCommand at h
  split at h <;> simp_all

/-! ### `STATUS` -/

@[simp] theorem statusWord_ok : statusWord .ok .none = 0 := by decide
@[simp] theorem statusWord_eof : statusWord .eof .none = 0x01 := by decide
@[simp] theorem statusWord_grow : statusWord .grow .none = 0x02 := by decide
@[simp] theorem statusWord_bounds : statusWord .fault .bounds = 0x13 := by decide
@[simp] theorem statusWord_length : statusWord .fault .length = 0x23 := by decide
@[simp] theorem statusWord_invalidArg : statusWord .fault .invalidArg = 0x33 := by decide
@[simp] theorem statusWord_illegalCmd : statusWord .fault .illegalCmd = 0x43 := by decide
@[simp] theorem statusWord_desc : statusWord .fault .desc = 0x53 := by decide

/-! ### Growth -/

theorem growDo_of_le {i : FIdx} {need : Nat} {s : State} (h : need ≤ s.f[i].len.toNat) : growDo i need s = s := by
  unfold growDo; dsimp only; exact if_neg (Nat.not_lt.2 h)

@[simp] theorem growDo_x (i : FIdx) (need : Nat) (s : State) : (growDo i need s).x = s.x := by
  unfold growDo; dsimp only; split <;> rfl
@[simp] theorem growDo_cmd (i : FIdx) (need : Nat) (s : State) : (growDo i need s).cmd = s.cmd := by
  unfold growDo; dsimp only; split <;> rfl
@[simp] theorem growDo_status (i : FIdx) (need : Nat) (s : State) : (growDo i need s).status = s.status := by
  unfold growDo; dsimp only; split <;> rfl
@[simp] theorem growDo_needlen (i : FIdx) (need : Nat) (s : State) : (growDo i need s).needlen = s.needlen := by
  unfold growDo; dsimp only; split <;> rfl
@[simp] theorem growDo_memBytes (i : FIdx) (need : Nat) (s : State) : (growDo i need s).memBytes = s.memBytes := by
  unfold growDo; dsimp only; split <;> rfl
@[simp] theorem growDo_host (i : FIdx) (need : Nat) (s : State) : (growDo i need s).host = s.host := by
  unfold growDo; dsimp only; split <;> rfl
@[simp] theorem growDo_portOut (i : FIdx) (need : Nat) (s : State) : (growDo i need s).portOut = s.portOut := by
  unfold growDo; dsimp only; split <;> rfl
@[simp] theorem growDo_freeCount (i : FIdx) (need : Nat) (s : State) : (growDo i need s).freeCount = s.freeCount := by
  unfold growDo; dsimp only; split <;> rfl

/-- Growth leaves every other field register. -/
theorem growDo_f_ne {i j : FIdx} (need : Nat) (s : State) (h : j ≠ i) : (growDo i need s).f[j] = s.f[j] := by
  unfold growDo; dsimp only
  split
  · simp [Fin.val_ne_of_ne h.symm]
  · rfl

/-- Growth sets `len` of its register and nothing else of it. -/
theorem growDo_f (i : FIdx) (need : Nat) (s : State) :
    (growDo i need s).f[i] = { s.f[i] with len := if s.f[i].len.toNat < need then wordOf need else s.f[i].len } := by
  unfold growDo; dsimp only
  split <;> simp

/-- Growth zero-fills the bytes it brings in and no other. -/
theorem growDo_read (i : FIdx) (need : Nat) (s : State) (a : Nat) :
    (growDo i need s).mem.read a =
      if s.f[i].base.toNat + s.f[i].len.toNat ≤ a ∧ a < s.f[i].base.toNat + need then 0 else s.mem.read a := by
  unfold growDo; dsimp only
  split
  · simp only [State.setF_mem, State.setMem_mem, Memory.read_writeBytes]
    grind
  · grind

/-- A bit after growth. -/
theorem growDo_bitRead (i : FIdx) (need : Nat) (s : State) (base q : Nat) :
    (growDo i need s).mem.bitRead base q =
      if (grownRange s.f[i] need).Has (8 * base + q) then false else s.mem.bitRead base q := by
  have : q % 8 < 8 := Nat.mod_lt _ (by decide)
  simp only [Memory.bitRead, growDo_read]
  by_cases h : s.f[i].base.toNat + s.f[i].len.toNat ≤ base + q / 8 ∧ base + q / 8 < s.f[i].base.toNat + need
  · rw [if_pos h, if_pos (by simp only [BitRange.Has, grownRange]; omega)]
    simp [bitOfByte]
  · rw [if_neg h, if_neg (by simp only [BitRange.Has, grownRange]; omega)]

theorem growDo_mem_wf {i : FIdx} {need : Nat} {s : State} (h : s.mem.wf) : (growDo i need s).mem.wf := by
  unfold growDo; dsimp only
  split
  · exact Memory.writeBytes_wf h ..
  · exact h

theorem growDo_mem_within {i : FIdx} {need size : Nat} {s : State} (h : s.mem.within size)
    (hn : s.f[i].base.toNat + need ≤ size) : (growDo i need s).mem.within size := by
  unfold growDo; dsimp only
  split
  · exact Memory.writeBytes_within h _ (by omega)
  · exact h

/-! ### Normalisation -/

/-- R102: the register `normalizeAt` gives, as numbers, when the position is in the buffer. -/
theorem normalizeAt_toNat {size : MemSize} {r : FieldReg} {p : Nat} (h : DescOK size r) (hp : p / 8 ≤ r.len.toNat) :
    (normalizeAt r p).base.toNat = r.base.toNat + p / 8 ∧ (normalizeAt r p).len.toNat = r.len.toNat - p / 8 ∧
    (normalizeAt r p).cap.toNat = r.cap.toNat - p / 8 ∧ (normalizeAt r p).pos.toNat = p % 8 ∧
    (normalizeAt r p).width = r.width := by
  have := h.bound
  refine ⟨wordOf_of_lt ?_, wordOf_of_lt ?_, wordOf_of_lt ?_, wordOf_of_lt ?_, rfl⟩ <;> omega

/-! ### Movements -/

/-- A hazard-free movement is performed as it stands. -/
theorem settle_of_free {v : Option Movement} (h : ∀ m ∈ v, m.Free) (s : State) : settle v s = s := by
  cases v with
  | none => rfl
  | some v => exact if_pos (h v rfl)

/-- A movement that is not hazard free puts free values in the bits of `Dst` and counts the use. -/
theorem settle_of_not_free {v : Movement} (h : ¬ v.Free) (s : State) :
    settle (some v) s =
      { s with mem := (s.mem.scramble s.freeCount v.dst).scramble s.freeCount v.grown
               freeCount := s.freeCount + 1 } := if_neg h

@[simp] theorem settle_x (v : Option Movement) (s : State) : (settle v s).x = s.x := by
  unfold settle; split; · rfl
  split <;> rfl
@[simp] theorem settle_f (v : Option Movement) (s : State) : (settle v s).f = s.f := by
  unfold settle; split; · rfl
  split <;> rfl
@[simp] theorem settle_cmd (v : Option Movement) (s : State) : (settle v s).cmd = s.cmd := by
  unfold settle; split; · rfl
  split <;> rfl
@[simp] theorem settle_status (v : Option Movement) (s : State) : (settle v s).status = s.status := by
  unfold settle; split; · rfl
  split <;> rfl
@[simp] theorem settle_needlen (v : Option Movement) (s : State) : (settle v s).needlen = s.needlen := by
  unfold settle; split; · rfl
  split <;> rfl
@[simp] theorem settle_memBytes (v : Option Movement) (s : State) : (settle v s).memBytes = s.memBytes := by
  unfold settle; split; · rfl
  split <;> rfl
@[simp] theorem settle_host (v : Option Movement) (s : State) : (settle v s).host = s.host := by
  unfold settle; split; · rfl
  split <;> rfl
@[simp] theorem settle_portOut (v : Option Movement) (s : State) : (settle v s).portOut = s.portOut := by
  unfold settle; split; · rfl
  split <;> rfl

/-- A bit after a movement that is not hazard free: free in `Dst`, as before outside it. -/
theorem settle_bitRead_of_not_free {v : Movement} (h : ¬ v.Free) (s : State) (base q : Nat) :
    (settle (some v) s).mem.bitRead base q =
      if v.InDst (8 * base + q) then Config.freeBit s.freeCount (8 * base + q) else s.mem.bitRead base q := by
  rw [settle_of_not_free h]
  simp only [Memory.bitRead_scramble]
  grind

/-- A bit not in `Dst` is as the movement left it. -/
theorem settle_bitRead_of_not_inDst {v : Option Movement} {s : State} {base q : Nat}
    (h : ∀ m ∈ v, ¬ m.InDst (8 * base + q)) : (settle v s).mem.bitRead base q = s.mem.bitRead base q := by
  cases v with
  | none => rfl
  | some v =>
    by_cases hf : v.Free
    · rw [settle_of_free (by simpa using hf)]
    · rw [settle_bitRead_of_not_free hf, if_neg (by simpa using h v rfl)]

/-- A byte no bit of which is in `Dst` is as the movement left it. -/
theorem settle_read_of_disjoint (v : Option Movement) (s : State) (a : Nat)
    (h : ∀ m ∈ v, ∀ k < 8, ¬ m.InDst (8 * a + k)) : (settle v s).mem.read a = s.mem.read a := by
  cases v with
  | none => rfl
  | some v =>
    by_cases hf : v.Free
    · rw [settle_of_free (by simpa using hf)]
    · apply Memory.read_eq_of_bits
      intro k hk
      rw [settle_bitRead_of_not_free hf, if_neg (by simpa using h v rfl k hk)]

theorem settle_mem_wf {v : Option Movement} {s : State} (h : s.mem.wf) : (settle v s).mem.wf := by
  unfold settle; split; · exact h
  split
  · exact h
  · exact Memory.scramble_wf (Memory.scramble_wf h ..) ..

/-- A movement whose ranges lie in `M` leaves a memory inside `M` inside it. -/
theorem settle_mem_within {v : Option Movement} {s : State} {size : Nat} (h : s.mem.within size)
    (hv : ∀ m ∈ v, m.dst.lo ≤ m.dst.hi ∧ m.dst.hi ≤ 8 * size ∧ (m.grown.lo ≤ m.grown.hi → m.grown.hi ≤ 8 * size)) :
    (settle v s).mem.within size := by
  cases v with
  | none => exact h
  | some v =>
    by_cases hf : v.Free
    · rwa [settle_of_free (by simpa using hf)]
    · obtain ⟨h1, h2, h3⟩ := hv v rfl
      have h4 := Memory.scramble_within h s.freeCount h1 h2
      rw [settle_of_not_free hf]
      by_cases hg : v.grown.lo ≤ v.grown.hi
      · exact Memory.scramble_within h4 _ hg (h3 hg)
      · show Memory.within (Memory.writeBits _ _ _ _ (v.grown.hi - v.grown.lo)) size
        rwa [show v.grown.hi - v.grown.lo = 0 by omega]

end Sys2Proof.Machine
end

