-- ==== Sys2Proof/Laws/Commands.lean ====
section
/-! SUPPORT. What holds of every command, and what the shared parts of the commands leave. -/

namespace Sys2Proof.Machine

/-- R80: every command tests its word, then the field registers it names, then makes its own checks, and only then
performs its operation. -/
theorem exec_shape (i : Instr) (s : State) : ∃ (own : List (Option Raise)) (perform : State → State),
    exec i s = runCommand (checkLegal i :: checkDesc s (named i) :: own) perform s := by
  have legal : ∀ i : Instr, i.count? = none → ∀ l p, runCommand l p s = runCommand (checkLegal i :: l) p s := by
    intro i h l p
    rw [checkLegal_eq_none.2 (by simp [WellFormed, h]), runCommand_none_cons]
  cases i
  case get => unfold exec execGet; exact ⟨_, _, rfl⟩
  case put => unfold exec execPut; exact ⟨_, _, rfl⟩
  case rdbits => unfold exec execRdbits; exact ⟨_, _, rfl⟩
  all_goals
    simp only [exec, named, execNorm, execNeed, execEnsure, execExt2, execBit, execUint8, execUint16, execUint32,
      execUint64, readUint, execBits, execSetbit, execSetu8, execSetu16, execSetu32, execSetu64, writeUint,
      execSetbits, execRotl, execLz, execTz, execOnes, execFand, execFandn, execFor, execFxor, fieldDyadic, execFnot,
      execFrotl, execFcount, execFfill, execBand, execBandn, execBor, execBxor, execBnot, bufferDyadic]
    exact ⟨_, _, legal _ rfl _ _⟩

/-- The checks of R205 raise nothing exactly when every source is as wide as the destination and every field is in its
buffer. -/
theorem fieldChecks_eq_none {s : State} {fd : FIdx} {l : List FIdx} :
    firstRaise (fieldChecks s fd l) = none ↔
      (∀ i ∈ l, s.f[fd].width.toNat ≤ s.f[i].width.toNat) ∧
      InBuf s.f[fd] s.f[fd].pos.toNat s.f[fd].width.toNat ∧
      ∀ i ∈ l, InBuf s.f[i] s.f[i].pos.toNat s.f[fd].width.toNat := by
  rw [firstRaise_eq_none]
  simp only [fieldChecks, List.mem_append, List.mem_map, List.mem_singleton, or_imp, forall_and, forall_exists_index,
    and_imp, forall_apply_eq_imp_iff₂, forall_eq, checkBounds_eq_none, faultIf_eq_none, Nat.not_lt, and_assoc]

/-- The checks of R205 raise `BOUNDS` or nothing. -/
theorem fieldChecks_raises {s : State} {fd : FIdx} {l : List FIdx} {r : Raise} (h : some r ∈ fieldChecks s fd l) :
    r = .fault .bounds := by
  simp only [fieldChecks, List.mem_append, List.mem_map, List.mem_singleton] at h
  rcases h with (⟨i, _, h⟩ | h) | ⟨i, _, h⟩
  · exact faultIf_raises h.symm
  · exact checkBounds_raises h
  · exact checkBounds_raises h.symm

/-- R102: a register normalised `n` bits on has advanced by `n` bits. -/
theorem advanced_normalizeAt {size : MemSize} {r : FieldReg} {n : Nat} (h : DescOK size r)
    (hb : InBuf r r.pos.toNat n) : Advanced r (normalizeAt r (r.pos.toNat + n)) n := by
  have hb' : (r.pos.toNat + n + 7) / 8 ≤ r.len.toNat := hb
  obtain ⟨h1, h2, h3, h4, h5⟩ := normalizeAt_toNat h (p := r.pos.toNat + n) (by omega)
  have := h.1
  exact ⟨by omega, by simp only [absBit]; omega, by omega, by omega, h5⟩

/-- R102: a well-formed register stays so when it is normalised. -/
theorem descOK_normalizeAt {size : MemSize} {r : FieldReg} {n : Nat} (h : DescOK size r)
    (hb : InBuf r r.pos.toNat n) : DescOK size (normalizeAt r (r.pos.toNat + n)) := by
  have hb' : (r.pos.toNat + n + 7) / 8 ≤ r.len.toNat := hb
  obtain ⟨h1, h2, h3, h4, h5⟩ := normalizeAt_toNat h (p := r.pos.toNat + n) (by omega)
  have := h.bound
  constructor <;> omega

/-- R104: growth inside the capacity makes the register `Grown`. -/
theorem grown_growDo {size : MemSize} {s : State} {i : FIdx} {need : Nat} (hd : DescOK size s.f[i])
    (h : need ≤ s.f[i].cap.toNat) : Grown s.f[i] (growDo i need s).f[i] need := by
  have hb := hd.bound
  rw [growDo_f]
  refine ⟨?_, rfl, rfl, rfl, rfl⟩
  dsimp only
  split
  · rw [wordOf_of_lt (by omega)]; omega
  · omega

/-- A state that differs from another in one field register, `M` and `STATUS` alone. -/
theorem frame_setF (s : State) (i : FIdx) (r : FieldReg) : Frame s (finish (s.setF i r)) [] [i] := by
  constructor <;> simp
  intro j hj
  simp [Fin.val_ne_of_ne (Ne.symm hj)]

/-- `BitsWrite` through a field register changes no bit outside its range. -/
theorem keepsOutside_bitsWrite {s t : State} {r : FieldReg} {p w v : Nat}
    (h : t.mem = s.mem.bitsWrite r.base.toNat p w v) : KeepsOutside s t (rangeOf r p w) := by
  constructor
  · intro b hb
    simp only [BitRange.Has, rangeOf, absBit] at hb
    rw [h, Memory.bitRead_bitsWrite, if_neg (by omega)]
  · intro a ha
    rw [h]
    exact Memory.read_writeBits_of_disjoint _ _ _ _ _ _ (by simpa only [rangeOf, absBit] using ha)

end Sys2Proof.Machine
end

