-- ==== Sys2Proof/Laws/Decode.lean ====
section
/-! SUPPORT. The fields of a command word: the word has all of them, and they are all the word has. -/

namespace Sys2Proof

@[simp] theorem regF_bitsF (i : FIdx) : regF (bitsF i) = i := rfl
@[simp] theorem bitsF_regF (b : BitVec 2) : bitsF (regF b) = b := rfl
@[simp] theorem regX_bitsX (i : XIdx) : regX (bitsX i) = i := rfl
@[simp] theorem bitsX_regX (b : BitVec 3) : bitsX (regX b) = b := rfl
@[simp] theorem alignOf_bitOf (a : Align) : alignOf (bitOf a) = a := by cases a <;> rfl
@[simp] theorem bitOf_alignOf (b : BitVec 1) : bitOf (alignOf b) = b := by revert b; decide

theorem extract_append_high {a b : Nat} (x : BitVec a) (y : BitVec b) (i n : Nat) (h : b ≤ i) :
    (x ++ y).extractLsb' i n = x.extractLsb' (i - b) n := by
  apply BitVec.eq_of_getLsbD_eq
  intro k hk
  simp only [BitVec.getLsbD_extractLsb', BitVec.getLsbD_append]
  rw [if_neg (by omega)]; congr 2; omega

theorem extract_append_low {a b : Nat} (x : BitVec a) (y : BitVec b) : (x ++ y).extractLsb' 0 b = y := by
  apply BitVec.eq_of_getLsbD_eq
  intro k hk
  simp [BitVec.getLsbD_append, hk]

/-- The fields of the word made of fields are those fields. -/
theorem Fields.ofWord_toWord (f : Fields) : Fields.ofWord f.toWord = f := by
  obtain ⟨⟩ := f
  simp only [Fields.ofWord, Fields.toWord, Fields.mk.injEq]
  refine ⟨?_, ?_, ?_, ?_, ?_, ?_, ?_, ?_, ?_, ?_⟩ <;>
  · repeat rw [extract_append_high _ _ _ _ (by decide)]
    first | exact extract_append_low _ _ | simp

/-- A word is the word made of its fields. -/
theorem Fields.toWord_ofWord (w : CmdWord) : (Fields.ofWord w).toWord = w := by
  simp only [Fields.ofWord, Fields.toWord]
  apply BitVec.eq_of_getLsbD_eq
  intro i hi
  simp only [BitVec.getLsbD_append, BitVec.getLsbD_extractLsb']
  interval_cases i <;> simp

/-- What a legal word's fields are (R77, R78, R79). -/
theorem Fields.only_eq_ok {f : Fields} {u : Uses} {i j : Instr} :
    f.only u i = .ok j ↔
      f.unusedZero u ∧ f.reserved = 0 ∧ f.bo = 0 ∧ (u.n = true → f.n.toNat ≤ 64) ∧ i = j := by
  unfold Fields.only
  split_ifs <;> grind

end Sys2Proof
end

