-- ==== Sys2Proof/Laws/HostPort.lean ====
section
/-! SUPPORT. What a read of the register port gives after a register is written. -/

namespace Sys2Proof.Machine

/-- The number a scalar register is read at. -/
theorem portReg_x {r : Nat} {i : XIdx} (h : portReg r = .x i) : r = 8 + i.val := by
  unfold portReg at h; split_ifs at h
  · cases h; dsimp only; omega
  · split at h <;> cases h

/-- The number a component of a field register is read at. -/
theorem portReg_f {r : Nat} {i : FIdx} {c : Component} (h : portReg r = .f i c) : r = 16 + 8 * i.val + c.offset := by
  unfold portReg at h; split_ifs at h
  split at h
  · next c' hc =>
    cases h
    unfold componentAt at hc
    split at hc <;> simp_all [Component.offset] <;> subst hc <;> simp only <;> omega
  · cases h

/-- A component after a component is written. -/
theorem FieldReg.get_put (r : FieldReg) (c d : Component) (v : Word) :
    (r.put c v).get d = if d = c then v else r.get d := by
  cases c <;> cases d <;> rfl

/-- The port after a scalar register is written. -/
theorem hostRead_setX (s : State) (i : XIdx) (v : Word) (q : Nat) :
    hostRead q (s.setX i v) = if portReg q = .x i then v else hostRead q s := by
  unfold hostRead
  split <;> simp_all
  next j h =>
  by_cases e : j = i
  · subst e; simp
  · simp [e, Fin.val_ne_of_ne (Ne.symm e)]

/-- The port after a component of a field register is written. -/
theorem hostRead_setF (s : State) (i : FIdx) (c : Component) (v : Word) (q : Nat) :
    hostRead q (s.setF i (s.f[i].put c v)) = if portReg q = .f i c then v else hostRead q s := by
  unfold hostRead
  split <;> simp_all
  next j d h =>
  by_cases e : j = i
  · subst e; simp [FieldReg.get_put]
  · simp [e, Fin.val_ne_of_ne (Ne.symm e)]

/-- The port of a machine whose registers are all zero. -/
theorem hostRead_of_zero {s : State} (hx : ∀ i : XIdx, s.x[i] = 0) (hf : ∀ i : FIdx, s.f[i] = FieldReg.zero)
    (h1 : s.cmd = 0) (h2 : s.status = 0) (h3 : s.needlen = 0) (r : Nat) : hostRead r s = 0 := by
  unfold hostRead
  split
  · simp [h1]
  · exact h2
  · exact h3
  · exact hx _
  · next i c _ => rw [hf]; cases c <;> rfl
  · rfl

end Sys2Proof.Machine
end

