-- ==== Sys2Proof/Laws/PerInstr.lean ====
section
/-! SUPPORT. Facts about every command, one lemma per constructor of `Instr`. -/

namespace Sys2Proof.Laws

/-- The fields a well-formed command is encoded in are those the decoder reads as that command (R75). -/
def FieldsRoundTrip.Statement (i : Instr) : Prop := WellFormed i → i.fields.decode = .ok i

theorem FieldsRoundTrip.norm (fd : FIdx) : FieldsRoundTrip.Statement (.norm fd) :=
  fun _ => by simp [Instr.fields, Fields.decode, Fields.only]
theorem FieldsRoundTrip.need (xd : XIdx) (fa : FIdx) : FieldsRoundTrip.Statement (.need xd fa) :=
  fun _ => by simp [Instr.fields, Fields.decode, Fields.only]
theorem FieldsRoundTrip.ensure (fd : FIdx) : FieldsRoundTrip.Statement (.ensure fd) :=
  fun _ => by simp [Instr.fields, Fields.decode, Fields.only]
theorem FieldsRoundTrip.get (xd : XIdx) (fd : FIdx) (n : BitVec 7) : FieldsRoundTrip.Statement (.get xd fd n) :=
  fun h => by simp [Instr.fields, Fields.decode, Fields.only, show n.toNat ≤ 64 from h _ rfl]
theorem FieldsRoundTrip.put (fd : FIdx) (xs : XIdx) (n : BitVec 7) : FieldsRoundTrip.Statement (.put fd xs n) :=
  fun h => by simp [Instr.fields, Fields.decode, Fields.only, show n.toNat ≤ 64 from h _ rfl]
theorem FieldsRoundTrip.ext2 (fd fa fb : FIdx) : FieldsRoundTrip.Statement (.ext2 fd fa fb) :=
  fun _ => by simp [Instr.fields, Fields.decode, Fields.only]
theorem FieldsRoundTrip.bit (xd : XIdx) (fa : FIdx) : FieldsRoundTrip.Statement (.bit xd fa) :=
  fun _ => by simp [Instr.fields, Fields.decode, Fields.only]
theorem FieldsRoundTrip.uint8 (xd : XIdx) (fa : FIdx) : FieldsRoundTrip.Statement (.uint8 xd fa) :=
  fun _ => by simp [Instr.fields, Fields.decode, Fields.only]
theorem FieldsRoundTrip.uint16 (xd : XIdx) (fa : FIdx) : FieldsRoundTrip.Statement (.uint16 xd fa) :=
  fun _ => by simp [Instr.fields, Fields.decode, Fields.only]
theorem FieldsRoundTrip.uint32 (xd : XIdx) (fa : FIdx) : FieldsRoundTrip.Statement (.uint32 xd fa) :=
  fun _ => by simp [Instr.fields, Fields.decode, Fields.only]
theorem FieldsRoundTrip.uint64 (xd : XIdx) (fa : FIdx) : FieldsRoundTrip.Statement (.uint64 xd fa) :=
  fun _ => by simp [Instr.fields, Fields.decode, Fields.only]
theorem FieldsRoundTrip.bits (fd fa : FIdx) (align : Align) : FieldsRoundTrip.Statement (.bits fd fa align) :=
  fun _ => by simp [Instr.fields, Fields.decode, Fields.only]
theorem FieldsRoundTrip.setbit (fd : FIdx) (xs : XIdx) : FieldsRoundTrip.Statement (.setbit fd xs) :=
  fun _ => by simp [Instr.fields, Fields.decode, Fields.only]
theorem FieldsRoundTrip.setu8 (fd : FIdx) (xs : XIdx) : FieldsRoundTrip.Statement (.setu8 fd xs) :=
  fun _ => by simp [Instr.fields, Fields.decode, Fields.only]
theorem FieldsRoundTrip.setu16 (fd : FIdx) (xs : XIdx) : FieldsRoundTrip.Statement (.setu16 fd xs) :=
  fun _ => by simp [Instr.fields, Fields.decode, Fields.only]
theorem FieldsRoundTrip.setu32 (fd : FIdx) (xs : XIdx) : FieldsRoundTrip.Statement (.setu32 fd xs) :=
  fun _ => by simp [Instr.fields, Fields.decode, Fields.only]
theorem FieldsRoundTrip.setu64 (fd : FIdx) (xs : XIdx) : FieldsRoundTrip.Statement (.setu64 fd xs) :=
  fun _ => by simp [Instr.fields, Fields.decode, Fields.only]
theorem FieldsRoundTrip.setbits (fd fa : FIdx) (align : Align) : FieldsRoundTrip.Statement (.setbits fd fa align) :=
  fun _ => by simp [Instr.fields, Fields.decode, Fields.only]
theorem FieldsRoundTrip.rotl (fd fa : FIdx) (xs : XIdx) : FieldsRoundTrip.Statement (.rotl fd fa xs) :=
  fun _ => by simp [Instr.fields, Fields.decode, Fields.only]
theorem FieldsRoundTrip.lz (xd : XIdx) (fa : FIdx) : FieldsRoundTrip.Statement (.lz xd fa) :=
  fun _ => by simp [Instr.fields, Fields.decode, Fields.only]
theorem FieldsRoundTrip.tz (xd : XIdx) (fa : FIdx) : FieldsRoundTrip.Statement (.tz xd fa) :=
  fun _ => by simp [Instr.fields, Fields.decode, Fields.only]
theorem FieldsRoundTrip.ones (xd : XIdx) (fa : FIdx) : FieldsRoundTrip.Statement (.ones xd fa) :=
  fun _ => by simp [Instr.fields, Fields.decode, Fields.only]
theorem FieldsRoundTrip.rdbits (xd : XIdx) (fd : FIdx) (n : BitVec 7) : FieldsRoundTrip.Statement (.rdbits xd fd n) :=
  fun h => by simp [Instr.fields, Fields.decode, Fields.only, show n.toNat ≤ 64 from h _ rfl]
theorem FieldsRoundTrip.fand (fd fa fb : FIdx) : FieldsRoundTrip.Statement (.fand fd fa fb) :=
  fun _ => by simp [Instr.fields, Fields.decode, Fields.only]
theorem FieldsRoundTrip.fandn (fd fa fb : FIdx) : FieldsRoundTrip.Statement (.fandn fd fa fb) :=
  fun _ => by simp [Instr.fields, Fields.decode, Fields.only]
theorem FieldsRoundTrip.forr (fd fa fb : FIdx) : FieldsRoundTrip.Statement (.forr fd fa fb) :=
  fun _ => by simp [Instr.fields, Fields.decode, Fields.only]
theorem FieldsRoundTrip.fxor (fd fa fb : FIdx) : FieldsRoundTrip.Statement (.fxor fd fa fb) :=
  fun _ => by simp [Instr.fields, Fields.decode, Fields.only]
theorem FieldsRoundTrip.fnot (fd fa : FIdx) : FieldsRoundTrip.Statement (.fnot fd fa) :=
  fun _ => by simp [Instr.fields, Fields.decode, Fields.only]
theorem FieldsRoundTrip.frotl (fd fa : FIdx) (xs : XIdx) : FieldsRoundTrip.Statement (.frotl fd fa xs) :=
  fun _ => by simp [Instr.fields, Fields.decode, Fields.only]
theorem FieldsRoundTrip.fcount (xd : XIdx) (fa : FIdx) (xs : XIdx) : FieldsRoundTrip.Statement (.fcount xd fa xs) :=
  fun _ => by simp [Instr.fields, Fields.decode, Fields.only]
theorem FieldsRoundTrip.ffill (fd : FIdx) (xs : XIdx) : FieldsRoundTrip.Statement (.ffill fd xs) :=
  fun _ => by simp [Instr.fields, Fields.decode, Fields.only]
theorem FieldsRoundTrip.band (fd fa fb : FIdx) : FieldsRoundTrip.Statement (.band fd fa fb) :=
  fun _ => by simp [Instr.fields, Fields.decode, Fields.only]
theorem FieldsRoundTrip.bandn (fd fa fb : FIdx) : FieldsRoundTrip.Statement (.bandn fd fa fb) :=
  fun _ => by simp [Instr.fields, Fields.decode, Fields.only]
theorem FieldsRoundTrip.bor (fd fa fb : FIdx) : FieldsRoundTrip.Statement (.bor fd fa fb) :=
  fun _ => by simp [Instr.fields, Fields.decode, Fields.only]
theorem FieldsRoundTrip.bxor (fd fa fb : FIdx) : FieldsRoundTrip.Statement (.bxor fd fa fb) :=
  fun _ => by simp [Instr.fields, Fields.decode, Fields.only]
theorem FieldsRoundTrip.bnot (fd fa : FIdx) : FieldsRoundTrip.Statement (.bnot fd fa) :=
  fun _ => by simp [Instr.fields, Fields.decode, Fields.only]

end Sys2Proof.Laws
end

