-- ==== Sys2Proof/Machine/Assembler.lean ====
section
/-! DEFINITION. Assembler text, host transactions by register name, pseudo-commands (spec/30_encoding.md R82 to R86). -/

namespace Sys2Proof.Machine

/-- `F0` to `F3` (R82). -/
def asmF (i : FIdx) : String := "F" ++ toString i.val
/-- `X0` to `X7` (R82). -/
def asmX (i : XIdx) : String := "X" ++ toString i.val
/-- `L` or `R` (R82). -/
def asmAlign : Align → String
  | .left => "L"
  | .right => "R"

/-- The operands of a command as they are written, in the order of R75's `operands` column (R82). -/
def asmOperands : Instr → List String
  | .norm fd => [asmF fd]
  | .need xd fa => [asmX xd, asmF fa]
  | .ensure fd => [asmF fd]
  | .get xd fd n => [asmX xd, asmF fd, toString n.toNat]
  | .put fd xs n => [asmF fd, asmX xs, toString n.toNat]
  | .ext2 fd fa fb => [asmF fd, asmF fa, asmF fb]
  | .bit xd fa => [asmX xd, asmF fa]
  | .uint8 xd fa => [asmX xd, asmF fa]
  | .uint16 xd fa => [asmX xd, asmF fa]
  | .uint32 xd fa => [asmX xd, asmF fa]
  | .uint64 xd fa => [asmX xd, asmF fa]
  | .bits fd fa align => [asmF fd, asmF fa, asmAlign align]
  | .setbit fd xs => [asmF fd, asmX xs]
  | .setu8 fd xs => [asmF fd, asmX xs]
  | .setu16 fd xs => [asmF fd, asmX xs]
  | .setu32 fd xs => [asmF fd, asmX xs]
  | .setu64 fd xs => [asmF fd, asmX xs]
  | .setbits fd fa align => [asmF fd, asmF fa, asmAlign align]
  | .rotl fd fa xs => [asmF fd, asmF fa, asmX xs]
  | .lz xd fa => [asmX xd, asmF fa]
  | .tz xd fa => [asmX xd, asmF fa]
  | .ones xd fa => [asmX xd, asmF fa]
  | .rdbits xd fd n => [asmX xd, asmF fd, toString n.toNat]
  | .fand fd fa fb => [asmF fd, asmF fa, asmF fb]
  | .fandn fd fa fb => [asmF fd, asmF fa, asmF fb]
  | .forr fd fa fb => [asmF fd, asmF fa, asmF fb]
  | .fxor fd fa fb => [asmF fd, asmF fa, asmF fb]
  | .fnot fd fa => [asmF fd, asmF fa]
  | .frotl fd fa xs => [asmF fd, asmF fa, asmX xs]
  | .fcount xd fa xs => [asmX xd, asmF fa, asmX xs]
  | .ffill fd xs => [asmF fd, asmX xs]
  | .band fd fa fb => [asmF fd, asmF fa, asmF fb]
  | .bandn fd fa fb => [asmF fd, asmF fa, asmF fb]
  | .bor fd fa fb => [asmF fd, asmF fa, asmF fb]
  | .bxor fd fa fb => [asmF fd, asmF fa, asmF fb]
  | .bnot fd fa => [asmF fd, asmF fa]

/-- A command as it is written: `MNEMONIC operand, operand, ...` (R82). -/
def asm (i : Instr) : String := i.mnemonic ++ " " ++ ", ".intercalate (asmOperands i)

/-- `WR CMD, <its word>`: what a line that is just a command stands for (R83). -/
def asmCommand (i : Instr) : List HostOp := [commandWrite (encode i)]

/-- `LI Xi, v` (R84). -/
def asmLi (i : XIdx) (v : Word) : List HostOp := [.write (xNumber i) v]

/-- `SETF Fi, base, len, cap, pos, width` (R84). -/
def asmSetf (i : FIdx) (base len cap pos width : Word) : List HostOp :=
  [.write (fNumber i .base) base, .write (fNumber i .len) len, .write (fNumber i .cap) cap,
   .write (fNumber i .pos) pos, .write (fNumber i .width) width]

/-- `BUF Fi, base, len, cap` (R84). -/
def asmBuf (i : FIdx) (base len cap : Word) : List HostOp := asmSetf i base len cap 0 0

/-- `EMPTY Fi` (R84): the empty buffer of R26. -/
def asmEmpty (i : FIdx) : List HostOp := asmSetf i 0 0 0 0 0

/-- A state whose host is about to run a program (R86) from the transactions given. -/
def State.withProgram (s : State) (program : List HostOp) : State := { s with host := program }

end Sys2Proof.Machine
end

