-- ==== Sys2Proof/Tests/Slice0.lean ====
section
/-! SUPPORT. Tests of single definitions and single steps, and a witness for every statement with hypotheses. -/

namespace Sys2Proof.Tests

-- One theorem after another: together the kernel evaluations below need more threads than a small machine has.
set_option Elab.async false
open Sys2Proof.Machine

/-- The machine of spec/95_test_vectors.md: reset, but for runs of bytes of `M` and registers. -/
def world (mem : List (Nat × List Byte)) (f : List (FIdx × FieldReg)) (x : List (XIdx × Word)) : State :=
  let m := mem.foldl (fun (m : Memory) r => m.writeBytes r.1 (fun i => r.2.getD i 0) r.2.length) ([] : Memory)
  let s := f.foldl (fun s r => s.setF r.1 r.2) (State.reset.setMem m)
  x.foldl (fun s r => s.setX r.1 r.2) s

/-- `n` bytes of `M`. -/
def bytes (s : State) (a n : Nat) : List Byte := (List.range n).map fun i => s.mem.read (a + i)

/-- The step answers a next state of which `p` holds. -/
def answers (o : Host.Outcome State Fault Refusal) (p : State → Bool) : Bool :=
  match o with
  | .next t => p t
  | _ => false

/-- The host issues the word, and `p` holds of the state after it. -/
def issued (w : CmdWord) (s : State) (p : State → Bool) : Bool := answers (step (s.withCommand w)) p


/-! ### Well-formedness: each check refuses a term -/

theorem test_wf_get_refuses_65 : ¬ WellFormed (.get 0 0 65) := by decide +kernel
theorem test_wf_put_refuses_65 : ¬ WellFormed (.put 0 0 65) := by decide +kernel
theorem test_wf_rdbits_refuses_127 : ¬ WellFormed (.rdbits 0 0 127) := by decide +kernel
theorem test_wf_accepts_64 : WellFormed (.get 0 0 64) ∧ WellFormed (.put 0 0 64) ∧ WellFormed (.rdbits 0 0 64) := by
  decide +kernel

/-! ### Decoding: a word of every command, laid out from R71; illegal words (R79, spec/95_test_vectors.md) -/

theorem test_decode_norm : decode 0x10C00000 = .ok (.norm 3) ∧ encode (.norm 3) = 0x10C00000 := by decide +kernel
theorem test_decode_need : decode 0x11228000 = .ok (.need 5 2) ∧ encode (.need 5 2) = 0x11228000 := by decide +kernel
theorem test_decode_ensure : decode 0x12800000 = .ok (.ensure 2) ∧ encode (.ensure 2) = 0x12800000
    := by decide +kernel
theorem test_decode_get : decode 0x204100A0 = .ok (.get 2 1 5) ∧ encode (.get 2 1 5) = 0x204100A0 := by decide +kernel
theorem test_decode_put : decode 0x21806800 = .ok (.put 2 6 64) ∧ encode (.put 2 6 64) = 0x21806800
    := by decide +kernel
theorem test_decode_ext2 : decode 0x286C0000 = .ok (.ext2 1 2 3) ∧ encode (.ext2 1 2 3) = 0x286C0000
    := by decide +kernel
theorem test_decode_bit : decode 0x30130000 = .ok (.bit 6 1) ∧ encode (.bit 6 1) = 0x30130000 := by decide +kernel
theorem test_decode_uint8 : decode 0x31328000 = .ok (.uint8 5 3) ∧ encode (.uint8 5 3) = 0x31328000
    := by decide +kernel
theorem test_decode_uint16 : decode 0x32220000 = .ok (.uint16 4 2) ∧ encode (.uint16 4 2) = 0x32220000
    := by decide +kernel
theorem test_decode_uint32 : decode 0x33118000 = .ok (.uint32 3 1) ∧ encode (.uint32 3 1) = 0x33118000
    := by decide +kernel
theorem test_decode_uint64 : decode 0x34238000 = .ok (.uint64 7 2) ∧ encode (.uint64 7 2) = 0x34238000
    := by decide +kernel
theorem test_decode_bits : decode 0x35600010 = .ok (.bits 1 2 .right) ∧ encode (.bits 1 2 .right) = 0x35600010
    := by decide +kernel
theorem test_decode_setbit : decode 0x38C05000 = .ok (.setbit 3 5) ∧ encode (.setbit 3 5) = 0x38C05000
    := by decide +kernel
theorem test_decode_setu8 : decode 0x39806000 = .ok (.setu8 2 6) ∧ encode (.setu8 2 6) = 0x39806000
    := by decide +kernel
theorem test_decode_setu16 : decode 0x3A403000 = .ok (.setu16 1 3) ∧ encode (.setu16 1 3) = 0x3A403000
    := by decide +kernel
theorem test_decode_setu32 : decode 0x3BC04000 = .ok (.setu32 3 4) ∧ encode (.setu32 3 4) = 0x3BC04000
    := by decide +kernel
theorem test_decode_setu64 : decode 0x3C801000 = .ok (.setu64 2 1) ∧ encode (.setu64 2 1) = 0x3C801000
    := by decide +kernel
theorem test_decode_setbits : decode 0x3DB00000 = .ok (.setbits 2 3 .left) ∧ encode (.setbits 2 3 .left) = 0x3DB00000
    := by decide +kernel
theorem test_decode_rotl : decode 0x40706000 = .ok (.rotl 1 3 6) ∧ encode (.rotl 1 3 6) = 0x40706000
    := by decide +kernel
theorem test_decode_lz : decode 0x48230000 = .ok (.lz 6 2) ∧ encode (.lz 6 2) = 0x48230000 := by decide +kernel
theorem test_decode_tz : decode 0x49118000 = .ok (.tz 3 1) ∧ encode (.tz 3 1) = 0x49118000 := by decide +kernel
theorem test_decode_ones : decode 0x4A328000 = .ok (.ones 5 3) ∧ encode (.ones 5 3) = 0x4A328000 := by decide +kernel
theorem test_decode_rdbits : decode 0x50808420 = .ok (.rdbits 1 2 33) ∧ encode (.rdbits 1 2 33) = 0x50808420
    := by decide +kernel
theorem test_decode_fand : decode 0x51D80000 = .ok (.fand 3 1 2) ∧ encode (.fand 3 1 2) = 0x51D80000
    := by decide +kernel
theorem test_decode_fandn : decode 0x529C0000 = .ok (.fandn 2 1 3) ∧ encode (.fandn 2 1 3) = 0x529C0000
    := by decide +kernel
theorem test_decode_forr : decode 0x53780000 = .ok (.forr 1 3 2) ∧ encode (.forr 1 3 2) = 0x53780000
    := by decide +kernel
theorem test_decode_fxor : decode 0x54B40000 = .ok (.fxor 2 3 1) ∧ encode (.fxor 2 3 1) = 0x54B40000
    := by decide +kernel
theorem test_decode_fnot : decode 0x55E00000 = .ok (.fnot 3 2) ∧ encode (.fnot 3 2) = 0x55E00000 := by decide +kernel
theorem test_decode_frotl : decode 0x56605000 = .ok (.frotl 1 2 5) ∧ encode (.frotl 1 2 5) = 0x56605000
    := by decide +kernel
theorem test_decode_fcount : decode 0x5711A000 = .ok (.fcount 3 1 2) ∧ encode (.fcount 3 1 2) = 0x5711A000
    := by decide +kernel
theorem test_decode_ffill : decode 0x58803000 = .ok (.ffill 2 3) ∧ encode (.ffill 2 3) = 0x58803000
    := by decide +kernel
theorem test_decode_band : decode 0x606C0000 = .ok (.band 1 2 3) ∧ encode (.band 1 2 3) = 0x606C0000
    := by decide +kernel
theorem test_decode_bandn : decode 0x61E40000 = .ok (.bandn 3 2 1) ∧ encode (.bandn 3 2 1) = 0x61E40000
    := by decide +kernel
theorem test_decode_bor : decode 0x629C0000 = .ok (.bor 2 1 3) ∧ encode (.bor 2 1 3) = 0x629C0000 := by decide +kernel
theorem test_decode_bxor : decode 0x63D80000 = .ok (.bxor 3 1 2) ∧ encode (.bxor 3 1 2) = 0x63D80000
    := by decide +kernel
theorem test_decode_bnot : decode 0x64700000 = .ok (.bnot 1 3) ∧ encode (.bnot 1 3) = 0x64700000 := by decide +kernel
theorem test_decode_illegal :
    [(0x00000000, Reject.unknownOpcode), (0x13000000, .unknownOpcode), (0x65000000, .unknownOpcode),
     (0xFF000000, .unknownOpcode), (0x20000820, .countTooLarge), (0x20410FE0, .countTooLarge),
     (0x20408808, .littleEndian), (0x204100A4, .reservedBits), (0x10400001, .reservedBits), (0x10500000, .unusedField),
     (0x35101010, .unusedField)].all (fun r => decide (decode r.1 = .error r.2)) = true := by decide +kernel
theorem test_decodeTableWord : decodeTableWord 32 0x28180000 = some (.ext2 0 1 2) ∧ decodeTableWord 32 0 = none := by
  decide +kernel

/-! ### The machine: reset, the register port, the faulted state -/

theorem test_reset_mem_wf : State.reset.mem.wf ∧ State.reset.mem.within State.reset.memBytes.val := by decide +kernel
/-- The first instruction after reset. -/
theorem test_reset_runs_the_fetched_word :
    answers (step (State.reset.withFetchWord 32 0x11218000)) (fun t => t.cmd == 0x11218000 && t.status == 0) = true := by
  decide +kernel
/-- Program P6 of spec/95_test_vectors.md, its fault: a write is ignored, a read works, reset leaves the state. -/
theorem test_fault_is_sticky :
    answers (step { State.reset with status := 0x13, host := [.write 10 0x99] })
      (fun t => t.x[2] == 0 && t.status == 0x13 && t.faultO) = true ∧
    answers (step { State.reset with status := 0x13, host := [.read 1] }) (fun t => t.portOut == some 0x13) = true ∧
    answers (step { State.reset with status := 0x13, host := [.reset] }) (fun t => t.status == 0 && !t.faultO) = true := by
  decide +kernel
/-- R252, R258: an illegal word that names an ill-formed register ends `ILLEGAL_CMD`. -/
theorem test_illegal_before_descriptor :
    issued 0x20410820 (world [] [(1, ⟨0x10, 4, 3, 0, 0⟩)] []) (fun t => t.status == 0x43 && t.cmd == 0x20410820) = true := by
  decide +kernel
/-- R253, spec/95_test_vectors.md: storage that ends at the end of `M` is legal, one byte more is not. -/
theorem test_descriptor_boundary :
    issued 0x204100A0 (world [(0xF8, [0xB4])] [(1, ⟨248, 8, 8, 0, 0⟩)] []) (fun t => t.status == 0 && t.x[2] == 0x16)
      = true ∧
    issued 0x204100A0 (world [] [(1, ⟨257, 0, 0, 0, 0⟩)] []) (fun t => t.status == 0x53) = true := by decide +kernel
/-- R84: `SETF` loads the five components. -/
theorem test_setf :
    (asmSetf 2 0x10 3 4 5 6).foldl (fun s t => if answers (transact t s) (fun _ => true) then
      (match transact t s with | .next t => t | _ => s) else s) State.reset =
    State.reset.setF 2 ⟨0x10, 3, 4, 5, 6⟩ := by decide +kernel
/-- R82, R85. -/
theorem test_asm : asm (.get 2 1 5) = "GET X2, F1, 5" ∧ asm (.bits 0 1 .right) = "BITS F0, F1, R" := by decide +kernel

/-! ### Single commands, from the vectors of spec/95_test_vectors.md and the examples of the rules -/

theorem test_norm_moves_the_reference :
    issued 0x10400000 (world [] [(1, ⟨0x40, 0x10, 0x20, 0x1d, 5⟩)] [])
      (fun t => t.status == 0 && t.f[1] == ⟨0x43, 0xd, 0x1d, 5, 5⟩) = true := by decide +kernel
theorem test_norm_beyond_end_faults :
    issued 0x10400000 (world [] [(1, ⟨0x42, 2, 4, 0x11, 0⟩)] [])
      (fun t => t.status == 0x13 && t.f[1] == ⟨0x42, 2, 4, 0x11, 0⟩) = true := by decide +kernel
theorem test_need_rounds_up :
    issued 0x11218000 (world [] [(2, ⟨0, 0, 0, 0xe, 5⟩)] [])
      (fun t => t.status == 0 && t.x[3] == 3) = true := by decide +kernel
theorem test_need_sum_does_not_wrap :
    issued 0x11218000 (world [] [(2, ⟨0, 0, 0, 0xffffffffffffffff, 0xffffffffffffffff⟩)] [])
      (fun t => t.status == 0 && t.x[3] == 0x4000000000000000) = true := by decide +kernel
theorem test_ensure_zero_fills :
    issued 0x12000000 (world [(0x40, [0xAA, 0xBB, 0xCC, 0xDD])] [(0, ⟨0x40, 2, 8, 0xe, 5⟩)] [])
      (fun t => t.status == 0 && t.f[0] == ⟨0x40, 3, 8, 0xe, 5⟩ && bytes t 0x40 4 == [0xAA, 0xBB, 0x00,
        0xDD]) = true := by decide +kernel
theorem test_ensure_asks_for_growth :
    issued 0x12000000 (world [(0x40, [0xAA, 0xBB, 0xCC, 0xDD])] [(0, ⟨0x40, 2, 2, 0xe, 5⟩)] [])
      (fun t => t.status == 2 && t.f[0] == ⟨0x40, 2, 2, 0xe, 5⟩ && bytes t 0x40 4 == [0xAA, 0xBB, 0xCC, 0xDD] &&
        t.needlen == 3) = true := by decide +kernel
theorem test_get_five_bits_over_a_byte_edge :
    issued 0x204100A0 (world [(0x10, [0xB4, 0x6D, 0xCA])] [(1, ⟨0x10, 3, 3, 0xe, 5⟩)] [(2, 0x5555)])
      (fun t => t.status == 0 && t.x[2] == 0xe && t.f[1] == ⟨0x12, 1, 1, 3, 5⟩) = true := by decide +kernel
theorem test_get_64_bits_from_nine_bytes :
    issued 0x20400800 (world [(0x10, [0x12, 0x34, 0x56, 0x78, 0x9A, 0xBC, 0xDE, 0xF0, 0x0F])] [(1, ⟨0x10, 9, 9, 3,
        0⟩)] [(0, 0x5555)])
      (fun t => t.status == 0 && t.x[0] == 0x91a2b3c4d5e6f780 && t.f[1] == ⟨0x18, 1, 1, 3,
        0⟩) = true := by decide +kernel
theorem test_put_keeps_neighbours :
    issued 0x21001080 (world [(0x20, [0xFF, 0xFF])] [(0, ⟨0x20, 2, 2, 6, 0⟩)] [(1, 0)])
      (fun t => t.status == 0 && bytes t 0x20 2 == [0xFC, 0x3F] && t.f[0] == ⟨0x21, 1, 1, 2,
        0⟩) = true := by decide +kernel
theorem test_put_never_grows :
    issued 0x21001060 (world [(0x20, [0xFF, 0xFF])] [(0, ⟨0x20, 1, 2, 6, 0⟩)] [(1, 0)])
      (fun t => t.status == 0x13 && bytes t 0x20 2 == [0xFF, 0xFF] && t.f[0] == ⟨0x20, 1, 2, 6,
        0⟩) = true := by decide +kernel
theorem test_ext2_spans_the_seam :
    issued 0x28180000 (world [(0x10, [0xB4, 0x6D, 0xCA]), (0x20, [0x0F, 0xF0]), (0x30, [0xEE, 0xEE, 0xEE,
        0xEE])] [(0, ⟨0x30, 2, 4, 0, 0⟩), (1, ⟨0x10, 3, 3, 0xe, 0⟩), (2, ⟨0x20, 2, 2, 0, 0⟩)] [])
      (fun t => t.status == 0 && bytes t 0x30 4 == [0x72, 0x83, 0xEE, 0xEE] && t.f[0] == ⟨0x30, 2, 4, 0, 0⟩ &&
        t.f[1] == ⟨0x10, 3, 3, 0xe, 0⟩) = true := by decide +kernel
theorem test_ext2_past_both_faults :
    issued 0x28180000 (world [(0x10, [0xB4, 0x6D, 0xCA]), (0x20, [0x0F, 0xF0]), (0x30, [0xEE, 0xEE, 0xEE,
        0xEE])] [(0, ⟨0x30, 4, 4, 0, 0⟩), (1, ⟨0x10, 3, 3, 9, 0⟩), (2, ⟨0x20, 2, 2, 0, 0⟩)] [])
      (fun t => t.status == 0x13 && bytes t 0x30 4 == [0xEE, 0xEE, 0xEE, 0xEE] && t.f[0] == ⟨0x30, 4, 4, 0, 0⟩ &&
        t.f[1] == ⟨0x10, 3, 3, 9, 0⟩) = true := by decide +kernel
theorem test_bit_reads_the_last_bit_of_a_byte :
    issued 0x30100000 (world [(0x10, [0xB4, 0x6D, 0xCA])] [(1, ⟨0x10, 3, 9, 0xf, 0⟩)] [(0, 0x5555)])
      (fun t => t.status == 0 && t.x[0] == 1 && t.f[1] == ⟨0x10, 3, 9, 0xf, 0⟩) = true := by decide +kernel
theorem test_bit_past_the_end_faults :
    issued 0x30100000 (world [(0x10, [0xB4, 0x6D, 0xCA])] [(1, ⟨0x10, 3, 9, 0x18, 0⟩)] [(0, 0x5555)])
      (fun t => t.status == 0x13 && t.x[0] == 0x5555 && t.f[1] == ⟨0x10, 3, 9, 0x18, 0⟩) = true := by decide +kernel
theorem test_uint8_over_a_byte_edge :
    issued 0x31100000 (world [(0x10, [0xB4, 0x6D, 0xCA])] [(1, ⟨0x10, 3, 9, 0xe, 0⟩)] [(0, 0x5555)])
      (fun t => t.status == 0 && t.x[0] == 0x72 && t.f[1] == ⟨0x10, 3, 9, 0xe, 0⟩) = true := by decide +kernel
theorem test_uint16_at_a_sub_byte_offset :
    issued 0x32100000 (world [(0x10, [0xB4, 0x6D, 0xCA])] [(1, ⟨0x10, 3, 9, 4, 0⟩)] [(0, 0x5555)])
      (fun t => t.status == 0 && t.x[0] == 0x46dc && t.f[1] == ⟨0x10, 3, 9, 4, 0⟩) = true := by decide +kernel
theorem test_uint16_past_the_end_faults :
    issued 0x32100000 (world [(0x10, [0xB4, 0x6D, 0xCA])] [(1, ⟨0x10, 3, 9, 9, 0⟩)] [(0, 0x5555)])
      (fun t => t.status == 0x13 && t.x[0] == 0x5555 && t.f[1] == ⟨0x10, 3, 9, 9, 0⟩) = true := by decide +kernel
theorem test_uint32_at_a_sub_byte_offset :
    issued 0x33128000 (world [(0x10, [0x12, 0x34, 0x56, 0x78, 0x9A, 0xBC, 0xDE, 0xF0, 0x0F])] [(1, ⟨0x10, 9, 9, 4,
        0⟩)] [(5, 0x5555)])
      (fun t => t.status == 0 && t.x[5] == 0x23456789 && t.f[1] == ⟨0x10, 9, 9, 4, 0⟩) = true := by decide +kernel
theorem test_uint64_from_nine_bytes :
    issued 0x34128000 (world [(0x10, [0x12, 0x34, 0x56, 0x78, 0x9A, 0xBC, 0xDE, 0xF0, 0x0F])] [(1, ⟨0x10, 9, 9, 4,
        0⟩)] [(5, 0x5555)])
      (fun t => t.status == 0 && t.x[5] == 0x23456789abcdef00 && t.f[1] == ⟨0x10, 9, 9, 4,
        0⟩) = true := by decide +kernel
theorem test_bits_left_pads_after :
    issued 0x35100000 (world [(0x10, [0xB4, 0x6D, 0xCA]), (0x30, [0xEE, 0xEE, 0xEE, 0xEE])] [(0, ⟨0x30, 3, 4, 0,
        0⟩), (1, ⟨0x10, 3, 3, 6, 0xc⟩)] [])
      (fun t => t.status == 0 && bytes t 0x30 4 == [0x1B, 0x70, 0xEE, 0xEE] && t.f[0] == ⟨0x30, 3, 4, 0,
        0⟩) = true := by decide +kernel
theorem test_bits_right_pads_before_and_grows :
    issued 0x35100010 (world [(0x10, [0xB4, 0x6D, 0xCA]), (0x30, [0xEE, 0xEE, 0xEE, 0xEE])] [(0, ⟨0x30, 1, 4, 0,
        0⟩), (1, ⟨0x10, 3, 3, 3, 9⟩)] [])
      (fun t => t.status == 0 && bytes t 0x30 4 == [0x01, 0x46, 0xEE, 0xEE] && t.f[0] == ⟨0x30, 2, 4, 0,
        0⟩) = true := by decide +kernel
theorem test_setbit_uses_bit_0_of_the_value :
    issued 0x38001000 (world [(0x20, [0xFF, 0xFF])] [(0, ⟨0x20, 2, 2, 9, 0⟩)] [(1, 2)])
      (fun t => t.status == 0 && bytes t 0x20 2 == [0xFF, 0xBF] && t.f[0] == ⟨0x20, 2, 2, 9,
        0⟩) = true := by decide +kernel
theorem test_setbit_grows :
    issued 0x38001000 (world [(0x20, [0x11, 0x99])] [(0, ⟨0x20, 1, 2, 8, 0⟩)] [(1, 1)])
      (fun t => t.status == 0 && bytes t 0x20 2 == [0x11, 0x80] && t.f[0] == ⟨0x20, 2, 2, 8,
        0⟩) = true := by decide +kernel
theorem test_setu8_grows_and_zero_fills :
    issued 0x39002000 (world [(0x20, [0x11, 0x99, 0x99, 0x99])] [(0, ⟨0x20, 1, 4, 0xc, 0⟩)] [(2, 0x1ab)])
      (fun t => t.status == 0 && bytes t 0x20 4 == [0x11, 0x0A, 0xB0, 0x99] && t.f[0] == ⟨0x20, 3, 4, 0xc,
        0⟩) = true := by decide +kernel
theorem test_setu16_ignores_high_bits :
    issued 0x3A002000 (world [(0x20, [0x00, 0x00, 0x00, 0x00])] [(0, ⟨0x20, 4, 4, 4, 0⟩)] [(2, 0xdeadbeef)])
      (fun t => t.status == 0 && bytes t 0x20 4 == [0x0B, 0xEE, 0xF0, 0x00] && t.f[0] == ⟨0x20, 4, 4, 4,
        0⟩) = true := by decide +kernel
theorem test_setu32_keeps_bits_outside :
    issued 0x3B002000 (world [(0x20, [0xFF, 0xFF, 0xFF, 0xFF, 0xFF])] [(0, ⟨0x20, 5, 5, 1, 0⟩)] [(2, 0)])
      (fun t => t.status == 0 && bytes t 0x20 5 == [0x80, 0x00, 0x00, 0x00, 0x7F] && t.f[0] == ⟨0x20, 5, 5, 1,
        0⟩) = true := by decide +kernel
theorem test_setu64_over_nine_grown_bytes :
    issued 0x3C002000 (world [(0x20, [0x99, 0x99, 0x99, 0x99, 0x99, 0x99, 0x99, 0x99, 0x99, 0x99])] [(0, ⟨0x20, 0,
        0x10, 7, 0⟩)] [(2, 0x8000000000000001)])
      (fun t => t.status == 0 && bytes t 0x20 10 == [0x01, 0x00, 0x00, 0x00, 0x00, 0x00, 0x00, 0x00, 0x02, 0x99] &&
        t.f[0] == ⟨0x20, 9, 0x10, 7, 0⟩) = true := by decide +kernel
theorem test_setu64_asks_for_growth :
    issued 0x3C002000 (world [(0x20, [0x99, 0x99, 0x99, 0x99, 0x99, 0x99, 0x99, 0x99, 0x99, 0x99])] [(0, ⟨0x20, 0,
        4, 7, 0⟩)] [(2, 0x8000000000000001)])
      (fun t => t.status == 2 && bytes t 0x20 10 == [0x99, 0x99, 0x99, 0x99, 0x99, 0x99, 0x99, 0x99, 0x99, 0x99] &&
        t.f[0] == ⟨0x20, 0, 4, 7, 0⟩ && t.needlen == 9) = true := by decide +kernel
theorem test_setbits_of_width_0_grows :
    issued 0x3D100000 (world [(0x20, [0x55, 0x77, 0x77, 0x77])] [(0, ⟨0x20, 1, 4, 0x10, 0⟩), (1, ⟨0x10, 0, 4, 0,
        0⟩)] [])
      (fun t => t.status == 0 && bytes t 0x20 4 == [0x55, 0x00, 0x77, 0x77] && t.f[0] == ⟨0x20, 2, 4, 0x10,
        0⟩) = true := by decide +kernel
theorem test_setbits_right_aligned_source :
    issued 0x3D100010 (world [(0x20, [0xFF, 0xFF, 0xFF]), (0x10, [0x01, 0xB7])] [(0, ⟨0x20, 3, 3, 6, 0xc⟩), (1,
        ⟨0x10, 2, 4, 0, 0⟩)] [])
      (fun t => t.status == 0 && bytes t 0x20 3 == [0xFC, 0x6D, 0xFF] && t.f[0] == ⟨0x20, 3, 3, 6,
        0xc⟩) = true := by decide +kernel
theorem test_rotl_by_the_least_amount :
    issued 0x40103000 (world [(0x10, [0xB4, 0x6D, 0xCA]), (0x30, [0xEE, 0xEE, 0xEE, 0xEE])] [(0, ⟨0x30, 3, 3, 0,
        0⟩), (1, ⟨0x10, 3, 3, 0, 0⟩)] [(3, 0x8000000000000000)])
      (fun t => t.status == 0 && bytes t 0x30 4 == [0xCA, 0xB4, 0x6D, 0xEE] && t.f[0] == ⟨0x30, 3, 3, 0,
        0⟩) = true := by decide +kernel
theorem test_rotl_in_place :
    issued 0x40103000 (world [(0x10, [0xB4, 0x6D, 0xCA])] [(0, ⟨0x10, 3, 3, 0, 0⟩), (1, ⟨0x10, 3, 3, 0, 0⟩)] [(3,
        0xfffffffffffffffd)])
      (fun t => t.status == 0 && bytes t 0x10 3 == [0x56, 0x8D, 0xB9]) = true := by decide +kernel
theorem test_lz_of_zeros :
    issued 0x48120000 (world [(0x10, [0x00, 0x00, 0x00])] [(1, ⟨0x10, 3, 3, 5, 3⟩)] [(4, 0x5555)])
      (fun t => t.status == 0 && t.x[4] == 0x18 && t.f[1] == ⟨0x10, 3, 3, 5, 3⟩) = true := by decide +kernel
theorem test_tz_of_zeros :
    issued 0x49120000 (world [(0x10, [0x00, 0x00, 0x00])] [(1, ⟨0x10, 3, 3, 5, 3⟩)] [(4, 0x5555)])
      (fun t => t.status == 0 && t.x[4] == 0x18 && t.f[1] == ⟨0x10, 3, 3, 5, 3⟩) = true := by decide +kernel
theorem test_ones_of_zeros :
    issued 0x4A120000 (world [(0x10, [0x00, 0x00, 0x00])] [(1, ⟨0x10, 3, 3, 5, 3⟩)] [(4, 0x5555)])
      (fun t => t.status == 0 && t.x[4] == 0 && t.f[1] == ⟨0x10, 3, 3, 5, 3⟩) = true := by decide +kernel
theorem test_lz_of_a_single_one :
    issued 0x48120000 (world [(0x10, [0x00, 0x10, 0x00])] [(1, ⟨0x10, 3, 3, 5, 3⟩)] [(4, 0x5555)])
      (fun t => t.status == 0 && t.x[4] == 0xb && t.f[1] == ⟨0x10, 3, 3, 5, 3⟩) = true := by decide +kernel
theorem test_tz_of_a_single_one :
    issued 0x49120000 (world [(0x10, [0x00, 0x10, 0x00])] [(1, ⟨0x10, 3, 3, 5, 3⟩)] [(4, 0x5555)])
      (fun t => t.status == 0 && t.x[4] == 0xc && t.f[1] == ⟨0x10, 3, 3, 5, 3⟩) = true := by decide +kernel
theorem test_ones_of_a_single_one :
    issued 0x4A120000 (world [(0x10, [0x00, 0x10, 0x00])] [(1, ⟨0x10, 3, 3, 5, 3⟩)] [(4, 0x5555)])
      (fun t => t.status == 0 && t.x[4] == 1 && t.f[1] == ⟨0x10, 3, 3, 5, 3⟩) = true := by decide +kernel
theorem test_rdbits_consumes :
    issued 0x508080C0 (world [(0x10, [0xB4, 0x6D])] [(2, ⟨0x10, 2, 2, 3, 0xa⟩)] [(1, 0x5555)])
      (fun t => t.status == 0 && t.x[1] == 0x28 && t.f[2] == ⟨0x10, 2, 2, 9, 4⟩) = true := by decide +kernel
theorem test_rdbits_past_the_width_ends_the_field :
    issued 0x508080C0 (world [(0x10, [0xB4, 0x6D])] [(2, ⟨0x10, 2, 2, 9, 4⟩)] [(1, 0x5555)])
      (fun t => t.status == 1 && t.x[1] == 0x5555 && t.f[2] == ⟨0x10, 2, 2, 9, 4⟩) = true := by decide +kernel
theorem test_fand_keeps_bits_outside :
    issued 0x51180000 (world [(0x10, [0xFF, 0x0F, 0xAA]), (0x20, [0xF0, 0xFF, 0x55]), (0x30, [0xFF, 0xFF,
        0xFF])] [(0, ⟨0x30, 3, 3, 5, 0xd⟩), (1, ⟨0x10, 3, 3, 2, 0xe⟩), (2, ⟨0x20, 3, 3, 7, 0xd⟩)] [])
      (fun t => t.status == 0 && bytes t 0x30 3 == [0xFB, 0xE1, 0x7F] && t.f[0] == ⟨0x30, 3, 3, 5,
        0xd⟩) = true := by decide +kernel
theorem test_fandn_keeps_the_first_source :
    issued 0x52180000 (world [(0x10, [0xFF, 0x0F, 0xAA]), (0x20, [0xF0, 0xFF, 0x55]), (0x30, [0xFF, 0xFF,
        0xFF])] [(0, ⟨0x30, 3, 3, 5, 0xd⟩), (1, ⟨0x10, 3, 3, 2, 0xe⟩), (2, ⟨0x20, 3, 3, 7, 0xd⟩)] [])
      (fun t => t.status == 0 && bytes t 0x30 3 == [0xFC, 0x00, 0xBF] && t.f[0] == ⟨0x30, 3, 3, 5,
        0xd⟩) = true := by decide +kernel
theorem test_for_into_zeros :
    issued 0x53180000 (world [(0x10, [0xFF, 0x0F, 0xAA]), (0x20, [0xF0, 0xFF, 0x55]), (0x30, [0x00, 0x00,
        0x00])] [(0, ⟨0x30, 3, 3, 5, 0xd⟩), (1, ⟨0x10, 3, 3, 2, 0xe⟩), (2, ⟨0x20, 3, 3, 7, 0xd⟩)] [])
      (fun t => t.status == 0 && bytes t 0x30 3 == [0x07, 0xFD, 0xC0] && t.f[0] == ⟨0x30, 3, 3, 5,
        0xd⟩) = true := by decide +kernel
theorem test_fxor_keeps_bits_outside :
    issued 0x54180000 (world [(0x10, [0xFF, 0x0F, 0xAA]), (0x20, [0xF0, 0xFF, 0x55]), (0x30, [0xFF, 0xFF,
        0xFF])] [(0, ⟨0x30, 3, 3, 5, 0xd⟩), (1, ⟨0x10, 3, 3, 2, 0xe⟩), (2, ⟨0x20, 3, 3, 7, 0xd⟩)] [])
      (fun t => t.status == 0 && bytes t 0x30 3 == [0xFC, 0x1C, 0xBF] && t.f[0] == ⟨0x30, 3, 3, 5,
        0xd⟩) = true := by decide +kernel
theorem test_fnot_keeps_bits_outside :
    issued 0x55100000 (world [(0x10, [0xFF, 0x0F, 0xAA]), (0x20, [0xF0, 0xFF, 0x55]), (0x30, [0xFF, 0xFF,
        0xFF])] [(0, ⟨0x30, 3, 3, 5, 0xd⟩), (1, ⟨0x10, 3, 3, 2, 0xe⟩), (2, ⟨0x20, 3, 3, 7, 0xd⟩)] [])
      (fun t => t.status == 0 && bytes t 0x30 3 == [0xF8, 0x1E, 0x3F] && t.f[0] == ⟨0x30, 3, 3, 5,
        0xd⟩) = true := by decide +kernel
theorem test_fand_narrow_source_faults :
    issued 0x51180000 (world [(0x10, [0xFF, 0x0F, 0xAA]), (0x20, [0xF0, 0xFF, 0x55]), (0x30, [0x00, 0x00,
        0x00])] [(0, ⟨0x30, 3, 3, 5, 0xd⟩), (1, ⟨0x10, 3, 3, 2, 0xc⟩), (2, ⟨0x20, 3, 3, 7, 0xd⟩)] [])
      (fun t => t.status == 0x13 && bytes t 0x30 3 == [0x00, 0x00, 0x00] && t.f[0] == ⟨0x30, 3, 3, 5,
        0xd⟩) = true := by decide +kernel
theorem test_for_short_destination_faults :
    issued 0x53180000 (world [(0x10, [0xFF, 0x0F, 0xAA]), (0x20, [0xF0, 0xFF, 0x55]), (0x30, [0x00, 0x00,
        0x00])] [(0, ⟨0x30, 3, 3, 0xc, 0xd⟩), (1, ⟨0x10, 3, 3, 2, 0xe⟩), (2, ⟨0x20, 3, 3, 7, 0xd⟩)] [])
      (fun t => t.status == 0x13 && bytes t 0x30 3 == [0x00, 0x00, 0x00] && t.f[0] == ⟨0x30, 3, 3, 0xc,
        0xd⟩) = true := by decide +kernel
theorem test_fxor_into_self :
    issued 0x54180000 (world [(0x10, [0xFF, 0x0F, 0xAA]), (0x30, [0x0F, 0xF0, 0x3C])] [(0, ⟨0x30, 3, 3, 5, 0xd⟩),
        (1, ⟨0x30, 3, 3, 5, 0xd⟩), (2, ⟨0x10, 3, 3, 2, 0xe⟩)] [])
      (fun t => t.status == 0 && bytes t 0x30 3 == [0x08, 0x11, 0xFC]) = true := by decide +kernel
theorem test_fnot_of_100_bits :
    issued 0x55100000 (world [(0x40, [0x01, 0x02, 0x03, 0x04, 0x05, 0x06, 0x07, 0x08, 0x09, 0x0A, 0x0B, 0x0C, 0x0D,
        0x0E, 0x0F, 0x10]), (0x60, [0xFF, 0xFF, 0xFF, 0xFF, 0xFF, 0xFF, 0xFF, 0xFF, 0xFF, 0xFF, 0xFF, 0xFF, 0xFF,
        0xFF, 0xFF, 0xFF])] [(0, ⟨0x60, 0x10, 0x10, 3, 0x64⟩), (1, ⟨0x40, 0x10, 0x10, 9, 0x64⟩)] [])
      (fun t => t.status == 0 && bytes t 0x60 16 == [0xFF, 0x7F, 0x3E, 0xFE, 0xBE, 0x7E, 0x3D, 0xFD, 0xBD, 0x7D,
        0x3C, 0xFC, 0xBD, 0xFF, 0xFF, 0xFF]) = true := by decide +kernel
theorem test_frotl_left :
    issued 0x56106000 (world [(0x10, [0xB4, 0x6D]), (0x30, [0xFF, 0xFF])] [(0, ⟨0x30, 2, 2, 1, 0xa⟩), (1, ⟨0x10, 2,
        2, 3, 0xa⟩)] [(6, 3)])
      (fun t => t.status == 0 && bytes t 0x30 2 == [0x8D, 0xBF]) = true := by decide +kernel
theorem test_frotl_right :
    issued 0x56106000 (world [(0x10, [0xB4, 0x6D]), (0x30, [0xFF, 0xFF])] [(0, ⟨0x30, 2, 2, 1, 0xa⟩), (1, ⟨0x10, 2,
        2, 3, 0xa⟩)] [(6, 0xfffffffffffffffd)])
      (fun t => t.status == 0 && bytes t 0x30 2 == [0xDA, 0x3F]) = true := by decide +kernel
theorem test_fcount_of_ones :
    issued 0x5711A000 (world [(0x10, [0xB4, 0x6D, 0xCA])] [(1, ⟨0x10, 3, 3, 5, 0xe⟩)] [(2, 1), (3, 0x5555)])
      (fun t => t.status == 0 && t.x[3] == 8 && t.f[1] == ⟨0x10, 3, 3, 5, 0xe⟩) = true := by decide +kernel
theorem test_fcount_of_zeros :
    issued 0x5711A000 (world [(0x10, [0xB4, 0x6D, 0xCA])] [(1, ⟨0x10, 3, 3, 5, 0xe⟩)] [(2, 0), (3, 0x5555)])
      (fun t => t.status == 0 && t.x[3] == 6 && t.f[1] == ⟨0x10, 3, 3, 5, 0xe⟩) = true := by decide +kernel
theorem test_ffill_of_2_is_invalid :
    issued 0x58002000 (world [(0x20, [0x00, 0x00, 0x00])] [(0, ⟨0x20, 3, 3, 5, 0xe⟩)] [(2, 2)])
      (fun t => t.status == 0x33 && bytes t 0x20 3 == [0x00, 0x00, 0x00] && t.f[0] == ⟨0x20, 3, 3, 5,
        0xe⟩) = true := by decide +kernel
theorem test_ffill_keeps_bits_outside :
    issued 0x58002000 (world [(0x20, [0x5A, 0x5A, 0x5A])] [(0, ⟨0x20, 3, 3, 5, 0xe⟩)] [(2, 1)])
      (fun t => t.status == 0 && bytes t 0x20 3 == [0x5F, 0xFF, 0xFA] && t.f[0] == ⟨0x20, 3, 3, 5,
        0xe⟩) = true := by decide +kernel
theorem test_band_grows :
    issued 0x60180000 (world [(0x10, [0xFF, 0x0F, 0xAA]), (0x20, [0xF0, 0xFF, 0x55]), (0x30, [0xEE, 0xEE, 0xEE,
        0xEE])] [(0, ⟨0x30, 0, 4, 0, 0⟩), (1, ⟨0x10, 2, 3, 0, 0⟩), (2, ⟨0x20, 2, 3, 0, 0⟩)] [])
      (fun t => t.status == 0 && bytes t 0x30 4 == [0xF0, 0x0F, 0xEE, 0xEE] && t.f[0] == ⟨0x30, 2, 4, 0,
        0⟩) = true := by decide +kernel
theorem test_bandn_keeps_the_first_source :
    issued 0x61180000 (world [(0x10, [0xFF, 0x0F, 0xAA]), (0x20, [0xF0, 0xFF, 0x55]), (0x30, [0xEE, 0xEE, 0xEE,
        0xEE])] [(0, ⟨0x30, 0, 4, 0, 0⟩), (1, ⟨0x10, 2, 3, 0, 0⟩), (2, ⟨0x20, 2, 3, 0, 0⟩)] [])
      (fun t => t.status == 0 && bytes t 0x30 4 == [0x0F, 0x00, 0xEE, 0xEE] && t.f[0] == ⟨0x30, 2, 4, 0,
        0⟩) = true := by decide +kernel
theorem test_bor_grows :
    issued 0x62180000 (world [(0x10, [0xFF, 0x0F, 0xAA]), (0x20, [0xF0, 0xFF, 0x55]), (0x30, [0xEE, 0xEE, 0xEE,
        0xEE])] [(0, ⟨0x30, 0, 4, 0, 0⟩), (1, ⟨0x10, 2, 3, 0, 0⟩), (2, ⟨0x20, 2, 3, 0, 0⟩)] [])
      (fun t => t.status == 0 && bytes t 0x30 4 == [0xFF, 0xFF, 0xEE, 0xEE] && t.f[0] == ⟨0x30, 2, 4, 0,
        0⟩) = true := by decide +kernel
theorem test_bnot_complements :
    issued 0x64100000 (world [(0x10, [0xFF, 0x0F, 0xAA]), (0x20, [0xF0, 0xFF, 0x55]), (0x30, [0xEE, 0xEE, 0xEE,
        0xEE])] [(0, ⟨0x30, 0, 4, 0, 0⟩), (1, ⟨0x10, 2, 3, 0, 0⟩), (2, ⟨0x20, 2, 3, 0, 0⟩)] [])
      (fun t => t.status == 0 && bytes t 0x30 4 == [0x00, 0xF0, 0xEE, 0xEE] && t.f[0] == ⟨0x30, 2, 4, 0,
        0⟩) = true := by decide +kernel
theorem test_band_of_unequal_lengths_faults :
    issued 0x60180000 (world [(0x10, [0xFF, 0x0F, 0xAA]), (0x20, [0xF0, 0xFF, 0x55]), (0x30, [0xEE, 0xEE, 0xEE,
        0xEE])] [(0, ⟨0x30, 0, 4, 0, 0⟩), (1, ⟨0x10, 2, 3, 0, 0⟩), (2, ⟨0x20, 3, 3, 0, 0⟩)] [])
      (fun t => t.status == 0x23 && bytes t 0x30 4 == [0xEE, 0xEE, 0xEE, 0xEE] && t.f[0] == ⟨0x30, 0, 4, 0,
        0⟩) = true := by decide +kernel
theorem test_bxor_does_not_shrink :
    issued 0x63180000 (world [(0x10, [0xFF, 0x0F, 0xAA]), (0x20, [0xF0, 0xFF, 0x55]), (0x30, [0xEE, 0xEE, 0xEE,
        0xEE])] [(0, ⟨0x30, 3, 4, 0, 0⟩), (1, ⟨0x10, 2, 3, 0, 0⟩), (2, ⟨0x20, 2, 3, 0, 0⟩)] [])
      (fun t => t.status == 0 && bytes t 0x30 4 == [0x0F, 0xF0, 0xEE, 0xEE] && t.f[0] == ⟨0x30, 3, 4, 0,
        0⟩) = true := by decide +kernel
theorem test_bor_asks_for_growth :
    issued 0x62180000 (world [(0x10, [0xFF, 0x0F, 0xAA]), (0x20, [0xF0, 0xFF, 0x55]), (0x30, [0xEE, 0xEE, 0xEE,
        0xEE])] [(0, ⟨0x30, 0, 1, 0, 0⟩), (1, ⟨0x10, 2, 3, 0, 0⟩), (2, ⟨0x20, 2, 3, 0, 0⟩)] [])
      (fun t => t.status == 2 && bytes t 0x30 4 == [0xEE, 0xEE, 0xEE, 0xEE] && t.f[0] == ⟨0x30, 0, 1, 0, 0⟩ &&
        t.needlen == 2) = true := by decide +kernel
theorem test_bxor_in_place :
    issued 0x63180000 (world [(0x10, [0xFF, 0x0F, 0xAA]), (0x20, [0xF0, 0xFF, 0x55]), (0x30, [0xEE, 0xEE, 0xEE,
        0xEE])] [(0, ⟨0x10, 2, 3, 0, 0⟩), (1, ⟨0x10, 2, 3, 0, 0⟩), (2, ⟨0x20, 2, 3, 0, 0⟩)] [])
      (fun t => t.status == 0 && bytes t 0x10 3 == [0x0F, 0xF0, 0xAA] && t.f[0] == ⟨0x10, 2, 3, 0,
        0⟩) = true := by decide +kernel

/-! ### Witnesses: for every statement with hypotheses, a state and operands that meet them -/

/-- Three bytes at 0x10 and field registers over them and over free storage. -/
def small (f0 f1 f2 : FieldReg) (x : List (XIdx × Word)) : State :=
  world [(0x10, [0xB4, 0x6D, 0xCA])] [(0, f0), (1, f1), (2, f2)] x

theorem test_witness_DecodeOfEncode : WellFormed (.get 7 3 0) ∧ WellFormed (.get 7 3 64) ∧ WellFormed (.norm 3) := by
  decide +kernel
theorem test_witness_EncodeOfDecode : decode 0x20410800 = .ok (.get 2 1 64) := by decide +kernel
theorem test_witness_ReservedAndLittleEndianIllegal :
    (0x204100A4 : CmdWord).extractLsb' 0 3 ≠ 0 ∧ (0x20408808 : CmdWord).extractLsb' 3 1 = 1 := by decide +kernel

theorem test_witness_StepRunsDecodedCommand :
    let s := { State.reset with host := [.write 0 0xFFFFFFFF10400000, .reset] }
    s.host = .write 0 0xFFFFFFFF10400000 :: [.reset] ∧ ¬ s.Faulted ∧
      decode ((0xFFFFFFFF10400000 : Word).extractLsb' 0 32) = .ok (.norm 1) := by decide +kernel
theorem test_witness_IllegalWordFaults :
    let s := { State.reset with host := [.write 0 0] }
    s.host = .write 0 0 :: [] ∧ ¬ s.Faulted ∧ ∀ i, decode ((0 : Word).extractLsb' 0 32) ≠ .ok i := by
  refine ⟨rfl, by decide +kernel, fun i h => ?_⟩
  rw [show decode ((0 : Word).extractLsb' 0 32) = .error .unknownOpcode by decide +kernel] at h
  cases h
theorem test_witness_FaultedStateIgnoresWrites :
    let s := { State.reset with status := 0x13, host := [.write 8 5] }
    let s' := { State.reset with status := 0x53, host := [.read 1] }
    (s.Faulted ∧ s.host = .write 8 5 :: []) ∧ (s'.Faulted ∧ s'.host = .read 1 :: []) := by decide +kernel
theorem test_witness_FaultedStateIgnoresWrites_reset :
    let s := { State.reset with status := 0x13, host := [.reset] }
    s.Faulted ∧ answers (step s) (fun t => decide (¬ t.Faulted)) = true := by decide +kernel
theorem test_witness_ResetClearsEveryRegister :
    ({ State.reset with host := [.reset, .read 1] } : State).host = .reset :: [.read 1] := rfl
theorem test_witness_PortNumbersNameRegisters :
    [3, 7, 21, 23, 45, 47, 48, 1000].all (fun r => portReg r == .reserved) = true ∧
    portReg 15 = .x 7 ∧ portReg 16 = .f 0 .base ∧ portReg 44 = .f 3 .width := by decide +kernel
theorem test_witness_HostReadReturnsRegister :
    [0, 1, 2, 3, 7, 8, 15, 16, 17, 18, 19, 20, 44, 47, 48].all
      (fun r => ({ State.reset with host := [.read r] } : State).host == .read r :: []) = true := by decide +kernel
theorem test_witness_HostWriteSetsOneRegister :
    ¬ State.reset.Faulted ∧ ({ State.reset with status := 0x43 } : State).Faulted ∧ (1 : Nat) ≠ 0 ∧
    portReg 1 = .status ∧ portReg 2 = .needlen ∧ portReg 3 = .reserved ∧ portReg 47 = .reserved ∧
    portReg 8 = .x 0 ∧ portReg 44 = .f 3 .width ∧ portReg 8 ≠ portReg 9 := by decide +kernel
theorem test_witness_HostPathReachesBytesOfMemory :
    let s := { State.reset with host := [.memRead 255] }
    let s' := { State.reset with host := [.memWrite 256 7] }
    (255 < s.memBytes.val ∧ s.host = .memRead 255 :: [] ∧ ¬ s'.memBytes.val > 256 ∧ s'.host = .memWrite 256 7 :: []) ∧
    State.reset.host = [] := by decide +kernel

theorem test_witness_StepKeepsInvariant :
    let s := (small ⟨0x30, 0, 4, 0, 0⟩ ⟨0x10, 3, 3, 14, 5⟩ ⟨0, 0, 0, 0, 0⟩ []).withCommand 0x35100000
    s.Inv ∧ answers (step s) (fun t => t.mem != s.mem) = true :=
  ⟨⟨by decide +kernel, by decide +kernel, by decide +kernel⟩, by decide +kernel⟩
theorem test_witness_PowerOnHasInvariant :
    Memory.wf [(0, 1), (255, 2)] ∧ Memory.within [(0, 1), (255, 2)] 256 ∧ Memory.wf [] ∧ Memory.within [] 0 := by
  decide +kernel
theorem test_witness_CheckBeforeMutate :
    answers (exec (.setbit 0 0) State.reset) (fun t => t.statusCode == 2) = true ∧
    answers (exec (.bit 0 0) State.reset) (fun t => t.statusCode == 3) = true ∧
    answers (exec (.rdbits 0 0 1) State.reset) (fun t => t.statusCode == 1) = true := by decide +kernel
theorem test_witness_WritesStayInDestinationStorage :
    let s := small ⟨0x30, 0, 4, 0, 0⟩ ⟨0x10, 3, 3, 14, 5⟩ ⟨0, 0, 0, 0, 0⟩ []
    answers (exec (.bits 0 1 .left) s) (fun t => t.status == 0) = true ∧
    (∀ fd ∈ writesM (.bits 0 1 .left), ¬ (s.f[fd].base.toNat ≤ 0x2F ∧ 0x2F < s.f[fd].base.toNat + s.f[fd].cap.toNat)) ∧
    (∀ fd ∈ writesM (.bits 0 1 .left), ¬ (s.f[fd].base.toNat ≤ 0x34 ∧ 0x34 < s.f[fd].base.toNat + s.f[fd].cap.toNat)) ∧
    writesM (.get 0 1 5) = [] := by decide +kernel
theorem test_witness_RegistersKeptByEveryCommand :
    let s := small ⟨0x30, 0, 4, 0, 0⟩ ⟨0x10, 3, 3, 14, 5⟩ ⟨0, 0, 0, 0, 0⟩ []
    answers (exec (.get 2 1 5) s) (fun t => t.status == 0) = true ∧ (3 : XIdx) ∉ writesX (.get 2 1 5) ∧
    (∀ p ∈ writesF (.get 2 1 5), p.1 = 1 → Component.width ∉ p.2) ∧
    (∀ p ∈ writesF (.get 2 1 5), p.1 = 0 → Component.base ∉ p.2) := by decide +kernel
theorem test_witness_OutcomesFollowTable :
    WellFormed (.get 0 0 64) ∧ answers (exec (.get 0 0 64) State.reset) (fun t => t.status == 0x13) = true := by
  decide +kernel
theorem test_witness_DescriptorFaultComesFirst :
    let s := small ⟨0x30, 5, 4, 0, 0⟩ ⟨0x10, 3, 3, 20, 5⟩ ⟨0, 0, 0, 0, 0⟩ []
    let s' := small ⟨250, 0, 7, 0, 0⟩ ⟨0x10, 3, 3, 20, 5⟩ ⟨0, 0, 0, 0, 0⟩ []
    WellFormed (.bits 0 1 .left) ∧ (∃ j ∈ named (.bits 0 1 .left), ¬ DescOK s.memBytes s.f[j]) ∧
    (∃ j ∈ named (.bits 0 1 .left), ¬ DescOK s'.memBytes s'.f[j]) ∧
    (∀ j ∈ named (.uint8 0 1), DescOK s.memBytes s.f[j]) := by decide +kernel
theorem test_small_base :
    (small ⟨0, 0, 0, 0, 0⟩ ⟨0x10, 3, 3, 14, 5⟩ ⟨0, 0, 0, 0, 0⟩ []).f[(1 : FIdx)].base.toNat = 0x10 := by decide +kernel
theorem test_witness_ResultsDependOnBufferContentOnly :
    let s := small ⟨0, 0, 0, 0, 0⟩ ⟨0x10, 3, 3, 14, 5⟩ ⟨0, 0, 0, 0, 0⟩ []
    let m := s.mem.write 0x0F 0xFF
    (∀ j ∈ named (.get 2 1 5), ∀ a, s.f[j].base.toNat ≤ a → a < s.f[j].base.toNat + s.f[j].len.toNat →
      m.read a = s.mem.read a) ∧ m.read 0x0F ≠ s.mem.read 0x0F ∧
    answers (exec (.get 2 1 5) s) (fun t => t.status == 0) = true := by
  refine ⟨fun j hj a h1 h2 => ?_, by decide +kernel, by decide +kernel⟩
  simp only [named, List.mem_singleton] at hj
  subst hj
  rw [Memory.read_write, if_neg]
  have := test_small_base
  omega
theorem test_witness_HazardLeavesOnlyDestinationOpen :
    let s := small ⟨0x10, 3, 3, 1, 8⟩ ⟨0x10, 3, 3, 0, 8⟩ ⟨0, 0, 0, 0, 0⟩ []
    answers (exec (.fnot 0 1) s) (fun t => t.status == 0 && t.freeCount == 1) = true ∧
    ∃ v, movement (.fnot 0 1) s = some v ∧ ¬ v.Free ∧ ¬ v.InDst 0x80 ∧ v.InDst 0x81 ∧ v.InDst 0x88 ∧ ¬ v.InDst 0x89 :=
  ⟨by decide +kernel, _, rfl, by decide +kernel⟩
theorem test_witness_HazardLeavesOnlyDestinationOpen_grown :
    let s := small ⟨0x0F, 1, 3, 0, 0⟩ ⟨0x10, 2, 3, 0, 0⟩ ⟨0, 0, 0, 0, 0⟩ []
    answers (exec (.bnot 0 1) s) (fun t => t.status == 0 && t.freeCount == 1) = true ∧
    ∃ v, movement (.bnot 0 1) s = some v ∧ ¬ v.Free ∧ v.grown.Has 0x80 :=
  ⟨by decide +kernel, _, rfl, by decide +kernel⟩

theorem test_witness_OutOfBoundsFaults :
    let s := small ⟨0x30, 3, 3, 11, 14⟩ ⟨0x10, 3, 3, 25, 14⟩ ⟨0x20, 3, 3, 11, 13⟩ []
    DescOK s.memBytes s.f[0] ∧ DescOK s.memBytes s.f[1] ∧ DescOK s.memBytes s.f[2] ∧
    (∀ n ∈ [0, 1, 8, 16, 32, 64], ¬ InBuf s.f[1] s.f[1].pos.toNat n) ∧ 14 ≤ s.f[1].width.toNat ∧
    s.x[0].toNat ≤ 1 ∧ ¬ InBuf s.f[1] s.f[1].pos.toNat s.f[1].width.toNat ∧
    8 * (s.f[1].len.toNat + s.f[2].len.toNat) < s.f[1].pos.toNat + 8 * s.f[0].len.toNat ∧
    ¬ InBuf s.f[0] s.f[0].pos.toNat s.f[0].width.toNat ∧ ¬ InBuf s.f[1] s.f[1].pos.toNat s.f[0].width.toNat ∧
    s.f[2].width.toNat < s.f[0].width.toNat ∧ ¬ InBuf s.f[2] s.f[2].pos.toNat s.f[0].width.toNat := by decide +kernel
theorem test_witness_OutOfBoundsFaults_narrow :
    let s := small ⟨0x30, 3, 3, 0, 14⟩ ⟨0x10, 3, 3, 0, 13⟩ ⟨0x20, 3, 3, 0, 14⟩ []
    DescOK s.memBytes s.f[0] ∧ DescOK s.memBytes s.f[1] ∧ DescOK s.memBytes s.f[2] ∧
    s.f[1].width.toNat < s.f[0].width.toNat := by decide +kernel
theorem test_witness_TooSmallCapacityRequestsGrowth :
    let s := small ⟨0x30, 0, 0, 0, 1⟩ ⟨0x10, 1, 3, 0, 0⟩ ⟨0, 0, 0, 0, 0⟩ []
    DescOK s.memBytes s.f[0] ∧ DescOK s.memBytes s.f[1] ∧ s.f[0].cap.toNat < needLen s.f[0].pos.toNat s.f[0].width.toNat ∧
    (∀ n ∈ [1, 8, 16, 32, 64], s.f[0].cap.toNat < needLen s.f[0].pos.toNat n) ∧ s.f[0].cap.toNat < s.f[1].len.toNat := by
  decide +kernel
theorem test_witness_SourceFaultBeforeGrowth :
    let s := small ⟨0x30, 0, 0, 0, 25⟩ ⟨0x10, 3, 3, 20, 5⟩ ⟨0, 0, 0, 0, 0⟩ []
    let s' := small ⟨0x30, 0, 0, 0, 24⟩ ⟨0x10, 3, 3, 19, 5⟩ ⟨0, 0, 0, 0, 0⟩ []
    (DescOK s.memBytes s.f[0] ∧ DescOK s.memBytes s.f[1] ∧ ¬ InBuf s.f[1] s.f[1].pos.toNat s.f[1].width.toNat ∧
      s.f[1].len.toNat < (s.f[0].width.toNat + 7) / 8) ∧
    (DescOK s'.memBytes s'.f[0] ∧ DescOK s'.memBytes s'.f[1] ∧ InBuf s'.f[1] s'.f[1].pos.toNat s'.f[1].width.toNat ∧
      0 < s'.f[1].width.toNat ∧ s'.f[0].cap.toNat < (s'.f[1].width.toNat + 7) / 8 ∧
      (s'.f[0].width.toNat + 7) / 8 ≤ s'.f[1].len.toNat ∧
      s'.f[0].cap.toNat < needLen s'.f[0].pos.toNat s'.f[0].width.toNat) := by decide +kernel
theorem test_witness_MismatchedLengthsFault :
    let s := small ⟨0x30, 0, 1, 0, 0⟩ ⟨0x10, 2, 3, 0, 0⟩ ⟨0x20, 3, 3, 0, 0⟩ []
    let s' := small ⟨0x30, 0, 1, 0, 0⟩ ⟨0x10, 2, 3, 0, 0⟩ ⟨0x20, 2, 3, 0, 0⟩ []
    (∀ i : FIdx, DescOK s.memBytes s.f[i] ∧ DescOK s'.memBytes s'.f[i]) ∧ s.f[1].len ≠ s.f[2].len ∧
    s'.f[1].len = s'.f[2].len ∧ s'.f[0].cap.toNat < s'.f[1].len.toNat := by decide +kernel
theorem test_witness_ArgumentTestedBeforeBounds :
    let s := small ⟨0, 0, 0, 0, 0⟩ ⟨0x10, 3, 3, 25, 3⟩ ⟨0, 0, 0, 0, 0⟩ [(1, 2)]
    DescOK s.memBytes s.f[1] ∧ s.f[1].width.toNat < (4#7).toNat ∧ 1 < s.x[1].toNat := by decide +kernel

theorem test_witness_NormKeepsAddressAndBounds :
    let s := small ⟨0, 0, 0, 0, 0⟩ ⟨0x10, 3, 3, 24, 5⟩ ⟨0, 0, 0, 0, 0⟩ []
    DescOK s.memBytes s.f[1] ∧ InBuf s.f[1] s.f[1].pos.toNat 0 := by decide +kernel
theorem test_witness_NormTwiceIsNormOnce :
    let s := small ⟨0, 0, 0, 0, 0⟩ ⟨0x10, 3, 3, 24, 5⟩ ⟨0, 0, 0, 0, 0⟩ []
    answers (exec (.norm 1) s) (fun t => t.status == 0 && t.f[1] == ⟨0x13, 0, 0, 0, 5⟩) = true := by decide +kernel
theorem test_witness_NeedGivesByteLength :
    let s := small ⟨0, 0, 0, 0, 0⟩ ⟨0x10, 3, 3, 0xFFFFFFFFFFFFFFFF, 0xFFFFFFFFFFFFFFFF⟩ ⟨0, 0, 0, 0, 0⟩ []
    DescOK s.memBytes s.f[1] := by decide +kernel
theorem test_witness_EnsureGrowsWithZeros :
    let s := small ⟨0x30, 1, 3, 14, 5⟩ ⟨0, 0, 0, 0, 0⟩ ⟨0, 0, 0, 0, 0⟩ []
    3 = (s.f[0].pos.toNat + s.f[0].width.toNat + 7) / 8 ∧ DescOK s.memBytes s.f[0] ∧ 3 ≤ s.f[0].cap.toNat := by
  decide +kernel
theorem test_witness_GetReadsNextBits :
    let s := small ⟨0, 0, 0, 0, 0⟩ ⟨0x10, 3, 3, 19, 0⟩ ⟨0x10, 9, 9, 8, 0⟩ []
    (5#7).toNat ≤ 64 ∧ DescOK s.memBytes s.f[1] ∧ InBuf s.f[1] s.f[1].pos.toNat (5#7).toNat ∧
    (64#7).toNat ≤ 64 ∧ DescOK s.memBytes s.f[2] ∧ InBuf s.f[2] s.f[2].pos.toNat (64#7).toNat := by decide +kernel
theorem test_witness_GetAndPutAreShiftAndMask :
    let s := small ⟨0, 0, 0, 0, 0⟩ ⟨0x10, 9, 9, 3, 0⟩ ⟨0, 0, 0, 0, 0⟩ []
    (64#7).toNat ≤ 64 ∧ DescOK s.memBytes s.f[1] ∧ InBuf s.f[1] s.f[1].pos.toNat (64#7).toNat ∧
    0x10 = s.f[1].base.toNat + s.f[1].pos.toNat / 8 ∧ 9 = (s.f[1].pos.toNat % 8 + (64#7).toNat + 7) / 8 ∧
    5 = 8 * 9 - s.f[1].pos.toNat % 8 - (64#7).toNat := by decide +kernel
theorem test_witness_PutWritesNextBits :
    let s := small ⟨0x20, 2, 2, 6, 0⟩ ⟨0, 0, 0, 0, 0⟩ ⟨0, 0, 0, 0, 0⟩ [(1, 0xF)]
    (10#7).toNat ≤ 64 ∧ DescOK s.memBytes s.f[0] ∧ InBuf s.f[0] s.f[0].pos.toNat (10#7).toNat := by decide +kernel
theorem test_witness_PutAndGetAreInverse :
    let s := small ⟨0x10, 3, 3, 6, 0⟩ ⟨0, 0, 0, 0, 0⟩ ⟨0, 0, 0, 0, 0⟩ [(1, 0xFFFF)]
    (18#7).toNat ≤ 64 ∧ DescOK s.memBytes s.f[0] ∧ InBuf s.f[0] s.f[0].pos.toNat (18#7).toNat := by decide +kernel
theorem test_witness_GetSplits :
    let s := small ⟨0, 0, 0, 0, 0⟩ ⟨0x10, 9, 9, 8, 0⟩ ⟨0, 0, 0, 0, 0⟩ []
    (64#7).toNat = (31#7).toNat + (33#7).toNat ∧ (64#7).toNat ≤ 64 ∧ DescOK s.memBytes s.f[1] ∧
    InBuf s.f[1] s.f[1].pos.toNat (64#7).toNat := by decide +kernel

theorem test_witness_ExtractAssemblesBytes :
    let s := small ⟨0x30, 3, 3, 0, 0⟩ ⟨0x10, 3, 3, 20, 0⟩ ⟨0x10, 3, 3, 0, 0⟩ []
    let c : Nat → Byte := fun i => if i < 3 then s.mem.read (0x10 + i) else s.mem.read (0x10 + (i - 3))
    DescOK s.memBytes s.f[0] ∧ DescOK s.memBytes s.f[1] ∧ DescOK s.memBytes s.f[2] ∧
    s.f[1].pos.toNat + 8 * s.f[0].len.toNat ≤ 8 * (s.f[1].len.toNat + s.f[2].len.toNat) ∧
    HazardFree (.ext2 0 1 2) s ∧ (∀ i < s.f[1].len.toNat, c i = s.mem.read (s.f[1].base.toNat + i)) ∧
    (∀ i < s.f[2].len.toNat, c (s.f[1].len.toNat + i) = s.mem.read (s.f[2].base.toNat + i)) := by decide +kernel
theorem test_witness_UintReadsFixedWidth :
    let s := small ⟨0, 0, 0, 0, 0⟩ ⟨0x10, 9, 9, 8, 0⟩ ⟨0, 0, 0, 0, 0⟩ []
    DescOK s.memBytes s.f[1] ∧ ∀ n ∈ [1, 8, 16, 32, 64], InBuf s.f[1] s.f[1].pos.toNat n := by decide +kernel
theorem test_witness_BitAgreesWithByte :
    let s := small ⟨0, 0, 0, 0, 0⟩ ⟨0x10, 3, 3, 23, 0⟩ ⟨0, 0, 0, 0, 0⟩ []
    23 = s.f[1].pos.toNat ∧ DescOK s.memBytes s.f[1] ∧ InBuf s.f[1] 23 1 := by decide +kernel
theorem test_witness_BitsWritesRepresentation :
    let s := small ⟨0x30, 0, 1, 0, 0⟩ ⟨0x10, 3, 3, 19, 5⟩ ⟨0, 0, 0, 0, 0⟩ []
    5 = s.f[1].width.toNat ∧ 1 = (5 + 7) / 8 ∧ DescOK s.memBytes s.f[0] ∧ DescOK s.memBytes s.f[1] ∧
    InBuf s.f[1] s.f[1].pos.toNat 5 ∧ 1 ≤ s.f[0].cap.toNat ∧
    HazardFree (.bits 0 1 .left) s ∧ HazardFree (.bits 0 1 .right) s := by decide +kernel
theorem test_witness_BitsWritesRepresentation_empty :
    let s := small ⟨0x30, 0, 0, 0, 0⟩ ⟨0x10, 3, 3, 24, 0⟩ ⟨0, 0, 0, 0, 0⟩ []
    0 = s.f[1].width.toNat ∧ 0 = (0 + 7) / 8 ∧ DescOK s.memBytes s.f[0] ∧ DescOK s.memBytes s.f[1] ∧
    InBuf s.f[1] s.f[1].pos.toNat 0 ∧ 0 ≤ s.f[0].cap.toNat ∧ HazardFree (.bits 0 1 .left) s := by decide +kernel
theorem test_witness_SetUintWritesFixedWidth :
    let s := small ⟨0x30, 0, 9, 1, 0⟩ ⟨0, 0, 0, 0, 0⟩ ⟨0, 0, 0, 0, 0⟩ [(1, 0xFF)]
    1 = s.f[0].pos.toNat ∧ DescOK s.memBytes s.f[0] ∧ ∀ n ∈ [1, 8, 16, 32, 64], needLen 1 n ≤ s.f[0].cap.toNat := by
  decide +kernel
theorem test_witness_SetBitsWritesField :
    let s := small ⟨0x30, 1, 3, 6, 12⟩ ⟨0x10, 2, 2, 0, 0⟩ ⟨0, 0, 0, 0, 0⟩ []
    6 = s.f[0].pos.toNat ∧ 12 = s.f[0].width.toNat ∧ 2 = (12 + 7) / 8 ∧ DescOK s.memBytes s.f[0] ∧
    DescOK s.memBytes s.f[1] ∧ 2 ≤ s.f[1].len.toNat ∧ needLen 6 12 ≤ s.f[0].cap.toNat ∧
    HazardFree (.setbits 0 1 .left) s ∧ HazardFree (.setbits 0 1 .right) s := by decide +kernel
theorem test_witness_ExtractThenReinsertIsIdentity :
    let s := world [(0x10, [0xB4, 0x6D, 0xCA]), (0x20, [0xB4, 0x00, 0x0A])]
      [(0, ⟨0x30, 0, 2, 0, 0⟩), (1, ⟨0x10, 3, 3, 6, 12⟩), (2, ⟨0x20, 3, 3, 6, 12⟩)] []
    DescOK s.memBytes s.f[0] ∧ DescOK s.memBytes s.f[1] ∧ DescOK s.memBytes s.f[2] ∧ 0 < s.f[1].width.toNat ∧
    InBuf s.f[1] s.f[1].pos.toNat s.f[1].width.toNat ∧ (s.f[1].width.toNat + 7) / 8 ≤ s.f[0].cap.toNat ∧
    s.f[2].len = s.f[1].len ∧ s.f[2].pos = s.f[1].pos ∧ s.f[2].width = s.f[1].width ∧
    s.f[2].base.toNat + s.f[2].len.toNat ≤ s.f[0].base.toNat ∧
    (∀ k < 8 * s.f[1].len.toNat, ¬ (s.f[1].pos.toNat ≤ k ∧ k < s.f[1].pos.toNat + s.f[1].width.toNat) →
      bitAt s 2 k = bitAt s 1 k) ∧ HazardFree (.bits 0 1 .left) s ∧ HazardFree (.bits 0 1 .right) s := by decide +kernel

theorem test_witness_RotateSelectsBytes :
    let s := small ⟨0x30, 1, 3, 0, 0⟩ ⟨0x10, 3, 3, 0, 0⟩ ⟨0, 0, 0, 0, 0⟩ [(3, 0x8000000000000000)]
    3 = s.f[1].len.toNat ∧ (0 < 3 → 16 < 8 * 3 ∧ ((8 * 3 : Nat) : Int) ∣ s.x[3].toInt - (16 : Nat)) ∧
    DescOK s.memBytes s.f[0] ∧ DescOK s.memBytes s.f[1] ∧ 3 ≤ s.f[0].cap.toNat ∧ HazardFree (.rotl 0 1 3) s := by
  decide +kernel
theorem test_witness_RotateSelectsBytes_inPlace :
    let s := small ⟨0x10, 3, 3, 0, 0⟩ ⟨0x10, 3, 3, 0, 0⟩ ⟨0x10, 0, 0, 0, 0⟩ [(3, 0xFFFFFFFFFFFFFFF8)]
    3 = s.f[1].len.toNat ∧ (0 < 3 → 16 < 8 * 3 ∧ ((8 * 3 : Nat) : Int) ∣ s.x[3].toInt - (16 : Nat)) ∧
    DescOK s.memBytes s.f[0] ∧ DescOK s.memBytes s.f[1] ∧ 3 ≤ s.f[0].cap.toNat ∧ HazardFree (.rotl 0 1 3) s ∧
    0 = s.f[2].len.toNat ∧ DescOK s.memBytes s.f[2] ∧ HazardFree (.rotl 0 2 3) s := by decide +kernel
theorem test_witness_RotationsCompose :
    let s := world [(0x10, [0xB4, 0x6D, 0xCA])]
      [(0, ⟨0x30, 0, 3, 0, 0⟩), (1, ⟨0x10, 3, 3, 0, 0⟩), (2, ⟨0x40, 0, 3, 0, 0⟩), (3, ⟨0x50, 0, 3, 0, 0⟩)]
      [(1, 3), (2, 9), (3, 12)]
    s.x[3].toInt = s.x[1].toInt + s.x[2].toInt ∧ HazardFree (.rotl 0 1 1) s ∧ HazardFree (.rotl 3 1 3) s ∧
    answers (exec (.rotl 0 1 1) s) (fun t => t.status == 0 && decide (HazardFree (.rotl 2 0 2) t) &&
      answers (exec (.rotl 2 0 2) t) (fun u => u.status == 0)) = true ∧
    answers (exec (.rotl 3 1 3) s) (fun v => v.status == 0) = true := by decide +kernel

theorem test_witness_ZeroRunsCounted :
    let s := small ⟨0x30, 3, 3, 0, 0⟩ ⟨0x10, 3, 3, 0, 0⟩ ⟨0, 0, 0, 0, 0⟩ []
    24 = 8 * s.f[0].len.toNat ∧ DescOK s.memBytes s.f[0] ∧ 24 = 8 * s.f[1].len.toNat ∧ DescOK s.memBytes s.f[1] := by
  decide +kernel
theorem test_witness_OnesCounted :
    let s := small ⟨0, 0, 0, 0, 0⟩ ⟨0x10, 3, 3, 0, 0⟩ ⟨0, 0, 0, 0, 0⟩ []
    DescOK s.memBytes s.f[1] := by decide +kernel
theorem test_witness_ZeroRunsBoundedByOnes :
    let s := world [(0x10, [0x00, 0x10, 0x00])] [(1, ⟨0x10, 3, 3, 0, 0⟩)] []
    24 = 8 * s.f[1].len.toNat ∧ DescOK s.memBytes s.f[1] ∧ (∃ p < 24, bitAt s 1 p = true) ∧
    answers (exec (.lz 4 1) s) (fun t => t.x[4] == 11) = true ∧
    answers (exec (.tz 4 1) s) (fun t => t.x[4] == 12) = true ∧
    answers (exec (.ones 4 1) s) (fun t => t.x[4] == 1) = true := by decide +kernel
theorem test_witness_OnesOfComplement :
    let s := small ⟨0x30, 3, 3, 0, 0⟩ ⟨0x10, 3, 3, 0, 0⟩ ⟨0, 0, 0, 0, 0⟩ []
    s.f[0].len.toNat ≤ s.f[1].len.toNat ∧ HazardFree (.bnot 0 1) s ∧
    answers (exec (.ones 4 1) s) (fun t => t.status == 0) = true ∧
    answers (exec (.bnot 0 1) s) (fun u => u.status == 0 &&
      answers (exec (.ones 4 0) u) (fun v => v.status == 0)) = true := by decide +kernel

theorem test_witness_CursorConsumesBits :
    let s := small ⟨0, 0, 0, 0, 0⟩ ⟨0x10, 3, 3, 14, 10⟩ ⟨0, 0, 0, 0, 0⟩ []
    (10#7).toNat ≤ 64 ∧ DescOK s.memBytes s.f[1] ∧ (10#7).toNat ≤ s.f[1].width.toNat ∧
    InBuf s.f[1] s.f[1].pos.toNat (10#7).toNat := by decide +kernel
theorem test_witness_FieldBooleanIsBitwise :
    let s := small ⟨0x10, 3, 3, 5, 13⟩ ⟨0x10, 3, 3, 5, 13⟩ ⟨0x20, 3, 3, 11, 13⟩ []
    13 = s.f[0].width.toNat ∧ DescOK s.memBytes s.f[0] ∧ DescOK s.memBytes s.f[1] ∧ DescOK s.memBytes s.f[2] ∧
    13 ≤ s.f[1].width.toNat ∧ 13 ≤ s.f[2].width.toNat ∧ InBuf s.f[0] s.f[0].pos.toNat 13 ∧
    InBuf s.f[1] s.f[1].pos.toNat 13 ∧ InBuf s.f[2] s.f[2].pos.toNat 13 ∧
    HazardFree (.fand 0 1 2) s ∧ HazardFree (.forr 0 1 2) s ∧ HazardFree (.fxor 0 1 2) s := by decide +kernel
theorem test_witness_FieldAndNotKeepsFirstSource :
    let s := small ⟨0x30, 3, 3, 5, 13⟩ ⟨0x10, 3, 3, 11, 13⟩ ⟨0x20, 3, 3, 11, 13⟩ []
    13 = s.f[0].width.toNat ∧ DescOK s.memBytes s.f[0] ∧ DescOK s.memBytes s.f[1] ∧ DescOK s.memBytes s.f[2] ∧
    13 ≤ s.f[1].width.toNat ∧ 13 ≤ s.f[2].width.toNat ∧ InBuf s.f[0] s.f[0].pos.toNat 13 ∧
    InBuf s.f[1] s.f[1].pos.toNat 13 ∧ InBuf s.f[2] s.f[2].pos.toNat 13 ∧ HazardFree (.fandn 0 1 2) s := by
  decide +kernel
theorem test_witness_FieldNotComplements :
    let s := small ⟨0x10, 3, 3, 11, 13⟩ ⟨0x10, 3, 3, 11, 13⟩ ⟨0, 0, 0, 0, 0⟩ []
    13 = s.f[0].width.toNat ∧ DescOK s.memBytes s.f[0] ∧ DescOK s.memBytes s.f[1] ∧ 13 ≤ s.f[1].width.toNat ∧
    InBuf s.f[0] s.f[0].pos.toNat 13 ∧ InBuf s.f[1] s.f[1].pos.toNat 13 ∧ HazardFree (.fnot 0 1) s := by decide +kernel
theorem test_witness_FieldRotates :
    let s := small ⟨0x30, 2, 2, 6, 10⟩ ⟨0x10, 3, 3, 14, 10⟩ ⟨0x30, 2, 2, 16, 0⟩ [(6, 0xFFFFFFFFFFFFFFFD)]
    10 = s.f[0].width.toNat ∧ (0 < 10 → 7 < 10 ∧ ((10 : Nat) : Int) ∣ s.x[6].toInt - (7 : Nat)) ∧
    DescOK s.memBytes s.f[0] ∧ DescOK s.memBytes s.f[1] ∧ 10 ≤ s.f[1].width.toNat ∧
    InBuf s.f[0] s.f[0].pos.toNat 10 ∧ InBuf s.f[1] s.f[1].pos.toNat 10 ∧ HazardFree (.frotl 0 1 6) s ∧
    0 = s.f[2].width.toNat ∧ InBuf s.f[2] s.f[2].pos.toNat 0 ∧ InBuf s.f[1] s.f[1].pos.toNat 0 ∧
    HazardFree (.frotl 2 1 6) s := by decide +kernel
theorem test_witness_FieldCountCountsBitValue :
    let s := small ⟨0, 0, 0, 0, 0⟩ ⟨0x10, 3, 3, 14, 10⟩ ⟨0, 0, 0, 0, 0⟩ [(2, 1)]
    DescOK s.memBytes s.f[1] ∧ s.x[2].toNat ≤ 1 ∧ s.x[3].toNat ≤ 1 ∧
    InBuf s.f[1] s.f[1].pos.toNat s.f[1].width.toNat := by decide +kernel
theorem test_witness_FieldFillSetsEveryBit :
    let s := small ⟨0x30, 3, 3, 14, 10⟩ ⟨0, 0, 0, 0, 0⟩ ⟨0, 0, 0, 0, 0⟩ [(2, 1)]
    10 = s.f[0].width.toNat ∧ DescOK s.memBytes s.f[0] ∧ s.x[2].toNat ≤ 1 ∧ s.x[3].toNat ≤ 1 ∧
    InBuf s.f[0] s.f[0].pos.toNat 10 := by decide +kernel
theorem test_witness_BufferBooleanIsBytewise :
    let s := small ⟨0x30, 0, 2, 0, 0⟩ ⟨0x10, 2, 3, 0, 0⟩ ⟨0x11, 2, 3, 0, 0⟩ []
    let s' := small ⟨0x10, 2, 2, 0, 0⟩ ⟨0x10, 2, 3, 0, 0⟩ ⟨0x20, 2, 3, 0, 0⟩ []
    (∀ i : FIdx, DescOK s.memBytes s.f[i] ∧ DescOK s'.memBytes s'.f[i]) ∧
    (2 = s.f[1].len.toNat ∧ s.f[2].len = s.f[1].len ∧ 2 ≤ s.f[0].cap.toNat ∧ HazardFree (.band 0 1 2) s ∧
      HazardFree (.bor 0 1 2) s ∧ HazardFree (.bxor 0 1 2) s) ∧
    (2 = s'.f[1].len.toNat ∧ s'.f[2].len = s'.f[1].len ∧ 2 ≤ s'.f[0].cap.toNat ∧ HazardFree (.band 0 1 2) s') := by
  decide +kernel
theorem test_witness_BufferAndNotKeepsFirstSource :
    let s := small ⟨0x30, 0, 2, 0, 0⟩ ⟨0x10, 2, 3, 0, 0⟩ ⟨0x11, 2, 3, 0, 0⟩ []
    2 = s.f[1].len.toNat ∧ s.f[2].len = s.f[1].len ∧ DescOK s.memBytes s.f[0] ∧ DescOK s.memBytes s.f[1] ∧
    DescOK s.memBytes s.f[2] ∧ 2 ≤ s.f[0].cap.toNat ∧ HazardFree (.bandn 0 1 2) s := by decide +kernel
theorem test_witness_BufferNotComplements :
    let s := small ⟨0x10, 3, 3, 0, 0⟩ ⟨0x10, 3, 3, 0, 0⟩ ⟨0, 0, 0, 0, 0⟩ []
    3 = s.f[1].len.toNat ∧ DescOK s.memBytes s.f[0] ∧ DescOK s.memBytes s.f[1] ∧ 3 ≤ s.f[0].cap.toNat ∧
    HazardFree (.bnot 0 1) s := by decide +kernel

end Sys2Proof.Tests
end

section
/-! The register port (spec/10_state.md R28 to R33): one rule per host transaction, then the statements about host reads
and host writes. -/

namespace Sys2Proof.Proofs

open Sys2Proof.Machine

/-! ### Register numbers -/

/-- R28: no number but 0 issues a command. -/
theorem portReg_eq_cmd_iff {r : Nat} : portReg r = .cmd ↔ r = 0 := by
  unfold portReg
  constructor
  · intro h
    split_ifs at h with h0
    · exact h0
    · split at h <;> cases h
  · intro h0
    exact if_pos h0

/-! ### What the faulted state depends on -/

/-- R260: whether the engine is faulted is read off `STATUS` alone. -/
theorem faulted_of_status_eq {s t : State} (h : t.status = s.status) (hf : s.Faulted) : t.Faulted := by
  unfold State.Faulted State.statusCode at hf ⊢
  rwa [h]

/-! ### A host write, by the register its number names (R30, R33) -/

section HostWrite
variable {r : Nat} {v : Word} {s : State}

theorem hostWrite_of_faulted (hf : s.Faulted) : hostWrite r v s = .next s := if_pos hf

theorem hostWrite_of_portReg_x {i : XIdx} (hf : ¬ s.Faulted) (hr : portReg r = .x i) :
    hostWrite r v s = .next (s.setX i v) := by
  simp only [hostWrite, if_neg hf, hr]

theorem hostWrite_of_portReg_f {i : FIdx} {c : Component} (hf : ¬ s.Faulted) (hr : portReg r = .f i c) :
    hostWrite r v s = .next (s.setF i (s.f[i].put c v)) := by
  simp only [hostWrite, if_neg hf, hr]

theorem hostWrite_of_not_writable (hr : portReg r = .status ∨ portReg r = .needlen ∨ portReg r = .reserved) :
    hostWrite r v s = .next s := by
  unfold hostWrite
  obtain hr | hr | hr := hr <;> simp only [hr, ite_self]

end HostWrite

/-! ### A step, by the transaction the host asks for -/

section Step
variable {s t : State} {rest : List HostOp} {r : Nat}

theorem step_of_host_nil (h : s.host = []) : step s = .next s := by
  simp only [step, nextTransaction, h]

theorem step_of_host_cons {op : HostOp} (h : s.host = op :: rest) :
    step s = transact op { s with host := rest, portOut := none } := by
  simp only [step, nextTransaction, h]

/-- R31: a step that reads the port. -/
theorem step_of_read (h : s.host = .read r :: rest) :
    step s = .next { s with host := rest, portOut := some (hostRead r s) } :=
  step_of_host_cons h

/-- R33: a step that writes the port in the faulted state. -/
theorem step_of_write_of_faulted {v : Word} (hf : s.Faulted) (h : s.host = .write r v :: rest) :
    step s = .next { s with host := rest, portOut := none } := by
  rw [step_of_host_cons h]
  exact hostWrite_of_faulted (faulted_of_status_eq rfl hf)

/-- R33, R262: in the faulted state no transaction but reset writes `STATUS`. -/
theorem transact_status_of_faulted {op : HostOp} (hf : s.Faulted) (hop : op ≠ .reset)
    (h : transact op s = .next t) : t.status = s.status := by
  cases op with
  | write r v =>
    have hs : hostWrite r v s = .next t := h
    rw [hostWrite_of_faulted hf] at hs
    cases hs; rfl
  | read r => cases h; rfl
  | reset => exact absurd rfl hop
  | memWrite a v =>
    simp only [transact] at h
    split_ifs at h
    cases h; rfl
  | memRead a =>
    simp only [transact] at h
    split_ifs at h
    cases h; rfl

/-- R33: "Only reset leaves this state". -/
theorem reset_of_step_leaves_faulted (hf : s.Faulted) (h : step s = .next t) (ht : ¬ t.Faulted) :
    ∃ rest, s.host = .reset :: rest := by
  cases hh : s.host with
  | nil =>
    rw [step_of_host_nil hh] at h
    cases h
    exact absurd hf ht
  | cons op rest =>
    rw [step_of_host_cons hh] at h
    by_cases hop : op = .reset
    · exact ⟨rest, by rw [hop]⟩
    · have hf' : ({ s with host := rest, portOut := none } : State).Faulted := faulted_of_status_eq rfl hf
      have hst : t.status = s.status := (transact_status_of_faulted hf' hop h).trans rfl
      exact absurd (faulted_of_status_eq hst hf) ht

end Step

/-! ### The statements -/

/-- Settles O12, by the kind of register the number names: `CMD` is excluded by the number, a read-only or reserved
number leaves the state, and the two writable kinds are `hostRead_setX` and `hostRead_setF`. -/
theorem hostWriteSetsOneRegister : Obligations.HostWriteSetsOneRegister := by
  intro s r v h0
  refine ⟨hostWrite_of_faulted, fun hf => ?_⟩
  by_cases hro : portReg r = .status ∨ portReg r = .needlen ∨ portReg r = .reserved
  · exact ⟨s, hostWrite_of_not_writable hro, fun _ => rfl, fun hw => absurd hro hw, fun _ _ => rfl,
      rfl, rfl, rfl, rfl, rfl⟩
  · cases hr : portReg r with
    | cmd => exact absurd (portReg_eq_cmd_iff.1 hr) h0
    | x i =>
      exact ⟨s.setX i v, hostWrite_of_portReg_x hf hr, by simp, fun _ => by rw [hostRead_setX, if_pos hr],
        fun q hq => by rw [hostRead_setX, if_neg hq], rfl, rfl, rfl, rfl, rfl⟩
    | f i c =>
      exact ⟨s.setF i (s.f[i].put c v), hostWrite_of_portReg_f hf hr, by simp,
        fun _ => by rw [hostRead_setF, if_pos hr], fun q hq => by rw [hostRead_setF, if_neg hq],
        rfl, rfl, rfl, rfl, rfl⟩
    | status => exact absurd (.inl hr) hro
    | needlen => exact absurd (.inr (.inl hr)) hro
    | reserved => exact absurd (.inr (.inr hr)) hro

/-- Settles O8: the rules of a host write and a host read, and the inversion of a step that leaves the faulted state. -/
theorem faultedStateIgnoresWrites : Obligations.FaultedStateIgnoresWrites := by
  intro s hf
  exact ⟨fun _ _ _ h => step_of_write_of_faulted hf h, fun _ _ h => step_of_read h,
    fun _ h ht => reset_of_step_leaves_faulted hf h ht⟩

/-- Settles O11: the step answers `hostRead`, which is R28's table case by case. -/
theorem hostReadReturnsRegister : Obligations.HostReadReturnsRegister := by
  intro s r rest h
  refine ⟨hostRead r s, step_of_read h, ?_⟩
  unfold hostRead
  cases portReg r with
  | f i c => cases c <;> rfl
  | cmd | status | needlen | x i | reserved => rfl

end Sys2Proof.Proofs
end

section
/-! Checks before changes (spec/60_exceptions.md R259): what taking an exception leaves, and that a command either ends
`OK` or has only taken an exception. -/

namespace Sys2Proof.Proofs

open Sys2Proof.Machine

section ExecEnds
variable {s t : State}

/-- R250: a command that was performed ends `OK`. -/
theorem finish_statusCode (s : State) : (finish s).statusCode = 0 := by
  unfold State.statusCode
  rw [finish_status, statusWord_ok]
  decide

/-- R35: taking an exception writes `NEEDLEN` only for `GROW`. -/
theorem raise_needlen_of_statusCode_ne_grow {r : Raise} (h : (raise r s).statusCode ≠ 2) :
    (raise r s).needlen = s.needlen := by
  cases r with
  | fault c => rfl
  | eof => rfl
  | grow need =>
    have hgrow : (raise (.grow need) s).statusCode = 2 := by
      unfold State.statusCode
      rw [raise_grow_status, statusWord_grow]
      decide
    exact absurd hgrow h

/-- R80, R259: a command that does not end `OK` was not performed, and from its state it has only taken an exception. -/
theorem exec_eq_raise_of_not_ok {i : Instr} (h : exec i s = .next t) (hok : t.statusCode ≠ 0) :
    ∃ r, t = raise r s := by
  obtain ⟨own, perform, hshape⟩ := exec_shape i s
  rw [hshape] at h
  obtain ⟨r, -, ht⟩ | ⟨-, rfl⟩ := runCommand_cases h
  · exact ⟨r, ht⟩
  · exact absurd (finish_statusCode _) hok

end ExecEnds

/-- Settles O17: such a command has only taken an exception, so its frame is the frame of `raise`. -/
theorem checkBeforeMutate : Obligations.CheckBeforeMutate := by
  intro i s t h hok
  obtain ⟨r, rfl⟩ := exec_eq_raise_of_not_ok h hok
  exact ⟨raise_x s r, raise_f s r, raise_mem s r, raise_cmd s r, raise_needlen_of_statusCode_ne_grow,
    raise_memBytes s r, raise_host s r, raise_portOut s r, raise_freeCount s r⟩

end Sys2Proof.Proofs
end

section
/-! The opcode table (spec/30_encoding.md R75, R79): what a row's match and mask say about the fields of a word, and
that the decoder, written from R71 and the `fields used` column, follows the rows. -/

namespace Sys2Proof.Proofs

/-! ### The columns of the table as fields -/

/-- The opcode a row of R75 names, read off its match. -/
def rowOpcode (r : TableRow) : BitVec 8 := (Fields.ofWord r.matchBits).opcode

/-- R75's `fields used` column, read off the mask of a row: the operand fields the mask leaves free. -/
def rowUses (r : TableRow) : Uses :=
  let m := Fields.ofWord r.maskBits
  { fd := m.fd = 0, fa := m.fa = 0, fb := m.fb = 0, xd := m.xd = 0, xs := m.xs = 0, n := m.n = 0, align := m.align = 0 }

/-- The mask of one operand field: none of its bits where the command uses it, else all (R77). -/
def unusedMask (k : Nat) (used : Bool) : BitVec k := if used then 0 else BitVec.allOnes k

/-- The mask of a command that uses `u` (R75): the opcode, the unused operand fields, `bo` and the reserved bits. -/
def maskFields (u : Uses) : Fields where
  opcode := BitVec.allOnes 8
  fd := unusedMask 2 u.fd
  fa := unusedMask 2 u.fa
  fb := unusedMask 2 u.fb
  xd := unusedMask 3 u.xd
  xs := unusedMask 3 u.xs
  n := unusedMask 7 u.n
  align := unusedMask 1 u.align
  bo := BitVec.allOnes 1
  reserved := BitVec.allOnes 3

/-- Every row of R75 has the mask of the fields it uses, a match of nothing but its opcode, and says of `n` what its
mask says. -/
theorem row_columns_agree : ∀ r ∈ opcodeTable,
    Fields.ofWord r.maskBits = maskFields (rowUses r) ∧ Fields.ofWord r.matchBits = { opcode := rowOpcode r } ∧
      r.usesN = (rowUses r).n := by
  decide +kernel

/-! ### Selection, field by field -/

theorem and_unusedMask_eq_zero {k : Nat} (x : BitVec k) (used : Bool) :
    x &&& unusedMask k used = 0 ↔ (used = false → x = 0) := by
  cases used <;> simp [unusedMask]

/-- A word is known by its fields (R71). -/
theorem ofWord_inj {v w : CmdWord} : Fields.ofWord v = Fields.ofWord w ↔ v = w :=
  ⟨fun h => by rw [← Fields.toWord_ofWord v, h, Fields.toWord_ofWord], fun h => by rw [h]⟩

/-- Masking a word with the mask for `u` leaves exactly the opcode `op` when the word has that opcode and zeroes
everywhere R77 and R78 ask for them. -/
theorem and_eq_match_iff {w mask mtch : CmdWord} {u : Uses} {op : BitVec 8}
    (hmask : Fields.ofWord mask = maskFields u) (hmatch : Fields.ofWord mtch = { opcode := op }) :
    w &&& mask = mtch ↔ (Fields.ofWord w).opcode = op ∧ (Fields.ofWord w).unusedZero u ∧
      (Fields.ofWord w).reserved = 0 ∧ (Fields.ofWord w).bo = 0 := by
  simp only [Fields.ofWord, maskFields, Fields.mk.injEq] at hmask
  obtain ⟨hop, hfd, hfa, hfb, hxd, hxs, hn, halign, hbo, hres⟩ := hmask
  rw [← ofWord_inj, hmatch]
  simp only [Fields.ofWord, Fields.mk.injEq, Fields.unusedZero, BitVec.extractLsb'_and, hop, hfd, hfa, hfb, hxd, hxs,
    hn, halign, hbo, hres, and_unusedMask_eq_zero, BitVec.and_allOnes]
  tauto

/-- R75, R79: a row selects a word when the word has the row's opcode and none of the grounds (b) to (e) holds. -/
theorem selects_iff {r : TableRow} (hr : r ∈ opcodeTable) (w : CmdWord) :
    r.selects w ↔ (Fields.ofWord w).opcode = rowOpcode r ∧ (Fields.ofWord w).unusedZero (rowUses r) ∧
      (Fields.ofWord w).reserved = 0 ∧ (Fields.ofWord w).bo = 0 ∧
      ((rowUses r).n = true → (Fields.ofWord w).n.toNat ≤ 64) := by
  obtain ⟨hmask, hmatch, hn⟩ := row_columns_agree r hr
  unfold TableRow.selects
  rw [and_eq_match_iff hmask hmatch, hn]
  simp only [and_assoc]
  rfl

/-! ### The decoder, row by row -/

/-- Where the opcode is a row's, the decoder reads a command with the row's mnemonic, if the fields outside those the
row uses are legal. -/
theorem decode_eq_only_of_row {f : Fields} {r : TableRow} (hr : r ∈ opcodeTable) (hop : f.opcode = rowOpcode r) :
    ∃ i, f.decode = f.only (rowUses r) i ∧ i.mnemonic = r.mnemonic := by
  obtain ⟨op, fd, fa, fb, xd, xs, n, align, bo, reserved⟩ := f
  subst hop
  revert r
  simp only [opcodeTable, List.cons_append, List.nil_append, List.forall_mem_cons, List.not_mem_nil, false_implies,
    implies_true, and_true]
  and_intros <;> exact ⟨_, rfl, rfl⟩

/-- R79 (a): an opcode the decoder reads a command from is the opcode of a row. -/
theorem row_of_decode_eq_ok {f : Fields} {i : Instr} (h : f.decode = .ok i) :
    ∃ r ∈ opcodeTable, f.opcode = rowOpcode r := by
  simp only [← BitVec.toNat_inj]
  unfold Fields.decode at h
  split at h
  case h_37 => cases h
  all_goals
    next hop =>
    rw [hop]
    decide +kernel

/-! ### The statement -/

/-- Settles O3: the row is found by the opcode, and what is left of selecting a word is when `Fields.only` answers the
command. -/
theorem decodeFollowsMatchAndMask : Obligations.DecodeFollowsMatchAndMask := by
  intro w m
  constructor
  · rintro ⟨i, hdecode, rfl⟩
    obtain ⟨r, hr, hop⟩ := row_of_decode_eq_ok hdecode
    obtain ⟨j, honly, hmnemonic⟩ := decode_eq_only_of_row hr hop
    rw [decode, honly] at hdecode
    obtain ⟨hunused, hres, hbo, hn, rfl⟩ := Fields.only_eq_ok.1 hdecode
    exact ⟨r, hr, hmnemonic.symm, (selects_iff hr w).2 ⟨hop, hunused, hres, hbo, hn⟩⟩
  · rintro ⟨r, hr, rfl, hsel⟩
    obtain ⟨hop, hunused, hres, hbo, hn⟩ := (selects_iff hr w).1 hsel
    obtain ⟨i, honly, hmnemonic⟩ := decode_eq_only_of_row hr hop
    exact ⟨i, honly.trans (Fields.only_eq_ok.2 ⟨hunused, hres, hbo, hn, rfl⟩), hmnemonic⟩

end Sys2Proof.Proofs
end

section
/-! The order of a command's checks (spec/60_exceptions.md R258): a command that passes its first checks ends with what
the next one raises, before it looks at the rest. The statements about `LENGTH` (R263), `INVALID_ARG` (R264) and `EOF`
(R255) say which check that is. -/

namespace Sys2Proof.Proofs

open Sys2Proof.Machine

/-! ### A check that raises -/

theorem runCommand_some_cons (r : Raise) (l : List (Option Raise)) (perform : State → State) (s : State) :
    runCommand (some r :: l) perform s = .next (raise r s) := rfl

theorem faultIf_of {c : Cause} {p : Prop} [Decidable p] (h : p) : faultIf c p = some (.fault c) := if_pos h

/-! ### What an exception leaves, as the record R34 and R35 name -/

theorem raise_length (s : State) : raise (.fault .length) s = { s with status := 0x23 } := by
  rw [← statusWord_length]; rfl

theorem raise_invalidArg (s : State) : raise (.fault .invalidArg) s = { s with status := 0x33 } := by
  rw [← statusWord_invalidArg]; rfl

theorem raise_eof (s : State) : raise .eof s = { s with status := 0x01 } := by
  rw [← statusWord_eof]; rfl

/-- R35: a length that is already a register's value is asked for as it is. -/
theorem raise_grow_toNat (w : Word) (s : State) :
    raise (.grow w.toNat) s = { s with status := 0x02, needlen := w } := by
  rw [← statusWord_grow]; simp only [raise, wordOf_toNat_self]

/-! ### The dyadic whole-buffer commands (R231, R263) -/

section Dyadic
variable {s : State} {fd fa fb : FIdx}

/-- R232 to R235: the four commands differ only in the operation on two bytes. -/
theorem exec_eq_bufferDyadic {i : Instr}
    (hi : i ∈ [Instr.band fd fa fb, .bandn fd fa fb, .bor fd fa fb, .bxor fd fa fb]) :
    ∃ op, exec i s = bufferDyadic i fd fa fb op s := by
  simp only [List.mem_cons, List.not_mem_nil, or_false] at hi
  obtain rfl | rfl | rfl | rfl := hi
  · exact ⟨fun a b => a &&& b, rfl⟩
  · exact ⟨fun a b => a &&& (255 - b), rfl⟩
  · exact ⟨fun a b => a ||| b, rfl⟩
  · exact ⟨fun a b => a ^^^ b, rfl⟩

theorem bufferDyadic_of_length_ne (i : Instr) (op : Byte → Byte → Byte)
    (hdesc : checkDesc s [fd, fa, fb] = none) (hlen : s.f[fa].len ≠ s.f[fb].len) :
    bufferDyadic i fd fa fb op s = .next { s with status := 0x23 } := by
  rw [bufferDyadic, hdesc, runCommand_none_cons, faultIf_of hlen, runCommand_some_cons, raise_length]

theorem bufferDyadic_of_cap_lt (i : Instr) (op : Byte → Byte → Byte)
    (hdesc : checkDesc s [fd, fa, fb] = none) (hlen : s.f[fa].len = s.f[fb].len)
    (hfit : s.f[fd].len.toNat ≤ s.f[fd].cap.toNat) (hcap : s.f[fd].cap.toNat < s.f[fa].len.toNat) :
    bufferDyadic i fd fa fb op s = .next { s with status := 0x02, needlen := s.f[fa].len } := by
  rw [bufferDyadic, hdesc, runCommand_none_cons, faultIf_eq_none.2 (not_not.2 hlen), runCommand_none_cons,
    growPlan_of_cap_lt hfit hcap, runCommand_some_cons, raise_grow_toNat]

end Dyadic

/-- Settles O27: after the descriptors the lengths are compared, and only then is growth planned. -/
theorem mismatchedLengthsFault : Obligations.MismatchedLengthsFault := by
  intro s fd fa fb hfd hfa hfb i hi
  have hdesc : checkDesc s [fd, fa, fb] = none := by
    rw [checkDesc_eq_none]
    simp only [List.forall_mem_cons]
    exact ⟨hfd, hfa, hfb, List.forall_mem_nil _⟩
  obtain ⟨op, hexec⟩ := exec_eq_bufferDyadic (s := s) hi
  rw [hexec]
  exact ⟨bufferDyadic_of_length_ne i op hdesc, fun hlen => bufferDyadic_of_cap_lt i op hdesc hlen hfd.1⟩

/-! ### The commands that test an argument before the bounds (R201, R214, R215) -/

section Argument
variable {s : State} {xd : XIdx} {f : FIdx} {xs : XIdx} {n : BitVec 7}

theorem exec_rdbits_of_width_lt (hlegal : checkLegal (.rdbits xd f n) = none) (hdesc : checkDesc s [f] = none)
    (hw : s.f[f].width.toNat < n.toNat) : exec (.rdbits xd f n) s = .next { s with status := 0x01 } := by
  simp only [exec, execRdbits]
  rw [hlegal, runCommand_none_cons, hdesc, runCommand_none_cons, if_pos hw, runCommand_some_cons, raise_eof]

theorem exec_fcount_of_one_lt (hdesc : checkDesc s [f] = none) (hx : 1 < s.x[xs].toNat) :
    exec (.fcount xd f xs) s = .next { s with status := 0x33 } := by
  simp only [exec, execFcount]
  rw [hdesc, runCommand_none_cons, faultIf_of hx, runCommand_some_cons, raise_invalidArg]

theorem exec_ffill_of_one_lt (hdesc : checkDesc s [f] = none) (hx : 1 < s.x[xs].toNat) :
    exec (.ffill f xs) s = .next { s with status := 0x33 } := by
  simp only [exec, execFfill]
  rw [hdesc, runCommand_none_cons, faultIf_of hx, runCommand_some_cons, raise_invalidArg]

end Argument

/-- Settles O28: in each of the three commands the argument's check stands between the descriptor's and the bounds. -/
theorem argumentTestedBeforeBounds : Obligations.ArgumentTestedBeforeBounds := by
  intro s xd f xs n hn hf
  have hdesc : checkDesc s [f] = none := checkDesc_eq_none.2 (List.forall_mem_singleton.2 hf)
  have hlegal : checkLegal (.rdbits xd f n) = none := by
    rw [checkLegal_eq_none]
    rintro _ ⟨⟩
    exact hn
  exact ⟨exec_rdbits_of_width_lt hlegal hdesc,
    fun hx => ⟨exec_fcount_of_one_lt hdesc hx, exec_ffill_of_one_lt hdesc hx⟩⟩

end Sys2Proof.Proofs
end

section
/-! The command word (spec/30_encoding.md R71 to R79): decoding and encoding are inverse to each other. -/

namespace Sys2Proof.Proofs

/-! ### From a command to its word and back -/

/-- R75: every well-formed command is read back from the fields it is encoded in. -/
theorem decode_fields_of_wellFormed {i : Instr} (h : WellFormed i) : i.fields.decode = .ok i := by
  cases i with
  | norm fd => exact Laws.FieldsRoundTrip.norm fd h
  | need xd fa => exact Laws.FieldsRoundTrip.need xd fa h
  | ensure fd => exact Laws.FieldsRoundTrip.ensure fd h
  | get xd fd n => exact Laws.FieldsRoundTrip.get xd fd n h
  | put fd xs n => exact Laws.FieldsRoundTrip.put fd xs n h
  | ext2 fd fa fb => exact Laws.FieldsRoundTrip.ext2 fd fa fb h
  | bit xd fa => exact Laws.FieldsRoundTrip.bit xd fa h
  | uint8 xd fa => exact Laws.FieldsRoundTrip.uint8 xd fa h
  | uint16 xd fa => exact Laws.FieldsRoundTrip.uint16 xd fa h
  | uint32 xd fa => exact Laws.FieldsRoundTrip.uint32 xd fa h
  | uint64 xd fa => exact Laws.FieldsRoundTrip.uint64 xd fa h
  | bits fd fa al => exact Laws.FieldsRoundTrip.bits fd fa al h
  | setbit fd xs => exact Laws.FieldsRoundTrip.setbit fd xs h
  | setu8 fd xs => exact Laws.FieldsRoundTrip.setu8 fd xs h
  | setu16 fd xs => exact Laws.FieldsRoundTrip.setu16 fd xs h
  | setu32 fd xs => exact Laws.FieldsRoundTrip.setu32 fd xs h
  | setu64 fd xs => exact Laws.FieldsRoundTrip.setu64 fd xs h
  | setbits fd fa al => exact Laws.FieldsRoundTrip.setbits fd fa al h
  | rotl fd fa xs => exact Laws.FieldsRoundTrip.rotl fd fa xs h
  | lz xd fa => exact Laws.FieldsRoundTrip.lz xd fa h
  | tz xd fa => exact Laws.FieldsRoundTrip.tz xd fa h
  | ones xd fa => exact Laws.FieldsRoundTrip.ones xd fa h
  | rdbits xd fd n => exact Laws.FieldsRoundTrip.rdbits xd fd n h
  | fand fd fa fb => exact Laws.FieldsRoundTrip.fand fd fa fb h
  | fandn fd fa fb => exact Laws.FieldsRoundTrip.fandn fd fa fb h
  | forr fd fa fb => exact Laws.FieldsRoundTrip.forr fd fa fb h
  | fxor fd fa fb => exact Laws.FieldsRoundTrip.fxor fd fa fb h
  | fnot fd fa => exact Laws.FieldsRoundTrip.fnot fd fa h
  | frotl fd fa xs => exact Laws.FieldsRoundTrip.frotl fd fa xs h
  | fcount xd fa xs => exact Laws.FieldsRoundTrip.fcount xd fa xs h
  | ffill fd xs => exact Laws.FieldsRoundTrip.ffill fd xs h
  | band fd fa fb => exact Laws.FieldsRoundTrip.band fd fa fb h
  | bandn fd fa fb => exact Laws.FieldsRoundTrip.bandn fd fa fb h
  | bor fd fa fb => exact Laws.FieldsRoundTrip.bor fd fa fb h
  | bxor fd fa fb => exact Laws.FieldsRoundTrip.bxor fd fa fb h
  | bnot fd fa => exact Laws.FieldsRoundTrip.bnot fd fa h

/-- Settles O1: the word has all the fields of the command, and the command is read back from them. -/
theorem decodeOfEncode : Obligations.DecodeOfEncode := by
  intro i h
  rw [decode, encode, Fields.ofWord_toWord]
  exact decode_fields_of_wellFormed h

/-! ### From a word to its command and back -/

/-- R77, R79: where the decoder reads a command, the command's fields are the ones it was read from, the unused ones
being zero in both, and its count has been tested. -/
theorem fields_of_decode_eq_ok {f : Fields} {i : Instr} (h : f.decode = .ok i) : i.fields = f ∧ WellFormed i := by
  obtain ⟨op, fd, fa, fb, xd, xs, n, align, bo, reserved⟩ := f
  unfold Fields.decode at h
  split at h
  case h_37 => cases h
  all_goals
    next hop =>
    obtain ⟨⟨hfd, hfa, hfb, hxd, hxs, hn, halign⟩, hres, hbo, hcount, rfl⟩ := Fields.only_eq_ok.1 h
    have hcode := BitVec.ofNat_toNat 8 op
    rw [show op.toNat = _ from hop, BitVec.setWidth_eq] at hcode
    simp_all [Instr.fields, WellFormed, Instr.count?]

/-- Settles O2: the word is made of the fields it was read from. -/
theorem encodeOfDecode : Obligations.EncodeOfDecode := by
  intro w i h
  obtain ⟨hfields, hwf⟩ := fields_of_decode_eq_ok h
  exact ⟨by rw [encode, hfields, Fields.toWord_ofWord], hwf⟩

/-! ### Words that are no command -/

/-- R77, R78: the word of a command has zero reserved bits and `bo = 0`. -/
theorem fields_reserved_bo (i : Instr) : i.fields.reserved = 0 ∧ i.fields.bo = 0 := by
  cases i <;> exact ⟨rfl, rfl⟩

/-- Settles O4: such a word does not have the fields of any command. -/
theorem reservedAndLittleEndianIllegal : Obligations.ReservedAndLittleEndianIllegal := by
  intro w hw i h
  obtain ⟨hres, hbo⟩ := fields_reserved_bo i
  rw [(fields_of_decode_eq_ok h).1] at hres hbo
  obtain hw | hw := hw
  · exact hw hres
  · exact absurd (hw.symm.trans hbo) (by decide)

/-- Settles O5: fixed words, by evaluating the decoder. -/
theorem specWordsDecode : Obligations.SpecWordsDecode := by
  unfold Obligations.SpecWordsDecode
  decide +kernel

end Sys2Proof.Proofs
end

section
/-! The machine around the commands: issuing a word (spec/30_encoding.md R80), reset
(spec/70_reset_and_hazards.md R280), the register numbers (spec/10_state.md R28), and the host's own path to `M` (R37). -/

namespace Sys2Proof.Proofs

open Sys2Proof.Machine

/-! ### Issuing a command word -/

section Issue
variable {s : State} {v : Word} {rest : List HostOp}

theorem hostWrite_zero_of_not_faulted (hf : ¬ s.Faulted) : hostWrite 0 v s = issueCommand (v.extractLsb' 0 32) s := by
  simp only [hostWrite, if_neg hf, portReg_eq_cmd_iff.2 rfl]

/-- R32: outside the faulted state a host write to register 0 issues the low 32 bits. -/
theorem step_of_command_write (h : s.host = .write 0 v :: rest) (hf : ¬ s.Faulted) :
    step s = issueCommand (v.extractLsb' 0 32) { s with host := rest, portOut := none } := by
  have hf' : ¬ ({ s with host := rest, portOut := none } : State).Faulted :=
    fun hc => hf (faulted_of_status_eq (s := { s with host := rest, portOut := none }) rfl hc)
  rw [step_of_host_cons h]
  exact hostWrite_zero_of_not_faulted hf'

theorem issueCommand_of_decode_ok {w : CmdWord} {i : Instr} (h : decode w = .ok i) (s : State) :
    issueCommand w s = exec i { s with cmd := w } := by
  simp only [issueCommand, h]

theorem issueCommand_of_illegal {w : CmdWord} (h : ∀ i, decode w ≠ .ok i) (s : State) :
    issueCommand w s = .next { s with cmd := w, status := 0x43 } := by
  unfold issueCommand
  split
  · next i hi => exact absurd hi (h i)
  · rw [← statusWord_illegalCmd]; rfl

end Issue

/-- Settles O6: the write issues the word, and the word is the command's. -/
theorem stepRunsDecodedCommand : Obligations.StepRunsDecodedCommand := by
  intro s v rest i h hf hi
  rw [step_of_command_write h hf, issueCommand_of_decode_ok hi]

/-- Settles O7: the write issues the word, and the word is none. -/
theorem illegalWordFaults : Obligations.IllegalWordFaults := by
  intro s v rest h hf hi
  rw [step_of_command_write h hf, issueCommand_of_illegal hi]

/-! ### Reset -/

/-- R42: `STATUS` 0 is not the faulted state. -/
theorem faultO_of_status_eq_zero {s : State} (h : s.status = 0) : s.faultO = false := by
  unfold State.faultO State.Faulted State.statusCode
  rw [h]
  decide

/-- R42: a machine whose registers have their reset values reads 0 at every register number. -/
theorem hostRead_powerOn (size : MemSize) (m : Memory) (r : Nat) : hostRead r (State.powerOn size m) = 0 := by
  refine hostRead_of_zero (fun i => ?_) (fun i => ?_) rfl rfl rfl r
  · simp [State.powerOn]
  · simp [State.powerOn]

/-- R280: the port does not see what reset keeps, so it reads what it reads at power-up. -/
theorem hostRead_resetEngine (s : State) (r : Nat) : hostRead r s.resetEngine = 0 :=
  hostRead_powerOn s.memBytes s.mem r

/-- Settles O9: the step is `State.resetEngine`. -/
theorem resetClearsEveryRegister : Obligations.ResetClearsEveryRegister := by
  intro s rest h
  exact ⟨_, step_of_host_cons h, hostRead_resetEngine _, faultO_of_status_eq_zero rfl, rfl, rfl⟩

/-- Settles O15: the content is canonical by hypothesis and `STATUS` 0 is legal. -/
theorem powerOnHasInvariant : Obligations.PowerOnHasInvariant := by
  intro size m hwf hwithin
  have hlegal : StatusLegal (0 : Word) := by decide
  exact ⟨⟨hwf, hwithin, hlegal⟩, hostRead_powerOn size m, faultO_of_status_eq_zero rfl, rfl⟩

/-! ### Register numbers -/

theorem portReg_of_x_number (i : XIdx) : portReg (8 + i.val) = .x i := by
  revert i; decide

theorem portReg_of_f_number (i : FIdx) (c : Component) : portReg (16 + 8 * i.val + c.offset) = .f i c := by
  revert i; cases c <;> decide

/-- R28: a field register's last three numbers are reserved. -/
theorem portReg_of_f_gap (i : FIdx) {k : Nat} (h5 : 5 ≤ k) (h7 : k ≤ 7) : portReg (16 + 8 * i.val + k) = .reserved := by
  have h : ∀ i : FIdx, ∀ k < 8, 5 ≤ k → portReg (16 + 8 * i.val + k) = .reserved := by decide
  exact h i k (by omega) h5

/-- R28: the numbers between `NEEDLEN` and `X[0]` are reserved. -/
theorem portReg_of_low_gap {r : Nat} (h3 : 3 ≤ r) (h7 : r ≤ 7) : portReg r = .reserved := by
  have h : ∀ r < 8, 3 ≤ r → portReg r = .reserved := by decide
  exact h r (by omega) h3

theorem portReg_of_ge {r : Nat} (h : 48 ≤ r) : portReg r = .reserved := by
  unfold portReg
  rw [if_neg (by omega), if_neg (by omega), if_neg (by omega), dif_neg (by omega), dif_neg (by omega)]

/-- Settles O10: the table of R28, row by row. -/
theorem portNumbersNameRegisters : Obligations.PortNumbersNameRegisters :=
  ⟨rfl, rfl, rfl, portReg_of_x_number,
    fun i => ⟨portReg_of_f_number i .base, portReg_of_f_number i .len, portReg_of_f_number i .cap,
      portReg_of_f_number i .pos, portReg_of_f_number i .width, fun _ => portReg_of_f_gap i⟩,
    fun _ => portReg_of_low_gap, fun _ => portReg_of_ge⟩

/-! ### The host's own path to `M` -/

section HostPath
variable {s : State} {rest : List HostOp} {a : Nat} {v : Byte}

theorem step_of_memRead (h : s.host = .memRead a :: rest) (ha : a < s.memBytes.val) :
    step s = .next { s with host := rest, portOut := some ((s.mem.read a).zeroExtend 64) } := by
  rw [step_of_host_cons h]
  exact if_pos ha

theorem step_of_memWrite (h : s.host = .memWrite a v :: rest) (ha : a < s.memBytes.val) :
    step s = .next { s with mem := s.mem.write a v, host := rest, portOut := none } := by
  rw [step_of_host_cons h]
  exact if_pos ha

/-- R37, R63: there is no byte at `MEM_BYTES` or above. -/
theorem step_of_no_such_byte (h : s.host = .memRead a :: rest ∨ s.host = .memWrite a v :: rest)
    (ha : s.memBytes.val ≤ a) : step s = .fault (.noSuchByte a) := by
  obtain h | h := h
  · rw [step_of_host_cons h]
    exact if_neg (Nat.not_lt.2 ha)
  · rw [step_of_host_cons h]
    exact if_neg (Nat.not_lt.2 ha)

end HostPath

/-- Settles O13: the two accesses below `MEM_BYTES`, the stop above, and the idle step. -/
theorem hostPathReachesBytesOfMemory : Obligations.HostPathReachesBytesOfMemory := by
  intro s a v rest
  exact ⟨fun ha => ⟨fun h => step_of_memRead h ha,
      fun h => ⟨_, step_of_memWrite h ha, fun b => Memory.read_write s.mem a v b⟩⟩,
    fun ha h => step_of_no_such_byte h ha, step_of_host_nil⟩

end Sys2Proof.Proofs
end

section
/-! What every command does, in one table: its own checks (spec/60_exceptions.md R258) and its effect, that is the
registers it leaves, the bits it writes and the bits growth clears. `exec_performs` ties the table to `exec`; the
statements about the commands are then facts about the table. -/

namespace Sys2Proof.Proofs

open Sys2Proof.Machine

/-! ### The checks of a command's own -/

/-- R258: the checks a command makes after those of its word and its descriptors, in their order. -/
def ownChecks (i : Instr) (s : State) : List (Option Raise) :=
  match i with
  | .norm fd => [checkBounds s.f[fd] s.f[fd].pos.toNat 0]
  | .get _ fd n | .put fd _ n => [checkBounds s.f[fd] s.f[fd].pos.toNat n.toNat]
  | .ext2 fd fa fb =>
    [faultIf .bounds (8 * (s.f[fa].len.toNat + s.f[fb].len.toNat) < s.f[fa].pos.toNat + 8 * s.f[fd].len.toNat)]
  | .bit _ fa => [checkBounds s.f[fa] s.f[fa].pos.toNat 1]
  | .uint8 _ fa => [checkBounds s.f[fa] s.f[fa].pos.toNat 8]
  | .uint16 _ fa => [checkBounds s.f[fa] s.f[fa].pos.toNat 16]
  | .uint32 _ fa => [checkBounds s.f[fa] s.f[fa].pos.toNat 32]
  | .uint64 _ fa => [checkBounds s.f[fa] s.f[fa].pos.toNat 64]
  | .bits fd fa _ =>
    [checkBounds s.f[fa] s.f[fa].pos.toNat s.f[fa].width.toNat,
     if s.f[fa].width.toNat = 0 then none else growPlan s.f[fd] (ceil8 s.f[fa].width.toNat)]
  | .ensure fd => [growPlan s.f[fd] (needLen s.f[fd].pos.toNat s.f[fd].width.toNat)]
  | .setbit fd _ => [growPlan s.f[fd] (needLen s.f[fd].pos.toNat 1)]
  | .setu8 fd _ => [growPlan s.f[fd] (needLen s.f[fd].pos.toNat 8)]
  | .setu16 fd _ => [growPlan s.f[fd] (needLen s.f[fd].pos.toNat 16)]
  | .setu32 fd _ => [growPlan s.f[fd] (needLen s.f[fd].pos.toNat 32)]
  | .setu64 fd _ => [growPlan s.f[fd] (needLen s.f[fd].pos.toNat 64)]
  | .setbits fd fa _ =>
    [faultIf .bounds (s.f[fa].len.toNat < ceil8 s.f[fd].width.toNat),
     growPlan s.f[fd] (needLen s.f[fd].pos.toNat s.f[fd].width.toNat)]
  | .rotl fd fa _ | .bnot fd fa => [growPlan s.f[fd] s.f[fa].len.toNat]
  | .rdbits _ fd n =>
    [if s.f[fd].width.toNat < n.toNat then some .eof else none, checkBounds s.f[fd] s.f[fd].pos.toNat n.toNat]
  | .fand fd fa fb | .fandn fd fa fb | .forr fd fa fb | .fxor fd fa fb => fieldChecks s fd [fa, fb]
  | .fnot fd fa | .frotl fd fa _ => fieldChecks s fd [fa]
  | .fcount _ f xs | .ffill f xs =>
    [faultIf .invalidArg (1 < s.x[xs].toNat), checkBounds s.f[f] s.f[f].pos.toNat s.f[f].width.toNat]
  | .band fd fa fb | .bandn fd fa fb | .bor fd fa fb | .bxor fd fa fb =>
    [faultIf .length (s.f[fa].len ≠ s.f[fb].len), growPlan s.f[fd] s.f[fa].len.toNat]
  | .need .. | .lz .. | .tz .. | .ones .. => []

/-! ### Effects -/

/-- What a command does once its checks have passed: the registers it leaves, the range of bits it writes and what the
`k`-th of them becomes, and the bits growth clears first. -/
structure Effect where
  x : Vector Word 8
  f : Vector FieldReg 4
  dst : BitRange := ⟨0, 0⟩
  val : Nat → Bool := fun _ => false
  grown : BitRange := ⟨0, 0⟩

/-- R104: a register after growth to `need` bytes. -/
def growReg (r : FieldReg) (need : Nat) : FieldReg :=
  { r with len := if r.len.toNat < need then wordOf need else r.len }

/-- A command that writes a scalar register. -/
def scalarEffect (s : State) (xd : XIdx) (v : Nat) : Effect := { x := s.x.set xd (wordOf v), f := s.f }

/-- A command that writes `w` bits at position `p` of its destination, which does not grow. -/
def storeEffect (s : State) (fd : FIdx) (p w : Nat) (val : Nat → Bool) : Effect :=
  { x := s.x, f := s.f, dst := rangeOf s.f[fd] p w, val := val }

/-- A command that grows its destination to `need` bytes and then writes `w` bits at position `p` of it. -/
def growEffect (s : State) (fd : FIdx) (need p w : Nat) (val : Nat → Bool) : Effect :=
  { x := s.x, f := s.f.set fd (growReg s.f[fd] need), dst := rangeOf s.f[fd] p w, val := val,
    grown := grownRange s.f[fd] need }

/-- R152 to R156: `w` bits at `pos` into a scalar register. -/
def uintEffect (s : State) (xd : XIdx) (fa : FIdx) (w : Nat) : Effect :=
  scalarEffect s xd (s.mem.bitsRead s.f[fa].base.toNat s.f[fa].pos.toNat w)

/-- R160 to R164: the low `w` bits of a scalar register to `pos`. -/
def setUintEffect (s : State) (fd : FIdx) (xs : XIdx) (w : Nat) : Effect :=
  growEffect s fd (needLen s.f[fd].pos.toNat w) s.f[fd].pos.toNat w (fun k => s.x[xs].getLsbD (w - 1 - k))

/-- Bit `k` of the field of a register. -/
def fieldBit (s : State) (i : FIdx) (k : Nat) : Bool := bitAt s i (s.f[i].pos.toNat + k)

/-- R205: a whole-field command, `val k` being bit `k` of the field it writes. -/
def fieldEffect (s : State) (fd : FIdx) (val : Nat → Bool) : Effect :=
  storeEffect s fd s.f[fd].pos.toNat s.f[fd].width.toNat val

/-- R231: a whole-buffer command, `out j` being byte `j` of the buffer it writes. -/
def bufferEffect (s : State) (fd fa : FIdx) (out : Nat → Byte) : Effect :=
  growEffect s fd s.f[fa].len.toNat 0 (8 * s.f[fa].len.toNat) (fun k => bitOfByte (out (k / 8)) (k % 8))

/-- R151: bit `k` of the representation of the field of a register. -/
def reprBit (s : State) (fa : FIdx) (align : Align) (k : Nat) : Bool :=
  let w := s.f[fa].width.toNat
  match align with
  | .left => if k < w then fieldBit s fa k else false
  | .right => if k < 8 * ceil8 w - w then false else fieldBit s fa (k - (8 * ceil8 w - w))

/-- R165: bit `k` of a field of width `w` in the representation a buffer holds. -/
def unreprBit (s : State) (fa : FIdx) (align : Align) (w k : Nat) : Bool :=
  match align with
  | .left => bitAt s fa k
  | .right => bitAt s fa (8 * ceil8 w - w + k)

/-- The effect of a command in a state in which its checks pass. -/
def effect (i : Instr) (s : State) : Effect :=
  match i with
  | .norm fd => { x := s.x, f := s.f.set fd (normalizeAt s.f[fd] s.f[fd].pos.toNat) }
  | .need xd fa => scalarEffect s xd (needLen s.f[fa].pos.toNat s.f[fa].width.toNat)
  | .ensure fd => growEffect s fd (needLen s.f[fd].pos.toNat s.f[fd].width.toNat) 0 0 (fun _ => false)
  | .get xd fd n =>
    { uintEffect s xd fd n.toNat with f := s.f.set fd (normalizeAt s.f[fd] (s.f[fd].pos.toNat + n.toNat)) }
  | .put fd xs n =>
    { storeEffect s fd s.f[fd].pos.toNat n.toNat (fun k => s.x[xs].getLsbD (n.toNat - 1 - k)) with
      f := s.f.set fd (normalizeAt s.f[fd] (s.f[fd].pos.toNat + n.toNat)) }
  | .ext2 fd fa fb =>
    storeEffect s fd 0 (8 * s.f[fd].len.toNat) (fun k => concatBit s.mem s.f[fa] s.f[fb] (s.f[fa].pos.toNat + k))
  | .bit xd fa => uintEffect s xd fa 1
  | .uint8 xd fa => uintEffect s xd fa 8
  | .uint16 xd fa => uintEffect s xd fa 16
  | .uint32 xd fa => uintEffect s xd fa 32
  | .uint64 xd fa => uintEffect s xd fa 64
  | .bits fd fa align =>
    growEffect s fd (ceil8 s.f[fa].width.toNat) 0 (8 * ceil8 s.f[fa].width.toNat) (reprBit s fa align)
  | .setbit fd xs => setUintEffect s fd xs 1
  | .setu8 fd xs => setUintEffect s fd xs 8
  | .setu16 fd xs => setUintEffect s fd xs 16
  | .setu32 fd xs => setUintEffect s fd xs 32
  | .setu64 fd xs => setUintEffect s fd xs 64
  | .setbits fd fa align =>
    growEffect s fd (needLen s.f[fd].pos.toNat s.f[fd].width.toNat) s.f[fd].pos.toNat s.f[fd].width.toNat
      (unreprBit s fa align s.f[fd].width.toNat)
  | .rotl fd fa xs =>
    let total := 8 * s.f[fa].len.toNat
    { growEffect s fd s.f[fa].len.toNat 0 total (fun k => bitAt s fa ((k + reducedAmount s.x[xs] total) % total)) with
      f := s.f.set fd { s.f[fd] with len := s.f[fa].len } }
  | .lz xd fa => scalarEffect s xd (zerosFrom (bitAt s fa) (8 * s.f[fa].len.toNat) 0)
  | .tz xd fa =>
    let total := 8 * s.f[fa].len.toNat
    scalarEffect s xd (zerosFrom (fun k => bitAt s fa (total - 1 - k)) total 0)
  | .ones xd fa => scalarEffect s xd (countOnes (bitAt s fa) (8 * s.f[fa].len.toNat))
  | .rdbits xd fd n =>
    { uintEffect s xd fd n.toNat with
      f := s.f.set fd { s.f[fd] with pos := wordOf (s.f[fd].pos.toNat + n.toNat)
                                     width := wordOf (s.f[fd].width.toNat - n.toNat) } }
  | .fand fd fa fb => fieldEffect s fd (fun k => fieldBit s fa k && fieldBit s fb k)
  | .fandn fd fa fb => fieldEffect s fd (fun k => fieldBit s fa k && !fieldBit s fb k)
  | .forr fd fa fb => fieldEffect s fd (fun k => fieldBit s fa k || fieldBit s fb k)
  | .fxor fd fa fb => fieldEffect s fd (fun k => fieldBit s fa k ^^ fieldBit s fb k)
  | .fnot fd fa => fieldEffect s fd (fun k => !fieldBit s fa k)
  | .frotl fd fa xs =>
    let w := s.f[fd].width.toNat
    fieldEffect s fd (fun k => fieldBit s fa ((k + reducedAmount s.x[xs] w) % w))
  | .fcount xd fa xs =>
    scalarEffect s xd (countOnes (fun k => fieldBit s fa k == decide (s.x[xs].toNat = 1)) s.f[fa].width.toNat)
  | .ffill fd xs =>
    let w := s.f[fd].width.toNat
    fieldEffect s fd (fun k => (s.x[xs].toNat * (2 ^ w - 1)).testBit (w - 1 - k))
  | .band fd fa fb => bufferEffect s fd fa (fun j => bufferByte s fa j &&& bufferByte s fb j)
  | .bandn fd fa fb => bufferEffect s fd fa (fun j => bufferByte s fa j &&& (255 - bufferByte s fb j))
  | .bor fd fa fb => bufferEffect s fd fa (fun j => bufferByte s fa j ||| bufferByte s fb j)
  | .bxor fd fa fb => bufferEffect s fd fa (fun j => bufferByte s fa j ^^^ bufferByte s fb j)
  | .bnot fd fa => bufferEffect s fd fa (fun j => 255 - bufferByte s fa j)

/-! ### A state in which an effect has been done -/

/-- The bits of a range have the values of a string, every other bit of `M` is kept. -/
def Stored (m m' : Memory) (d : BitRange) (val : Nat → Bool) : Prop :=
  ∀ b, m'.bitRead 0 b = if d.Has b then val (b - d.lo) else m.bitRead 0 b

/-- From `s` to `t` exactly the effect has happened, `STATUS` apart. -/
structure Effect.Done (e : Effect) (s t : State) : Prop where
  x : t.x = e.x
  f : t.f = e.f
  bit : ∀ b, t.mem.bitRead 0 b =
    if e.dst.Has b then e.val (b - e.dst.lo) else if e.grown.Has b then false else s.mem.bitRead 0 b
  wf : s.mem.wf → t.mem.wf
  cmd : t.cmd = s.cmd
  needlen : t.needlen = s.needlen
  memBytes : t.memBytes = s.memBytes
  host : t.host = s.host
  portOut : t.portOut = s.portOut
  freeCount : t.freeCount = s.freeCount

theorem Effect.Done.finish {e : Effect} {s t : State} (h : e.Done s t) : e.Done s (finish t) :=
  ⟨h.x, h.f, h.bit, h.wf, h.cmd, h.needlen, h.memBytes, h.host, h.portOut, h.freeCount⟩

theorem not_has_empty (b lo : Nat) : ¬ BitRange.Has ⟨lo, lo⟩ b := fun h => Nat.not_lt.2 h.1 h.2

section Done
variable {s : State} {xd xs : XIdx} {fd fa fb : FIdx} {m : Memory} {need p w : Nat} {val : Nat → Bool}

theorem has_rangeOf_iff {r : FieldReg} {b : Nat} :
    (rangeOf r p w).Has b ↔ 8 * r.base.toNat + p ≤ b ∧ b < 8 * r.base.toNat + p + w := Iff.rfl

theorem stored_writeBits {r : FieldReg} {g : Nat → Bool} (h : ∀ k < w, g k = val k) :
    Stored m (m.writeBits r.base.toNat p g w) (rangeOf r p w) val := by
  intro b
  rw [Memory.bitRead_writeBits, Nat.mul_zero, Nat.zero_add]
  by_cases hb : (rangeOf r p w).Has b
  · have hb' := has_rangeOf_iff.1 hb
    rw [if_pos hb', if_pos hb, h _ (by omega)]
    rfl
  · rw [if_neg (has_rangeOf_iff.not.1 hb), if_neg hb]

theorem stored_bitWrite {r : FieldReg} {v : Bool} (h : v = val 0) :
    Stored m (m.bitWrite r.base.toNat p v) (rangeOf r p 1) val := by
  have hst : Stored m (m.writeBits r.base.toNat p (fun _ => v) 1) (rangeOf r p 1) val :=
    stored_writeBits fun k hk => by rw [Nat.lt_one_iff.1 hk, h]
  rwa [Memory.writeBits, Memory.writeBits_zero, Nat.add_zero] at hst

/-- A run of byte writes is a run of bit writes, eight to a byte. -/
theorem stored_writeBytes {r : FieldReg} {out : Nat → Byte} {n : Nat}
    (h : ∀ k < 8 * n, bitOfByte (out (k / 8)) (k % 8) = val k) :
    Stored m (m.writeBytes r.base.toNat out n) (rangeOf r 0 (8 * n)) val := by
  intro b
  rw [Memory.bitRead_writeBytes, Nat.zero_add]
  by_cases hb : (rangeOf r 0 (8 * n)).Has b
  · have hb' := has_rangeOf_iff.1 hb
    have hbyte : r.base.toNat ≤ b / 8 ∧ b / 8 < r.base.toNat + n := by omega
    have hlo : (rangeOf r 0 (8 * n)).lo = 8 * r.base.toNat := rfl
    have hq : b / 8 - r.base.toNat = (b - 8 * r.base.toNat) / 8 := by omega
    have hr : b % 8 = (b - 8 * r.base.toNat) % 8 := by omega
    rw [if_pos hb, if_pos hbyte, hlo, ← h _ (by omega), hq, hr]
  · have hb' := has_rangeOf_iff.not.1 hb
    have hbyte : ¬ (r.base.toNat ≤ b / 8 ∧ b / 8 < r.base.toNat + n) := by omega
    rw [if_neg hb, if_neg hbyte]

theorem vector_set_getElem_self {α : Type} {n : Nat} (v : Vector α n) (i : Fin n) : v.set i v[i] = v := by
  simp

theorem growDo_f_eq_set (fd : FIdx) (need : Nat) (s : State) :
    (growDo fd need s).f = s.f.set fd (growReg s.f[fd] need) := by
  unfold growDo growReg
  dsimp only
  split
  · rfl
  · exact (vector_set_getElem_self s.f fd).symm

/-- A command that leaves `M` and writes registers. -/
theorem done_of_mem_eq {e : Effect} {t : State} (hdst : e.dst = ⟨0, 0⟩) (hgrown : e.grown = ⟨0, 0⟩)
    (h : t = { s with x := e.x, f := e.f }) : e.Done s t := by
  subst h
  refine ⟨rfl, rfl, fun b => ?_, id, rfl, rfl, rfl, rfl, rfl, rfl⟩
  rw [hdst, hgrown, if_neg (not_has_empty b 0), if_neg (not_has_empty b 0)]

theorem done_scalar (v : Nat) : (scalarEffect s xd v).Done s (s.setX xd (wordOf v)) :=
  done_of_mem_eq rfl rfl rfl

theorem done_store (hst : Stored s.mem m (rangeOf s.f[fd] p w) val) (hwf : s.mem.wf → m.wf) :
    (storeEffect s fd p w val).Done s (s.setMem m) := by
  refine ⟨rfl, rfl, fun b => ?_, hwf, rfl, rfl, rfl, rfl, rfl, rfl⟩
  have hgrown : ¬ (storeEffect s fd p w val).grown.Has b := not_has_empty b 0
  rw [if_neg hgrown]
  exact hst b

theorem done_grow (hst : Stored (growDo fd need s).mem m (rangeOf s.f[fd] p w) val)
    (hwf : (growDo fd need s).mem.wf → m.wf) :
    (growEffect s fd need p w val).Done s ((growDo fd need s).setMem m) := by
  refine ⟨growDo_x .., growDo_f_eq_set .., fun b => ?_, fun h => hwf (growDo_mem_wf h), growDo_cmd ..,
    growDo_needlen .., growDo_memBytes .., growDo_host .., growDo_portOut .., growDo_freeCount ..⟩
  rw [State.setMem_mem, hst b, growDo_bitRead, Nat.mul_zero, Nat.zero_add]
  rfl

theorem done_writeBits {g : Nat → Bool} (h : ∀ k < w, g k = val k) :
    (storeEffect s fd p w val).Done s (s.setMem (s.mem.writeBits s.f[fd].base.toNat p g w)) :=
  done_store (stored_writeBits h) fun hm => Memory.writeBits_wf hm ..

theorem done_bitsWrite {v : Nat} (h : ∀ k < w, v.testBit (w - 1 - k) = val k) :
    (storeEffect s fd p w val).Done s (s.setMem (s.mem.bitsWrite s.f[fd].base.toNat p w v)) :=
  done_writeBits h

theorem done_writeBytes {out : Nat → Byte} {n : Nat} (h : ∀ k < 8 * n, bitOfByte (out (k / 8)) (k % 8) = val k) :
    (storeEffect s fd 0 (8 * n) val).Done s (s.setMem (s.mem.writeBytes s.f[fd].base.toNat out n)) :=
  done_store (stored_writeBytes h) fun hm => Memory.writeBytes_wf hm ..

theorem done_grow_writeBits {g : Nat → Bool} (h : ∀ k < w, g k = val k) :
    (growEffect s fd need p w val).Done s
      ((growDo fd need s).setMem ((growDo fd need s).mem.writeBits s.f[fd].base.toNat p g w)) :=
  done_grow (stored_writeBits h) fun hm => Memory.writeBits_wf hm ..

theorem done_grow_bitsWrite {v : Nat} (h : ∀ k < w, v.testBit (w - 1 - k) = val k) :
    (growEffect s fd need p w val).Done s
      ((growDo fd need s).setMem ((growDo fd need s).mem.bitsWrite s.f[fd].base.toNat p w v)) :=
  done_grow_writeBits h

theorem done_grow_bitWrite {v : Bool} (h : v = val 0) :
    (growEffect s fd need p 1 val).Done s
      ((growDo fd need s).setMem ((growDo fd need s).mem.bitWrite s.f[fd].base.toNat p v)) :=
  done_grow (stored_bitWrite h) fun hm => Memory.bitWrite_wf hm ..

theorem done_grow_writeBytes {out : Nat → Byte} {n : Nat}
    (h : ∀ k < 8 * n, bitOfByte (out (k / 8)) (k % 8) = val k) :
    (growEffect s fd need 0 (8 * n) val).Done s
      ((growDo fd need s).setMem ((growDo fd need s).mem.writeBytes s.f[fd].base.toNat out n)) :=
  done_grow (stored_writeBytes h) fun hm => Memory.writeBytes_wf hm ..

/-- A command that moves no bit leaves the state as it was, its registers apart. -/
theorem done_of_empty {e : Effect} (hx : e.x = s.x) (hf : e.f = s.f) (hdst : e.dst.hi ≤ e.dst.lo)
    (hgrown : e.grown.hi ≤ e.grown.lo) : e.Done s s := by
  refine ⟨hx.symm, hf.symm, fun b => ?_, id, rfl, rfl, rfl, rfl, rfl, rfl⟩
  rw [if_neg fun h => by omega, if_neg fun h => by omega]

/-- Registers can be written after `M`. -/
theorem Effect.Done.setF_of_eq {e : Effect} {g : State} {f : Vector FieldReg 4} (h : e.Done s g) (k : FIdx)
    (r : FieldReg) (hf : e.f.set k r = f) : { e with f := f }.Done s (g.setF k r) :=
  ⟨h.x, by rw [State.setF_f, h.f, hf], h.bit, h.wf, h.cmd, h.needlen, h.memBytes, h.host, h.portOut, h.freeCount⟩

theorem Effect.Done.setF {e : Effect} {g : State} (h : e.Done s g) (k : FIdx) (r : FieldReg) :
    { e with f := e.f.set k r }.Done s (g.setF k r) :=
  h.setF_of_eq k r rfl

end Done

/-! ### The table is what `exec` does -/

/-- The command does what the table says: the checks in their order, then the effect, then what R292 leaves open. -/
def Performs (i : Instr) (s g : State) : Prop :=
  exec i s = runCommand (checkLegal i :: checkDesc s (named i) :: ownChecks i s)
    (fun _ => settle (movement i s) g) s ∧ (effect i s).Done s g

/-- A command without a count passes the test of its word. -/
theorem performs_of {i : Instr} {s g : State} (hdone : (effect i s).Done s g) (hcount : i.count? = none)
    (hexec : exec i s = runCommand (checkDesc s (named i) :: ownChecks i s) (fun _ => settle (movement i s) g) s) :
    ∃ g, Performs i s g := by
  refine ⟨g, ?_, hdone⟩
  rw [checkLegal_eq_none.2 (by simp [WellFormed, hcount]), runCommand_none_cons, hexec]

/-- The same, the operation being given by what it does to the state at hand. -/
theorem performs_of_perform {i : Instr} {s g : State} {perform : State → State} (hdone : (effect i s).Done s g)
    (hcount : i.count? = none)
    (hexec : exec i s = runCommand (checkDesc s (named i) :: ownChecks i s) perform s)
    (hperform : perform s = settle (movement i s) g) : ∃ g, Performs i s g := by
  refine performs_of hdone hcount ?_
  rw [hexec]
  unfold runCommand
  rw [hperform]

/-! ### The values the operations write, bit by bit -/

section Values
variable {s : State} {i fa fb : FIdx} {w k : Nat}

theorem fieldBits_lt (s : State) (i : FIdx) (w : Nat) : fieldBits s i w < 2 ^ w := Memory.bitsRead_lt ..

/-- Bit `k` of a field, in the number the field is read as. -/
theorem testBit_bitsRead {m : Memory} {base p : Nat} (hk : k < w) :
    (m.bitsRead base p w).testBit (w - 1 - k) = m.bitRead base (p + k) := by
  rw [Memory.bitsRead, bitsValue_testBit, decide_eq_true (by omega), Bool.true_and]
  congr 2; omega

theorem testBit_fieldBits (hk : k < w) : (fieldBits s i w).testBit (w - 1 - k) = fieldBit s i k :=
  testBit_bitsRead hk

theorem testBit_complement {v : Nat} (hv : v < 2 ^ w) (hk : k < w) :
    (2 ^ w - 1 - v).testBit (w - 1 - k) = !v.testBit (w - 1 - k) := by
  rw [Nat.sub_sub, Nat.add_comm 1 v, Nat.testBit_two_pow_sub_succ hv, decide_eq_true (by omega), Bool.true_and]

/-- Bit `k` of the low `w` bits of a word, the first the most significant. -/
theorem testBit_low_bits (v : Word) (hk : k < w) :
    (v.toNat % 2 ^ w).testBit (w - 1 - k) = v.getLsbD (w - 1 - k) := by
  rw [Nat.testBit_mod_two_pow, decide_eq_true (by omega), Bool.true_and, BitVec.testBit_toNat]

theorem bitsRead_one (m : Memory) (base p : Nat) : m.bitsRead base p 1 = (m.bitRead base p).toNat := by
  simp [Memory.bitsRead, bitsValue]

/-- R157: the number `BITS` writes, for a field of width `w` and value `v`. -/
def reprValue (align : Align) (w v : Nat) : Nat :=
  match align with
  | .left => v * 2 ^ (8 * ceil8 w - w)
  | .right => v

/-- R151: bit `k` of the representation, in the number `BITS` writes. -/
theorem testBit_reprValue {align : Align} (hw : w = s.f[fa].width.toNat) (hk : k < 8 * ceil8 w) :
    (reprValue align w (fieldBits s fa w)).testBit (8 * ceil8 w - 1 - k) = reprBit s fa align k := by
  have hle : w ≤ 8 * ceil8 w := by unfold ceil8; omega
  subst hw
  generalize hb : 8 * ceil8 s.f[fa].width.toNat = n at hk hle
  cases align with
  | left =>
    by_cases hkw : k < s.f[fa].width.toNat
    · have hval : reprBit s fa .left k = fieldBit s fa k := if_pos hkw
      rw [reprValue, hval, ← testBit_fieldBits hkw, Nat.testBit_mul_two_pow, decide_eq_true (by omega), Bool.true_and]
      congr 1; omega
    · have hval : reprBit s fa .left k = false := if_neg hkw
      rw [reprValue, hval, Nat.testBit_mul_two_pow, decide_eq_false (by omega), Bool.false_and]
  | right =>
    by_cases hpad : k < n - s.f[fa].width.toNat
    · have hval : reprBit s fa .right k = false := if_pos (hb ▸ hpad)
      rw [hval]
      exact Nat.testBit_lt_two_pow (lt_of_lt_of_le (fieldBits_lt ..) (Nat.pow_le_pow_right (by decide) (by omega)))
    · have hval : reprBit s fa .right k = fieldBit s fa (k - (n - s.f[fa].width.toNat)) := by
        rw [← hb]; exact if_neg (hb ▸ hpad)
      rw [hval, ← testBit_fieldBits (w := s.f[fa].width.toNat) (by omega)]
      congr 1; omega

end Values

/-! ### Every command performs its effect -/

section Performs
variable {s : State} {fd fa fb : FIdx}

/-- R205: the result of a dyadic whole-field command, from what it does to two numbers. -/
theorem done_field {v : Nat} {val : Nat → Bool}
    (h : ∀ k < s.f[fd].width.toNat, v.testBit (s.f[fd].width.toNat - 1 - k) = val k) :
    (fieldEffect s fd val).Done s (s.setMem (s.mem.bitsWrite s.f[fd].base.toNat s.f[fd].pos.toNat
      s.f[fd].width.toNat v)) :=
  done_bitsWrite h

/-- R231: the result of a whole-buffer command. -/
theorem done_buffer (s : State) (fd fa : FIdx) (out : Nat → Byte) :
    (bufferEffect s fd fa out).Done s ((growDo fd s.f[fa].len.toNat s).setMem
      ((growDo fd s.f[fa].len.toNat s).mem.writeBytes s.f[fd].base.toNat out s.f[fa].len.toNat)) :=
  done_grow_writeBytes fun _ _ => rfl

/-- R161 to R164, for every width. -/
theorem performs_of_writeUint {i : Instr} {xs : XIdx} {w : Nat} (hexec : exec i s = writeUint w fd xs s)
    (hcount : i.count? = none) (hnamed : named i = [fd])
    (hown : ownChecks i s = [growPlan s.f[fd] (needLen s.f[fd].pos.toNat w)])
    (heffect : effect i s = setUintEffect s fd xs w) (hmove : movement i s = none) : ∃ g, Performs i s g := by
  have hdone : (setUintEffect s fd xs w).Done s _ :=
    done_grow_bitsWrite (v := s.x[xs].toNat % 2 ^ w) fun k hk => testBit_low_bits s.x[xs] hk
  refine performs_of (heffect ▸ hdone) hcount ?_
  rw [hexec, hnamed, hown, hmove]
  rfl

/-- A movement of no bits is hazard free. -/
theorem Movement.free_of_empty {v : Movement} (hdst : v.dst.hi ≤ v.dst.lo) (hgrown : v.grown.hi ≤ v.grown.lo) :
    v.Free := by
  intro r _
  simp only [BitRange.Overlaps]
  omega

theorem settle_of_empty {v : Movement} (hdst : v.dst.hi ≤ v.dst.lo) (hgrown : v.grown.hi ≤ v.grown.lo) (s : State) :
    settle (some v) s = s :=
  settle_of_free (by rintro _ ⟨⟩; exact Movement.free_of_empty hdst hgrown) s

theorem growReg_zero (r : FieldReg) : growReg r 0 = r := by simp [growReg]

theorem grownRange_of_le {r : FieldReg} {need : Nat} (h : need ≤ r.len.toNat) :
    (grownRange r need).hi ≤ (grownRange r need).lo := by
  simp only [grownRange]
  omega

/-- R157: a field of width 0 has no byte, and the command is over; any other is moved. -/
theorem exec_performs_bits (s : State) (fd fa : FIdx) (align : Align) : ∃ g, Performs (.bits fd fa align) s g := by
  by_cases hw : s.f[fa].width.toNat = 0
  · have hbytes : ceil8 s.f[fa].width.toNat = 0 := by rw [hw]; rfl
    have hdst : (rangeOf s.f[fd] 0 (8 * ceil8 s.f[fa].width.toNat)).hi ≤ absBit s.f[fd] 0 := by
      dsimp only [rangeOf]
      omega
    have hgrown := grownRange_of_le (r := s.f[fd]) (need := ceil8 s.f[fa].width.toNat) (by omega)
    refine performs_of_perform (done_of_empty (s := s) rfl ?_ hdst hgrown) rfl (by unfold exec execBits; rfl) ?_
    · dsimp only [effect, growEffect]
      rw [hbytes, growReg_zero, vector_set_getElem_self]
    · rw [if_pos hw]
      exact (settle_of_empty (v := ⟨_, _, _, _⟩) hdst hgrown s).symm
  · have hdone := done_grow_bitsWrite (s := s) (fd := fd) (need := ceil8 s.f[fa].width.toNat) (p := 0)
      (v := reprValue align s.f[fa].width.toNat (fieldBits s fa s.f[fa].width.toNat))
      fun k hk => testBit_reprValue (align := align) rfl hk
    refine performs_of_perform hdone rfl (by unfold exec execBits; rfl) ?_
    rw [if_neg hw]
    rfl

/-- R182: the rotation of an empty buffer moves no byte. -/
theorem exec_performs_rotl (s : State) (fd fa : FIdx) (xs : XIdx) : ∃ g, Performs (.rotl fd fa xs) s g := by
  by_cases hn : 8 * s.f[fa].len.toNat = 0
  · have hlen : s.f[fa].len = 0 := BitVec.eq_of_toNat_eq (by change _ = 0; omega)
    have hdst : (rangeOf s.f[fd] 0 (8 * s.f[fa].len.toNat)).hi ≤ absBit s.f[fd] 0 := by
      dsimp only [rangeOf]
      omega
    have hgrown := grownRange_of_le (r := s.f[fd]) (need := s.f[fa].len.toNat) (by omega)
    have hdone : (effect (.rotl fd fa xs) s).Done s (s.setF fd { s.f[fd] with len := s.f[fa].len }) :=
      (done_of_empty (e := { effect (.rotl fd fa xs) s with f := s.f }) rfl rfl hdst hgrown).setF fd _
    refine performs_of_perform hdone rfl (by unfold exec execRotl; rfl) ?_
    rw [if_pos hn, ← hlen]
    exact (settle_of_empty (v := ⟨_, _, _, _⟩) hdst hgrown _).symm
  · have hdone := done_grow_writeBits (s := s) (fd := fd) (need := s.f[fa].len.toNat) (p := 0)
      (w := 8 * s.f[fa].len.toNat) (g := (effect (.rotl fd fa xs) s).val) fun _ _ => rfl
    have hdone' : (effect (.rotl fd fa xs) s).Done s _ := hdone.setF_of_eq fd { s.f[fd] with len := s.f[fa].len }
      (Vector.set_set ..)
    refine performs_of_perform hdone' rfl (by unfold exec execRotl; rfl) ?_
    rw [if_neg hn, wordOf_toNat_self]
    rfl

/-- R212: the rotation of a field of width 0 moves no bit. -/
theorem exec_performs_frotl (s : State) (fd fa : FIdx) (xs : XIdx) : ∃ g, Performs (.frotl fd fa xs) s g := by
  by_cases hw : s.f[fd].width.toNat = 0
  · have hdst : (rangeOf s.f[fd] s.f[fd].pos.toNat s.f[fd].width.toNat).hi ≤ absBit s.f[fd] s.f[fd].pos.toNat := by
      dsimp only [rangeOf]
      omega
    refine performs_of_perform (done_of_empty (s := s) rfl rfl hdst (le_refl 0)) rfl
      (by unfold exec execFrotl; rfl) ?_
    rw [if_pos hw]
    exact (settle_of_empty (v := ⟨_, _, _, _⟩) hdst (le_refl 0) s).symm
  · have hdone := done_writeBits (s := s) (fd := fd) (p := s.f[fd].pos.toNat) (w := s.f[fd].width.toNat)
      (g := fun k => fieldBit s fa ((k + reducedAmount s.x[xs] s.f[fd].width.toNat) % s.f[fd].width.toNat))
      fun k _ => rfl
    refine performs_of_perform (i := .frotl fd fa xs) hdone rfl (by unfold exec execFrotl; rfl) ?_
    rw [if_neg hw]
    rfl

/-- R80: every command is its row of the table. -/
theorem exec_performs (i : Instr) (s : State) : ∃ g, Performs i s g := by
  cases i with
  | norm fd => exact performs_of (g := s.setF fd _) (done_of_mem_eq rfl rfl rfl) rfl rfl
  | need xd fa => exact performs_of (done_scalar _) rfl rfl
  | get xd fd n => exact ⟨_, rfl, (done_scalar _).setF fd _⟩
  | put fd xs n => exact ⟨_, rfl, (done_bitsWrite fun k hk => testBit_low_bits s.x[xs] hk).setF fd _⟩
  | rdbits xd fd n => exact ⟨_, rfl, (done_scalar _).setF fd _⟩
  | lz xd fa | tz xd fa | ones xd fa => exact performs_of (done_scalar _) rfl rfl
  | fcount xd fa xs => exact performs_of (done_scalar _) rfl rfl
  | uint8 xd fa | uint16 xd fa | uint32 xd fa | uint64 xd fa => exact performs_of (done_scalar _) rfl rfl
  | fand fd fa fb =>
    refine performs_of (done_field (v := fieldBits s fa _ &&& fieldBits s fb _) fun k hk => ?_) rfl rfl
    rw [Nat.testBit_and, testBit_fieldBits hk, testBit_fieldBits hk]
  | band fd fa fb =>
    exact performs_of (done_buffer s fd fa fun j => bufferByte s fa j &&& bufferByte s fb j) rfl rfl
  | bandn fd fa fb =>
    exact performs_of (done_buffer s fd fa fun j => bufferByte s fa j &&& (255 - bufferByte s fb j)) rfl rfl
  | bor fd fa fb =>
    exact performs_of (done_buffer s fd fa fun j => bufferByte s fa j ||| bufferByte s fb j) rfl rfl
  | bxor fd fa fb =>
    exact performs_of (done_buffer s fd fa fun j => bufferByte s fa j ^^^ bufferByte s fb j) rfl rfl
  | bnot fd fa => exact performs_of (done_buffer s fd fa fun j => 255 - bufferByte s fa j) rfl rfl
  | setu8 fd xs => exact performs_of_writeUint (w := 8) rfl rfl rfl rfl rfl rfl
  | setu16 fd xs => exact performs_of_writeUint (w := 16) rfl rfl rfl rfl rfl rfl
  | setu32 fd xs => exact performs_of_writeUint (w := 32) rfl rfl rfl rfl rfl rfl
  | setu64 fd xs => exact performs_of_writeUint (w := 64) rfl rfl rfl rfl rfl rfl
  | setbit fd xs =>
    refine performs_of (done_grow_bitWrite ?_) rfl rfl
    have hlow := testBit_low_bits s.x[xs] (w := 1) (k := 0) (by decide)
    rw [pow_one] at hlow
    rw [← hlow]
    simp
  | ensure fd =>
    have hdone := done_grow_bitsWrite (s := s) (fd := fd)
      (need := needLen s.f[fd].pos.toNat s.f[fd].width.toNat) (p := 0) (w := 0) (v := 0) (val := fun _ => false) (fun k hk => absurd hk (Nat.not_lt_zero k))
    exact performs_of hdone rfl rfl
  | ext2 fd fa fb =>
    refine performs_of (done_writeBytes (out := fun j => BitVec.ofNat 8 (bitsValue
      (fun i => concatBit s.mem s.f[fa] s.f[fb] (s.f[fa].pos.toNat + 8 * j + i)) 8)) fun k hk => ?_) rfl rfl
    rw [bitOfByte_ofNat_bitsValue _ (by omega)]
    congr 1; omega
  | fandn fd fa fb =>
    refine performs_of (done_field (v := fieldBits s fa _ &&& (2 ^ _ - 1 - fieldBits s fb _)) fun k hk => ?_) rfl rfl
    rw [Nat.testBit_and, testBit_complement (fieldBits_lt ..) hk, testBit_fieldBits hk, testBit_fieldBits hk]
  | forr fd fa fb =>
    refine performs_of (done_field (v := fieldBits s fa _ ||| fieldBits s fb _) fun k hk => ?_) rfl rfl
    rw [Nat.testBit_or, testBit_fieldBits hk, testBit_fieldBits hk]
  | fxor fd fa fb =>
    refine performs_of (done_field (v := fieldBits s fa _ ^^^ fieldBits s fb _) fun k hk => ?_) rfl rfl
    rw [Nat.testBit_xor, testBit_fieldBits hk, testBit_fieldBits hk]
  | fnot fd fa =>
    refine performs_of (done_field (v := 2 ^ _ - 1 - fieldBits s fa _) fun k hk => ?_) rfl rfl
    rw [testBit_complement (fieldBits_lt ..) hk, testBit_fieldBits hk]
  | ffill fd xs =>
    exact performs_of (done_field (v := s.x[xs].toNat * (2 ^ s.f[fd].width.toNat - 1)) fun _ _ => rfl) rfl rfl
  | bit xd fa => 
    refine performs_of (done_scalar _) rfl ?_
    rw [bitsRead_one]; rfl
  | setbits fd fa align =>
    refine performs_of (done_grow_bitsWrite (v := s.mem.bitsRead s.f[fa].base.toNat (match align with
        | .left => 0
        | .right => 8 * ceil8 s.f[fd].width.toNat - s.f[fd].width.toNat) s.f[fd].width.toNat) fun k hk => ?_) rfl rfl
    rw [testBit_bitsRead hk]
    cases align with
    | left => rw [Nat.zero_add]; rfl
    | right => rfl
  | bits fd fa align => exact exec_performs_bits s fd fa align
  | rotl fd fa xs => exact exec_performs_rotl s fd fa xs
  | frotl fd fa xs => exact exec_performs_frotl s fd fa xs

end Performs

end Sys2Proof.Proofs
end

section
/-! The rules over all commands (spec/60_exceptions.md R250 to R272, spec/20_memory.md R50 to R57), read off the table
of effects: how a command can end, what it keeps, and that it keeps `M` canonical. -/

namespace Sys2Proof.Proofs

open Sys2Proof.Machine

/-! ### The two ways a command ends -/

/-- All the checks of a command pass. -/
structure Passes (i : Instr) (s : State) : Prop where
  wellFormed : WellFormed i
  desc : ∀ j ∈ named i, DescOK s.memBytes s.f[j]
  own : firstRaise (ownChecks i s) = none

/-- The checks of a command in their order (R80, R258). -/
def allChecks (i : Instr) (s : State) : List (Option Raise) := checkLegal i :: checkDesc s (named i) :: ownChecks i s

section Passes
variable {i : Instr} {s : State} {c d : Option Raise} {l : List (Option Raise)}

theorem Passes.own_fst (h : Passes i s) (hown : ownChecks i s = c :: l) : c = none :=
  firstRaise_eq_none.1 h.own c (hown ▸ List.mem_cons_self)

theorem Passes.own_snd (h : Passes i s) (hown : ownChecks i s = c :: d :: l) : d = none :=
  firstRaise_eq_none.1 h.own d (hown ▸ List.mem_cons_of_mem _ List.mem_cons_self)

theorem Passes.desc_fst {fd : FIdx} {js : List FIdx} (h : Passes i s) (hnamed : named i = fd :: js) :
    DescOK s.memBytes s.f[fd] :=
  h.desc fd (hnamed ▸ List.mem_cons_self)

end Passes

theorem firstRaise_allChecks_eq_none {i : Instr} {s : State} : firstRaise (allChecks i s) = none ↔ Passes i s := by
  simp only [allChecks, firstRaise_eq_none, List.forall_mem_cons, checkLegal_eq_none, checkDesc_eq_none]
  exact ⟨fun ⟨h1, h2, h3⟩ => ⟨h1, h2, firstRaise_eq_none.2 h3⟩, fun h => ⟨h.1, h.2, firstRaise_eq_none.1 h.3⟩⟩

section Ends
variable {i : Instr} {s t : State}

/-- R80: a command raises what its first failing check raises, or ends `OK` with its effect done, what R292 leaves open
apart. -/
theorem exec_cases (h : exec i s = .next t) :
    (∃ r, firstRaise (allChecks i s) = some r ∧ t = raise r s) ∨
    (Passes i s ∧ ∃ g, (effect i s).Done s g ∧ t = finish (settle (movement i s) g)) := by
  obtain ⟨g, hexec, hdone⟩ := exec_performs i s
  rw [hexec] at h
  obtain ⟨r, hr, ht⟩ | ⟨hnone, ht⟩ := runCommand_cases h
  · exact .inl ⟨r, hr, ht⟩
  · exact .inr ⟨firstRaise_allChecks_eq_none.1 hnone, g, hdone, ht⟩

theorem exec_of_raise {r : Raise} (h : firstRaise (allChecks i s) = some r) : exec i s = .next (raise r s) := by
  obtain ⟨g, hexec, -⟩ := exec_performs i s
  rw [hexec]
  exact runCommand_of_some h _ _

theorem exec_of_passes (h : Passes i s) :
    ∃ g, (effect i s).Done s g ∧ exec i s = .next (finish (settle (movement i s) g)) := by
  obtain ⟨g, hexec, hdone⟩ := exec_performs i s
  exact ⟨g, hdone, by rw [hexec]; exact runCommand_of_none (firstRaise_allChecks_eq_none.2 h) _ _⟩

/-- The completion of a hazard-free command: it ends `OK`, and its effect is all that has happened. -/
theorem exec_completes (h : Passes i s) (hfree : HazardFree i s) :
    ∃ t, exec i s = .next t ∧ t.status = 0 ∧ (effect i s).Done s t := by
  obtain ⟨g, hdone, hexec⟩ := exec_of_passes h
  rw [settle_of_free hfree] at hexec
  exact ⟨_, hexec, statusWord_ok, hdone.finish⟩

/-- R273: no command stops the machine. -/
theorem exec_total (i : Instr) (s : State) : ∃ t, exec i s = .next t := by
  obtain ⟨g, hexec, -⟩ := exec_performs i s
  rw [hexec]
  unfold runCommand
  split
  · exact ⟨_, rfl⟩
  · exact ⟨_, rfl⟩

end Ends

/-! ### Outcomes -/

/-- What a check raises, if it raises, makes `STATUS` one of the values listed. -/
def RaisesIn (l : List Word) (c : Option Raise) : Prop := ∀ r, c = some r → ∀ s, (raise r s).status ∈ l

section RaisesIn
variable {l : List Word}

theorem raisesIn_checkBounds (h : 0x13 ∈ l) (r : FieldReg) (p w : Nat) : RaisesIn l (checkBounds r p w) := by
  intro e he s
  rw [checkBounds_raises he.symm, raise_fault_status, statusWord_bounds]
  exact h

theorem raisesIn_growPlan (h : 0x02 ∈ l) (r : FieldReg) (need : Nat) : RaisesIn l (growPlan r need) := by
  intro e he s
  rw [growPlan_raises he.symm, raise_grow_status, statusWord_grow]
  exact h

theorem raisesIn_faultIf {c : Cause} {p : Prop} [Decidable p] (h : statusWord .fault c ∈ l) :
    RaisesIn l (faultIf c p) := by
  intro e he s
  rw [faultIf_raises he.symm, raise_fault_status]
  exact h

theorem raisesIn_fieldChecks (h : 0x13 ∈ l) (s : State) (fd : FIdx) (srcs : List FIdx) :
    ∀ c ∈ fieldChecks s fd srcs, RaisesIn l c := by
  rintro c hc e rfl s'
  rw [fieldChecks_raises hc, raise_fault_status, statusWord_bounds]
  exact h

theorem raisesIn_ite {p : Prop} [Decidable p] {c d : Option Raise} (hc : RaisesIn l c) (hd : RaisesIn l d) :
    RaisesIn l (if p then c else d) := by
  split
  · exact hc
  · exact hd

theorem raisesIn_none : RaisesIn l none := by
  rintro r ⟨⟩

theorem raisesIn_eof (h : 0x01 ∈ l) : RaisesIn l (some .eof) := by
  rintro r ⟨⟩ s
  rw [raise_eof_status, statusWord_eof]
  exact h

end RaisesIn

/-- R272: the own checks of a command raise what its row of the table says, and never `DESC`. -/
theorem raisesIn_ownChecks (i : Instr) (s : State) :
    ∀ c ∈ ownChecks i s, RaisesIn ((mayEnd i).filter (· ≠ 0x53)) c := by
  cases i with
  | need | lz | tz | ones => exact List.forall_mem_nil _
  | norm | get | put | bit | uint8 | uint16 | uint32 | uint64 =>
    refine List.forall_mem_singleton.2 ?_
    apply raisesIn_checkBounds; simp [mayEnd]
  | ext2 =>
    refine List.forall_mem_singleton.2 ?_
    apply raisesIn_faultIf; simp [mayEnd]
  | bits =>
    refine List.forall_mem_cons.2 ⟨?_, List.forall_mem_singleton.2 ?_⟩
    · apply raisesIn_checkBounds; simp [mayEnd]
    · refine raisesIn_ite raisesIn_none ?_
      apply raisesIn_growPlan; simp [mayEnd]
  | ensure | setbit | setu8 | setu16 | setu32 | setu64 | rotl | bnot =>
    refine List.forall_mem_singleton.2 ?_
    apply raisesIn_growPlan; simp [mayEnd]
  | setbits | band | bandn | bor | bxor =>
    refine List.forall_mem_cons.2 ⟨?_, List.forall_mem_singleton.2 ?_⟩
    · apply raisesIn_faultIf; simp [mayEnd]
    · apply raisesIn_growPlan; simp [mayEnd]
  | rdbits =>
    refine List.forall_mem_cons.2 ⟨?_, List.forall_mem_singleton.2 ?_⟩
    · refine raisesIn_ite ?_ raisesIn_none
      apply raisesIn_eof; simp [mayEnd]
    · apply raisesIn_checkBounds; simp [mayEnd]
  | fand | fandn | forr | fxor | fnot | frotl => apply raisesIn_fieldChecks; simp [mayEnd]
  | fcount | ffill =>
    refine List.forall_mem_cons.2 ⟨?_, List.forall_mem_singleton.2 ?_⟩
    · apply raisesIn_faultIf; simp [mayEnd]
    · apply raisesIn_checkBounds; simp [mayEnd]

theorem ok_mem_mayEnd (i : Instr) : 0x00 ∈ mayEnd i := by cases i <;> simp [mayEnd]

theorem desc_mem_mayEnd (i : Instr) : 0x53 ∈ mayEnd i := by cases i <;> simp [mayEnd]

section Outcomes
variable {i : Instr} {s t : State}

/-- R272: how a command ends, by the check that ended it. -/
theorem exec_status_cases (h : exec i s = .next t) :
    (¬ WellFormed i ∧ t.status = 0x43) ∨
    (¬ (∀ j ∈ named i, DescOK s.memBytes s.f[j]) ∧ t.status = 0x53) ∨
    (t.status ∈ (mayEnd i).filter (· ≠ 0x53)) := by
  obtain ⟨r, hr, rfl⟩ | ⟨-, g, -, rfl⟩ := exec_cases h
  · obtain hmem | hmem := List.mem_cons.1 (firstRaise_mem hr)
    · obtain ⟨rfl, hwf⟩ := checkLegal_raises hmem
      exact .inl ⟨hwf, statusWord_illegalCmd⟩
    obtain hmem | hmem := List.mem_cons.1 hmem
    · refine .inr (.inl ⟨fun hdesc => ?_, by rw [checkDesc_raises hmem]; exact statusWord_desc⟩)
      rw [checkDesc_eq_none.2 hdesc] at hmem
      cases hmem
    · exact .inr (.inr (raisesIn_ownChecks i s _ hmem r rfl s))
  · refine .inr (.inr (List.mem_filter.2 ⟨?_, ?_⟩))
    · rw [finish_status, statusWord_ok]
      exact ok_mem_mayEnd i
    · rw [finish_status, statusWord_ok]
      decide

theorem mayEnd_subset (i : Instr) : mayEnd i ⊆ [0x00, 0x53, 0x13, 0x33, 0x01, 0x02, 0x23] := by
  cases i <;> simp [mayEnd]

theorem statusLegal_of_mem_mayEnd {w : Word} (h : w ∈ mayEnd i) : StatusLegal w := by
  have hall : ∀ w ∈ ([0x00, 0x53, 0x13, 0x33, 0x01, 0x02, 0x23] : List Word), StatusLegal w := by
    simp only [List.forall_mem_cons]
    exact ⟨by decide, by decide, by decide, by decide, by decide, by decide, by decide, List.forall_mem_nil _⟩
  exact hall w (mayEnd_subset i h)

/-- R34: `STATUS` after a command is legal. -/
theorem exec_statusLegal (h : exec i s = .next t) : StatusLegal t.status := by
  obtain ⟨-, hst⟩ | ⟨-, hst⟩ | hst := exec_status_cases h
  · rw [hst]; decide
  · rw [hst]; decide
  · exact statusLegal_of_mem_mayEnd (List.mem_of_mem_filter hst)

end Outcomes

/-- Settles O16: `exec` is total, and every outcome has a legal `STATUS`. -/
theorem everyCommandEndsWithAnOutcome : Obligations.EveryCommandEndsWithAnOutcome := by
  intro i s
  obtain ⟨t, ht⟩ := exec_total i s
  exact ⟨t, ht, exec_statusLegal ht⟩

/-- Settles O20, by the check that ended the command. -/
theorem outcomesFollowTable : Obligations.OutcomesFollowTable := by
  intro i s t hwf h
  obtain ⟨hill, -⟩ | ⟨-, hst⟩ | hst := exec_status_cases h
  · exact absurd hwf hill
  · rw [hst]
    exact desc_mem_mayEnd i
  · exact List.mem_of_mem_filter hst

/-- Settles O21: the descriptors are the first thing a well-formed command checks, and no other check raises `DESC`. -/
theorem descriptorFaultComesFirst : Obligations.DescriptorFaultComesFirst := by
  intro i s hwf
  constructor
  · rintro ⟨j, hj, hbad⟩
    have hdesc : checkDesc s (named i) = some (.fault .desc) := if_neg fun h => hbad (h j hj)
    rw [exec_of_raise (r := .fault .desc) (by
      rw [allChecks, checkLegal_eq_none.2 hwf, hdesc, firstRaise_none, firstRaise_some])]
    rw [← statusWord_desc]
    rfl
  · intro hdesc t h
    obtain ⟨hill, -⟩ | ⟨hbad, -⟩ | hst := exec_status_cases h
    · exact absurd hwf hill
    · exact absurd hdesc hbad
    · simpa using (List.mem_filter.1 hst).2

end Sys2Proof.Proofs
end

section
/-! What every command leaves (spec/20_memory.md R50, R57; spec/30_encoding.md R72), and the invariant of the machine
(R34, R37). -/

namespace Sys2Proof.Proofs

open Sys2Proof.Machine

/-! ### Registers after one of them is written -/

section Vectors
variable {α : Type} {n : Nat}

theorem vector_getElem_set_self (v : Vector α n) (i : Fin n) (a : α) : (v.set i a)[i] = a := by
  simp

theorem vector_getElem_set_of_ne (v : Vector α n) {i j : Fin n} (a : α) (h : j ≠ i) : (v.set i a)[j] = v[j] := by
  simp [Fin.val_ne_of_ne h.symm]

end Vectors

/-! ### The registers an effect keeps -/

/-- R72: a command leaves the scalar registers it does not write. -/
theorem effect_x_of_not_mem (i : Instr) (s : State) {j : XIdx} (hj : j ∉ writesX i) : (effect i s).x[j] = s.x[j] := by
  cases i with
  | need xd | get xd | bit xd | uint8 xd | uint16 xd | uint32 xd | uint64 xd | lz xd | tz xd | ones xd | rdbits xd
  | fcount xd => exact vector_getElem_set_of_ne s.x _ (List.ne_of_not_mem_cons hj)
  | _ => rfl

/-- Setting one field register keeps the components in which it agrees with what it was. -/
theorem get_set_of_agrees {s : State} {fd j : FIdx} {r : FieldReg} {l : List Component} {c : Component}
    (hr : ∀ c ∉ l, r.get c = s.f[fd].get c) (hc : ∀ p ∈ [(fd, l)], p.1 = j → c ∉ p.2) :
    (s.f.set fd r)[j].get c = s.f[j].get c := by
  by_cases hj : j = fd
  · subst hj
    rw [vector_getElem_set_self]
    exact hr c (hc _ (List.mem_singleton_self _) rfl)
  · rw [vector_getElem_set_of_ne _ _ hj]

theorem growReg_get (r : FieldReg) (need : Nat) : ∀ c ∉ [Component.len], (growReg r need).get c = r.get c := by
  intro c hc
  cases c with
  | len => exact absurd (List.mem_singleton_self _) hc
  | base | cap | pos | width => rfl

theorem normalizeAt_get (r : FieldReg) (p : Nat) :
    ∀ c ∉ [Component.base, .len, .cap, .pos], (normalizeAt r p).get c = r.get c := by
  intro c hc
  cases c with
  | width => rfl
  | base | len | cap | pos => exact absurd (by decide) hc

/-- R72, R105, R121, R182, R201: a command leaves the components of the field registers its rule does not name. -/
theorem effect_f_of_not_mem (i : Instr) (s : State) {j : FIdx} {c : Component}
    (hc : ∀ p ∈ writesF i, p.1 = j → c ∉ p.2) : (effect i s).f[j].get c = s.f[j].get c := by
  cases i with
  | norm | get | put => exact get_set_of_agrees (normalizeAt_get _ _) hc
  | rdbits =>
    refine get_set_of_agrees (fun c hc => ?_) hc
    cases c with
    | base | len | cap => rfl
    | pos | width => exact absurd (by decide) hc
  | rotl =>
    refine get_set_of_agrees (fun c hc => ?_) hc
    cases c with
    | base | cap | pos | width => rfl
    | len => exact absurd (List.mem_singleton_self _) hc
  | ensure | bits | setbit | setu8 | setu16 | setu32 | setu64 | setbits | band | bandn | bor | bxor | bnot =>
    exact get_set_of_agrees (growReg_get _ _) hc
  | _ => rfl

/-- Settles O19: an exception keeps all registers, and the effect's registers are those of the table. -/
theorem registersKeptByEveryCommand : Obligations.RegistersKeptByEveryCommand := by
  intro i s t h
  obtain ⟨r, -, rfl⟩ | ⟨-, g, hdone, rfl⟩ := exec_cases h
  · refine ⟨fun j _ => ?_, fun j c _ => ?_, raise_cmd s r, raise_memBytes s r, raise_host s r, raise_portOut s r⟩
    · rw [raise_x]
    · rw [raise_f]
  · simp only [finish_x, finish_f, finish_cmd, finish_memBytes, finish_host, finish_portOut, settle_x, settle_f,
      settle_cmd, settle_memBytes, settle_host, settle_portOut, hdone.x, hdone.f]
    exact ⟨fun j hj => effect_x_of_not_mem i s hj, fun j c hc => effect_f_of_not_mem i s hc, hdone.cmd,
      hdone.memBytes, hdone.host, hdone.portOut⟩

/-! ### The bits an effect writes -/

/-- The bit is in the storage of a register (R50). -/
def InStorage (r : FieldReg) (b : Nat) : Prop := 8 * r.base.toNat ≤ b ∧ b < 8 * (r.base.toNat + r.cap.toNat)

/-- The bits an effect changes: those it writes and those growth clears. -/
def Effect.Touches (e : Effect) (b : Nat) : Prop := e.dst.Has b ∨ e.grown.Has b

section Touches
variable {s : State} {fd fa : FIdx} {need p w b : Nat} {val : Nat → Bool}

theorem need_le_cap {r : FieldReg} (hd : DescOK s.memBytes r) (h : growPlan r need = none) : need ≤ r.cap.toNat := by
  have hlen := hd.1
  obtain hcap | hle := growPlan_eq_none.1 h
  · exact hcap
  · omega

theorem not_touches_of_empty {e : Effect} (hdst : e.dst.hi ≤ e.dst.lo) (hgrown : e.grown.hi ≤ e.grown.lo) :
    ¬ e.Touches b := by
  rintro (⟨hlo, hhi⟩ | ⟨hlo, hhi⟩)
  · omega
  · omega

theorem inStorage_of_rangeOf {r : FieldReg} (h : needLen p w ≤ r.cap.toNat) (hb : (rangeOf r p w).Has b) :
    InStorage r b := by
  obtain ⟨hlo, hhi⟩ := has_rangeOf_iff.1 hb
  unfold needLen ceil8 at h
  constructor <;> omega

theorem inStorage_of_grownRange {r : FieldReg} (h : need ≤ r.cap.toNat) (hb : (grownRange r need).Has b) :
    InStorage r b := by
  obtain ⟨hlo, hhi⟩ := hb
  simp only [grownRange] at hlo hhi
  constructor <;> omega

/-- A store within the buffer stays in the storage. -/
theorem touches_storeEffect (hd : DescOK s.memBytes s.f[fd]) (h : InBuf s.f[fd] p w)
    (hb : (storeEffect s fd p w val).Touches b) : InStorage s.f[fd] b := by
  obtain hb | hb := hb
  · exact inStorage_of_rangeOf (le_trans h hd.1) hb
  · exact absurd hb (not_has_empty b 0)

/-- A store after growth within the capacity stays in the storage. -/
theorem touches_growEffect (hp : needLen p w ≤ s.f[fd].cap.toNat) (hneed : need ≤ s.f[fd].cap.toNat)
    (hb : (growEffect s fd need p w val).Touches b) : InStorage s.f[fd] b := by
  obtain hb | hb := hb
  · exact inStorage_of_rangeOf hp hb
  · exact inStorage_of_grownRange hneed hb

theorem needLen_zero_left (n : Nat) : needLen 0 (8 * n) = n := by
  unfold needLen ceil8
  omega

/-- R103: a destination that is grown to what its range needs. -/
theorem touches_of_growPlan (hd : DescOK s.memBytes s.f[fd]) (hneed : growPlan s.f[fd] need = none)
    (hp : needLen p w ≤ need) (hb : (growEffect s fd need p w val).Touches b) : InStorage s.f[fd] b :=
  touches_growEffect (le_trans hp (need_le_cap hd hneed)) (need_le_cap hd hneed) hb

end Touches

/-- R157: with its checks passed, `BITS` finds room for the representation, a field of width 0 having none. -/
theorem ceil8_le_cap_of_bits {s : State} {fd : FIdx} {w : Nat} (hd : DescOK s.memBytes s.f[fd])
    (h : (if w = 0 then none else growPlan s.f[fd] (ceil8 w)) = none) : ceil8 w ≤ s.f[fd].cap.toNat := by
  by_cases hw : w = 0
  · subst hw
    exact Nat.zero_le _
  · rw [if_neg hw] at h
    exact need_le_cap hd h

/-- R50, R57: a command whose checks pass writes no bit outside the storage of its destination. -/
theorem effect_touches_inStorage {i : Instr} {s : State} {b : Nat} (h : Passes i s) (hb : (effect i s).Touches b) :
    ∃ fd ∈ writesM i, InStorage s.f[fd] b := by
  cases i with
  | norm | need | get | bit | uint8 | uint16 | uint32 | uint64 | lz | tz | ones | rdbits | fcount =>
    exact absurd hb (not_touches_of_empty le_rfl le_rfl)
  | ensure fd =>
    have hd := h.desc_fst rfl
    exact ⟨fd, List.mem_cons_self, touches_of_growPlan hd (h.own_fst rfl) (Nat.zero_le _) hb⟩
  | setbit fd | setu8 fd | setu16 fd | setu32 fd | setu64 fd =>
    have hd := h.desc_fst rfl
    exact ⟨fd, List.mem_cons_self, touches_of_growPlan hd (h.own_fst rfl) le_rfl hb⟩
  | setbits fd =>
    have hd := h.desc_fst rfl
    exact ⟨fd, List.mem_cons_self, touches_of_growPlan hd (h.own_snd rfl) le_rfl hb⟩
  | rotl fd | bnot fd =>
    have hd := h.desc_fst rfl
    exact ⟨fd, List.mem_cons_self, touches_of_growPlan (val := fun _ => false) hd (h.own_fst rfl)
      (needLen_zero_left _).le hb⟩
  | band fd | bandn fd | bor fd | bxor fd =>
    have hd := h.desc_fst rfl
    exact ⟨fd, List.mem_cons_self, touches_of_growPlan hd (h.own_snd rfl) (needLen_zero_left _).le hb⟩
  | bits fd =>
    have hcap := ceil8_le_cap_of_bits (h.desc_fst rfl) (h.own_snd rfl)
    exact ⟨fd, List.mem_cons_self, touches_growEffect ((needLen_zero_left _).le.trans hcap) hcap hb⟩
  | put fd =>
    have hd := h.desc_fst rfl
    exact ⟨fd, List.mem_cons_self, touches_storeEffect (val := fun _ => false) hd (checkBounds_eq_none.1 (h.own_fst rfl)) hb⟩
  | ffill fd =>
    have hd := h.desc_fst rfl
    exact ⟨fd, List.mem_cons_self, touches_storeEffect hd (checkBounds_eq_none.1 (h.own_snd rfl)) hb⟩
  | ext2 fd =>
    have hd := h.desc_fst rfl
    exact ⟨fd, List.mem_cons_self, touches_storeEffect hd (needLen_zero_left _).le hb⟩
  | fand fd | fandn fd | forr fd | fxor fd | fnot fd | frotl fd =>
    have hd := h.desc_fst rfl
    obtain ⟨-, hbuf, -⟩ := fieldChecks_eq_none.1 h.own
    exact ⟨fd, List.mem_cons_self, touches_storeEffect hd hbuf hb⟩

/-- R290: what a movement calls `Dst` are the bits the effect writes and clears. -/
theorem movement_ranges {i : Instr} {s : State} {v : Movement} (h : movement i s = some v) :
    v.dst = (effect i s).dst ∧ v.grown = (effect i s).grown := by
  cases i <;> cases h <;> exact ⟨rfl, rfl⟩

/-- R292: what is left open of a movement is bits the effect writes or clears. -/
theorem settle_bitRead_of_not_touches {i : Instr} {s g : State} {b : Nat} (hb : ¬ (effect i s).Touches b) :
    (settle (movement i s) g).mem.bitRead 0 b = g.mem.bitRead 0 b := by
  refine settle_bitRead_of_not_inDst fun v hv hin => hb ?_
  obtain ⟨hdst, hgrown⟩ := movement_ranges hv
  rw [Movement.InDst, hdst, hgrown, Nat.mul_zero, Nat.zero_add] at hin
  exact hin

theorem Effect.Done.bit_of_not_touches {e : Effect} {s t : State} {b : Nat} (h : e.Done s t) (hb : ¬ e.Touches b) :
    t.mem.bitRead 0 b = s.mem.bitRead 0 b := by
  rw [h.bit, if_neg fun hd => hb (.inl hd), if_neg fun hg => hb (.inr hg)]

/-- Settles O18: a byte outside the storage has no bit in what the effect writes. -/
theorem writesStayInDestinationStorage : Obligations.WritesStayInDestinationStorage := by
  intro i s t a h hout
  obtain ⟨r, -, rfl⟩ | ⟨hpass, g, hdone, rfl⟩ := exec_cases h
  · rw [raise_mem]
  · refine Memory.read_eq_of_bits fun k hk => ?_
    have hb : ¬ (effect i s).Touches (8 * a + k) := by
      intro hb
      obtain ⟨fd, hfd, hlo, hhi⟩ := effect_touches_inStorage hpass hb
      exact hout fd hfd (by omega)
    rw [finish_mem, settle_bitRead_of_not_touches hb, hdone.bit_of_not_touches hb]

/-! ### The invariant -/

section Invariant
variable {s t : State}

theorem exec_mem_wf {i : Instr} (h : exec i s = .next t) (hwf : s.mem.wf) : t.mem.wf := by
  obtain ⟨r, -, rfl⟩ | ⟨-, g, hdone, rfl⟩ := exec_cases h
  · rw [raise_mem]
    exact hwf
  · rw [finish_mem]
    exact settle_mem_wf (hdone.wf hwf)

/-- The destination a command writes `M` through is one of the registers it names. -/
theorem mem_named_of_mem_writesM {i : Instr} {fd : FIdx} (h : fd ∈ writesM i) : fd ∈ named i := by
  cases i <;> simp_all [writesM, named]

theorem read_eq_unlisted_of_within {m : Memory} {size a : Nat} (h : m.within size) (ha : size ≤ a) :
    m.read a = Config.unlistedByte := by
  induction m with
  | nil => rfl
  | cons c m ih =>
    obtain ⟨b, v⟩ := c
    have hb : b < size := h (b, v) List.mem_cons_self
    rw [Memory.read, if_neg (by omega)]
    exact ih fun c hc => h c (List.mem_cons_of_mem _ hc)

theorem read_of_mem_of_wf {m : Memory} (h : m.wf) {c : Host.Cell} (hc : c ∈ m) : m.read c.1 = c.2 := by
  induction m with
  | nil => cases hc
  | cons d m ih =>
    obtain ⟨hpair, hne⟩ := h
    obtain ⟨hlt, htail⟩ := List.pairwise_cons.1 hpair
    obtain rfl | hc := List.mem_cons.1 hc
    · exact if_pos rfl
    · rw [Memory.read, if_neg (hlt c hc).ne]
      exact ih ⟨htail, fun c hc => hne c (List.mem_cons_of_mem _ hc)⟩ hc

/-- A canonical memory lies inside `M` exactly when every address above reads as an unlisted one. -/
theorem within_of_read_unlisted {m : Memory} (h : m.wf) {size : Nat}
    (hread : ∀ a, size ≤ a → m.read a = Config.unlistedByte) : m.within size := by
  intro c hc
  by_contra hge
  exact h.2 c hc ((read_of_mem_of_wf h hc).symm.trans (hread _ (Nat.not_lt.1 hge)))

/-- R253: a command writes no address outside `M`, the storage of a well-formed register being inside it. -/
theorem exec_mem_within {i : Instr} (h : exec i s = .next t) (hwf : s.mem.wf) (hin : s.mem.within s.memBytes.val) :
    t.mem.within s.memBytes.val := by
  refine within_of_read_unlisted (exec_mem_wf h hwf) fun a ha => ?_
  rw [← read_eq_unlisted_of_within hin ha]
  obtain ⟨r, -, rfl⟩ | ⟨hpass, -⟩ := exec_cases h
  · rw [raise_mem]
  · refine writesStayInDestinationStorage i s t a h fun fd hfd hst => ?_
    have hd := (hpass.desc fd (mem_named_of_mem_writesM hfd)).2
    omega

theorem exec_keeps_inv {i : Instr} (h : exec i s = .next t) (hs : s.Inv) : t.Inv := by
  obtain ⟨-, -, -, hsize, -, -⟩ := registersKeptByEveryCommand i s t h
  refine ⟨exec_mem_wf h hs.memWf, ?_, exec_statusLegal h⟩
  rw [hsize]
  exact exec_mem_within h hs.memWf hs.memWithin

/-- The invariant speaks of `M`, its size and `STATUS` alone. -/
theorem inv_of_eq (hs : s.Inv) (hmem : t.mem = s.mem) (hsize : t.memBytes = s.memBytes)
    (hstatus : t.status = s.status) : t.Inv :=
  ⟨hmem ▸ hs.memWf, hmem ▸ hsize ▸ hs.memWithin, hstatus ▸ hs.statusLegal⟩

theorem issueCommand_keeps_inv {w : CmdWord} (h : issueCommand w s = .next t) (hs : s.Inv) : t.Inv := by
  unfold issueCommand at h
  split at h
  · exact exec_keeps_inv h (inv_of_eq hs rfl rfl rfl)
  · cases h
    exact ⟨hs.memWf, hs.memWithin, by rw [raise_fault_status]; decide⟩

theorem hostWrite_keeps_inv {r : Nat} {v : Word} (h : hostWrite r v s = .next t) (hs : s.Inv) : t.Inv := by
  unfold hostWrite at h
  split at h
  · cases h; exact hs
  · split at h
    · exact issueCommand_keeps_inv h hs
    all_goals
      cases h
      exact inv_of_eq hs rfl rfl rfl

theorem transact_keeps_inv {op : HostOp} (h : transact op s = .next t) (hs : s.Inv) : t.Inv := by
  cases op with
  | write r v => exact hostWrite_keeps_inv h hs
  | read r =>
    cases h
    exact inv_of_eq hs rfl rfl rfl
  | reset =>
    cases h
    exact ⟨hs.memWf, hs.memWithin, by rw [State.resetEngine_status]; decide⟩
  | memWrite a v =>
    simp only [transact] at h
    split at h
    · next ha =>
      cases h
      exact ⟨Memory.write_wf hs.memWf a v, Memory.write_within hs.memWithin ha v, hs.statusLegal⟩
    · cases h
  | memRead a =>
    simp only [transact] at h
    split at h
    · cases h
      exact inv_of_eq hs rfl rfl rfl
    · cases h

end Invariant

/-- Settles O14, by the transaction of the step. -/
theorem stepKeepsInvariant : Obligations.StepKeepsInvariant := by
  intro s t hs h
  cases hhost : s.host with
  | nil =>
    rw [step_of_host_nil hhost] at h
    cases h
    exact hs
  | cons op rest =>
    rw [step_of_host_cons hhost] at h
    exact transact_keeps_inv h (inv_of_eq hs rfl rfl rfl)

end Sys2Proof.Proofs
end

section
/-! What the result of a command depends on (spec/20_memory.md R56), and what is left of it when it is not hazard free
(spec/70_reset_and_hazards.md R292). -/

namespace Sys2Proof.Proofs

open Sys2Proof.Machine

/-! ### Values read from a buffer -/

section Congr

theorem countOnes_congr {g h : Nat → Bool} {n : Nat} (e : ∀ i < n, g i = h i) : countOnes g n = countOnes h n := by
  induction n with
  | zero => rfl
  | succ n ih => rw [countOnes, countOnes, ih fun i hi => e i (by omega), e n (by omega)]

theorem zerosFrom_congr {g h : Nat → Bool} {n k : Nat} (e : ∀ i < n, g (k + i) = h (k + i)) :
    zerosFrom g n k = zerosFrom h n k := by
  induction n generalizing k with
  | zero => rfl
  | succ n ih =>
    have hk : g k = h k := e 0 (Nat.succ_pos n)
    have hrest : zerosFrom g n (k + 1) = zerosFrom h n (k + 1) := by
      refine ih fun i hi => ?_
      rw [Nat.add_assoc, Nat.add_comm 1 i]
      exact e (i + 1) (by omega)
    rw [zerosFrom, zerosFrom, hk, hrest]

end Congr

/-- Two memories agree on the content of a field register. -/
def AgreeOn (m m' : Memory) (r : FieldReg) : Prop :=
  ∀ a, r.base.toNat ≤ a → a < r.base.toNat + r.len.toNat → m.read a = m'.read a

section Agree
variable {s : State} {m : Memory} {i : FIdx} {p w k : Nat}

theorem bitAt_setMem (h : AgreeOn m s.mem s.f[i]) (hp : p < 8 * s.f[i].len.toNat) :
    bitAt (s.setMem m) i p = bitAt s i p := by
  have hread := h (s.f[i].base.toNat + p / 8) (by omega) (by omega)
  exact congrArg (bitOfByte · (p % 8)) hread

theorem bitsRead_setMem (h : AgreeOn m s.mem s.f[i]) (hp : InBuf s.f[i] p w) :
    m.bitsRead s.f[i].base.toNat p w = s.mem.bitsRead s.f[i].base.toNat p w := by
  refine bitsValue_congr fun k hk => bitAt_setMem h ?_
  unfold InBuf needLen ceil8 at hp
  omega

theorem fieldBit_setMem (h : AgreeOn m s.mem s.f[i]) (hp : InBuf s.f[i] s.f[i].pos.toNat w) (hk : k < w) :
    fieldBit (s.setMem m) i k = fieldBit s i k := by
  have hlt : s.f[i].pos.toNat + k < 8 * s.f[i].len.toNat := by
    unfold InBuf needLen ceil8 at hp
    omega
  exact bitAt_setMem h hlt

theorem bufferByte_setMem (h : AgreeOn m s.mem s.f[i]) (hk : k < s.f[i].len.toNat) :
    bufferByte (s.setMem m) i k = bufferByte s i k :=
  h (s.f[i].base.toNat + k) (by omega) (by omega)

end Agree

/-! ### Effects on two memories -/

theorem effect_setMem_f (i : Instr) (s : State) (m : Memory) : (effect i (s.setMem m)).f = (effect i s).f := by
  cases i <;> rfl

theorem effect_setMem_dst (i : Instr) (s : State) (m : Memory) : (effect i (s.setMem m)).dst = (effect i s).dst := by
  cases i <;> rfl

theorem effect_setMem_grown (i : Instr) (s : State) (m : Memory) :
    (effect i (s.setMem m)).grown = (effect i s).grown := by
  cases i <;> rfl

theorem movement_setMem (i : Instr) (s : State) (m : Memory) : movement i (s.setMem m) = movement i s := by
  cases i <;> rfl

theorem allChecks_setMem (i : Instr) (s : State) (m : Memory) : allChecks i (s.setMem m) = allChecks i s := by
  cases i <;> rfl

section Depends
variable {s : State} {m : Memory}

theorem uintEffect_setMem {xd : XIdx} {fa : FIdx} {w : Nat} (h : AgreeOn m s.mem s.f[fa])
    (hb : InBuf s.f[fa] s.f[fa].pos.toNat w) : (uintEffect (s.setMem m) xd fa w).x = (uintEffect s xd fa w).x :=
  congrArg (fun v => s.x.set xd (wordOf v)) (bitsRead_setMem h hb)

theorem scalarEffect_congr {xd : XIdx} {v v' : Nat} (h : v = v') :
    (scalarEffect (s.setMem m) xd v).x = (scalarEffect s xd v').x :=
  congrArg (fun v => s.x.set xd (wordOf v)) h

/-- R56: the scalar registers after a command whose checks pass are a function of the content of the buffers it
names. -/
theorem effect_setMem_x {i : Instr} (hpass : Passes i s) (h : ∀ j ∈ named i, AgreeOn m s.mem s.f[j]) :
    (effect i (s.setMem m)).x = (effect i s).x := by
  cases i with
  | get | bit | uint8 | uint16 | uint32 | uint64 =>
    exact uintEffect_setMem (h _ List.mem_cons_self) (checkBounds_eq_none.1 (hpass.own_fst rfl))
  | rdbits => exact uintEffect_setMem (h _ List.mem_cons_self) (checkBounds_eq_none.1 (hpass.own_snd rfl))
  | lz xd fa =>
    refine scalarEffect_congr (zerosFrom_congr fun k (hk : k < 8 * s.f[fa].len.toNat) => ?_)
    exact bitAt_setMem (h _ List.mem_cons_self) (by omega)
  | tz xd fa =>
    refine scalarEffect_congr (zerosFrom_congr fun k (hk : k < 8 * s.f[fa].len.toNat) => ?_)
    have hlt : 8 * s.f[fa].len.toNat - 1 - (0 + k) < 8 * s.f[fa].len.toNat := by omega
    exact bitAt_setMem (h _ List.mem_cons_self) hlt
  | ones => exact scalarEffect_congr (countOnes_congr fun k hk => bitAt_setMem (h _ List.mem_cons_self) hk)
  | fcount =>
    refine scalarEffect_congr (countOnes_congr fun k hk => congrArg (· == _) ?_)
    exact fieldBit_setMem (h _ List.mem_cons_self) (checkBounds_eq_none.1 (hpass.own_snd rfl)) hk
  | _ => rfl

theorem rangeOf_hi_sub_lo (r : FieldReg) (p w : Nat) : (rangeOf r p w).hi - (rangeOf r p w).lo = w :=
  Nat.add_sub_cancel_left ..

/-- Bit `p` of the concatenation of two buffers, the memory replaced by one that agrees on both. -/
theorem concatBit_setMem {fa fb : FIdx} {p : Nat} (ha : AgreeOn m s.mem s.f[fa]) (hb : AgreeOn m s.mem s.f[fb])
    (hp : p < 8 * (s.f[fa].len.toNat + s.f[fb].len.toNat)) :
    concatBit m s.f[fa] s.f[fb] p = concatBit s.mem s.f[fa] s.f[fb] p := by
  refine congrArg (bitOfByte · (p % 8)) ?_
  unfold concatByte
  split
  · exact ha _ (by omega) (by omega)
  · exact hb _ (by omega) (by omega)

/-- R157: the representation is made of bits of the field. -/
theorem reprBit_setMem {fa : FIdx} {align : Align} {k : Nat} (h : AgreeOn m s.mem s.f[fa])
    (hb : InBuf s.f[fa] s.f[fa].pos.toNat s.f[fa].width.toNat) (hk : k < 8 * ceil8 s.f[fa].width.toNat) :
    reprBit (s.setMem m) fa align k = reprBit s fa align k := by
  cases align with
  | left =>
    have hval (h : k < s.f[fa].width.toNat) := fieldBit_setMem ‹_› hb h
    exact if_ctx_congr Iff.rfl hval fun _ => rfl
  | right =>
    have hle : s.f[fa].width.toNat ≤ 8 * ceil8 s.f[fa].width.toNat := by unfold ceil8; omega
    have hval (hpad : ¬ k < 8 * ceil8 s.f[fa].width.toNat - s.f[fa].width.toNat) :=
      fieldBit_setMem (k := k - (8 * ceil8 s.f[fa].width.toNat - s.f[fa].width.toNat)) h hb (by omega)
    exact if_ctx_congr Iff.rfl (fun _ => rfl) hval

/-- R165: a field is made of bits of its representation. -/
theorem unreprBit_setMem {fa : FIdx} {align : Align} {w k : Nat} (h : AgreeOn m s.mem s.f[fa])
    (hlen : ceil8 w ≤ s.f[fa].len.toNat) (hk : k < w) :
    unreprBit (s.setMem m) fa align w k = unreprBit s fa align w k := by
  have hle : w ≤ 8 * ceil8 w := by unfold ceil8; omega
  cases align with
  | left => exact bitAt_setMem h (by omega)
  | right => exact bitAt_setMem h (by omega)

/-- R56: the bits a command whose checks pass writes are a function of the content of the buffers it names. -/
theorem effect_setMem_val {i : Instr} (hpass : Passes i s) (h : ∀ j ∈ named i, AgreeOn m s.mem s.f[j]) {k : Nat}
    (hk : k < (effect i s).dst.hi - (effect i s).dst.lo) : (effect i (s.setMem m)).val k = (effect i s).val k := by
  have ha {fd fa : FIdx} {l} (hn : named i = fd :: fa :: l) : AgreeOn m s.mem s.f[fa] :=
    h fa (hn ▸ List.mem_cons_of_mem _ List.mem_cons_self)
  have hb {fd fa fb : FIdx} {l} (hn : named i = fd :: fa :: fb :: l) : AgreeOn m s.mem s.f[fb] :=
    h fb (hn ▸ List.mem_cons_of_mem _ (List.mem_cons_of_mem _ List.mem_cons_self))
  cases i with
  | ext2 fd fa fb =>
    replace hk := lt_of_lt_of_eq hk (rangeOf_hi_sub_lo ..)
    have hin := faultIf_eq_none.1 (hpass.own_fst rfl)
    have hlt : s.f[fa].pos.toNat + k < 8 * (s.f[fa].len.toNat + s.f[fb].len.toNat) := by omega
    exact concatBit_setMem (ha rfl) (hb rfl) hlt
  | bits fd fa align =>
    replace hk := lt_of_lt_of_eq hk (rangeOf_hi_sub_lo ..)
    exact reprBit_setMem (ha rfl) (checkBounds_eq_none.1 (hpass.own_fst rfl)) hk
  | setbits fd fa align =>
    replace hk := lt_of_lt_of_eq hk (rangeOf_hi_sub_lo ..)
    exact unreprBit_setMem (ha rfl) (Nat.not_lt.1 (faultIf_eq_none.1 (hpass.own_fst rfl))) hk
  | rotl fd fa xs =>
    replace hk := lt_of_lt_of_eq hk (rangeOf_hi_sub_lo ..)
    have hpos : 0 < 8 * s.f[fa].len.toNat := by omega
    exact bitAt_setMem (ha rfl) (Nat.mod_lt _ hpos)
  | band fd fa fb | bandn fd fa fb | bor fd fa fb | bxor fd fa fb =>
    replace hk := lt_of_lt_of_eq hk (rangeOf_hi_sub_lo ..)
    have hlen : s.f[fa].len = s.f[fb].len := not_not.1 (faultIf_eq_none.1 (hpass.own_fst rfl))
    have hx : bufferByte (s.setMem m) fa (k / 8) = bufferByte s fa (k / 8) := bufferByte_setMem (ha rfl) (by omega)
    have hy : bufferByte (s.setMem m) fb (k / 8) = bufferByte s fb (k / 8) :=
      bufferByte_setMem (hb rfl) (by rw [← hlen]; omega)
    simp only [effect, bufferEffect, growEffect, hx, hy]
  | bnot fd fa =>
    replace hk := lt_of_lt_of_eq hk (rangeOf_hi_sub_lo ..)
    have hx : bufferByte (s.setMem m) fa (k / 8) = bufferByte s fa (k / 8) := bufferByte_setMem (ha rfl) (by omega)
    simp only [effect, bufferEffect, growEffect, hx]
  | fand fd fa fb | fandn fd fa fb | forr fd fa fb | fxor fd fa fb =>
    replace hk := lt_of_lt_of_eq hk (rangeOf_hi_sub_lo ..)
    obtain ⟨-, -, hbuf⟩ := fieldChecks_eq_none.1 hpass.own
    have hx := fieldBit_setMem (ha rfl) (hbuf fa List.mem_cons_self) hk
    have hy := fieldBit_setMem (hb rfl) (hbuf fb (List.mem_cons_of_mem _ List.mem_cons_self)) hk
    simp only [effect, fieldEffect, storeEffect, hx, hy]
  | fnot fd fa =>
    replace hk := lt_of_lt_of_eq hk (rangeOf_hi_sub_lo ..)
    obtain ⟨-, -, hbuf⟩ := fieldChecks_eq_none.1 hpass.own
    have hx := fieldBit_setMem (ha rfl) (hbuf fa List.mem_cons_self) hk
    simp only [effect, fieldEffect, storeEffect, hx]
  | frotl fd fa xs =>
    replace hk := lt_of_lt_of_eq hk (rangeOf_hi_sub_lo ..)
    obtain ⟨-, -, hbuf⟩ := fieldChecks_eq_none.1 hpass.own
    have hpos : 0 < s.f[fd].width.toNat := by omega
    exact fieldBit_setMem (ha rfl) (hbuf fa List.mem_cons_self) (Nat.mod_lt _ hpos)
  | _ => rfl

end Depends

/-! ### What R292 leaves open depends on no memory -/

section Settle
variable {v : Option Movement} {g g' : State}

theorem settle_freeCount_congr (h : g.freeCount = g'.freeCount) :
    (settle v g).freeCount = (settle v g').freeCount := by
  unfold settle
  split
  · exact h
  · split
    · exact h
    · exact congrArg (· + 1) h

theorem settle_bitRead_congr (h : g.freeCount = g'.freeCount) {b : Nat}
    (hb : g.mem.bitRead 0 b = g'.mem.bitRead 0 b) :
    (settle v g).mem.bitRead 0 b = (settle v g').mem.bitRead 0 b := by
  cases v with
  | none => exact hb
  | some v =>
    by_cases hv : v.Free
    · rw [settle_of_free (by rintro _ ⟨⟩; exact hv), settle_of_free (by rintro _ ⟨⟩; exact hv), hb]
    · rw [settle_bitRead_of_not_free hv, settle_bitRead_of_not_free hv, h, hb]

end Settle

/-- Two runs of an effect leave alike every bit the two memories had alike. -/
theorem done_bit_setMem {i : Instr} {s g g' : State} {m : Memory} (hpass : Passes i s)
    (h : ∀ j ∈ named i, AgreeOn m s.mem s.f[j]) (hg : (effect i s).Done s g)
    (hg' : (effect i (s.setMem m)).Done (s.setMem m) g') {b : Nat} (hb : m.bitRead 0 b = s.mem.bitRead 0 b) :
    g'.mem.bitRead 0 b = g.mem.bitRead 0 b := by
  rw [hg.bit, hg'.bit, effect_setMem_dst, effect_setMem_grown, State.setMem_mem, hb]
  refine if_ctx_congr Iff.rfl (fun hin => effect_setMem_val hpass h ?_) fun _ => rfl
  obtain ⟨hlo, hhi⟩ := hin
  omega

/-- Settles O22: the checks see no byte of `M`, and an effect sees only the content of the buffers named. -/
theorem resultsDependOnBufferContentOnly : Obligations.ResultsDependOnBufferContentOnly := by
  intro i s t m hm h
  obtain ⟨r, hr, rfl⟩ | ⟨hpass, g, hdone, rfl⟩ := exec_cases h
  · refine ⟨raise r (s.setMem m), exec_of_raise ((allChecks_setMem i s m).symm ▸ hr), ?_, ?_, ?_, ?_, ?_, ?_, ?_⟩
    · simp only [raise_x, State.setMem_x]
    · simp only [raise_f, State.setMem_f]
    · simp only [raise_cmd, State.setMem_cmd]
    · cases r <;> rfl
    · cases r <;> rfl
    · simp only [raise_freeCount, State.setMem_freeCount]
    · intro a ha
      simp only [raise_mem, State.setMem_mem, ha]
  · have hpass' : Passes i (s.setMem m) := by
      rw [← firstRaise_allChecks_eq_none, allChecks_setMem]
      exact firstRaise_allChecks_eq_none.2 hpass
    obtain ⟨g', hdone', hexec⟩ := exec_of_passes hpass'
    rw [movement_setMem] at hexec
    have hfree : g'.freeCount = g.freeCount := hdone'.freeCount.trans hdone.freeCount.symm
    refine ⟨_, hexec, ?_, ?_, ?_, rfl, ?_, settle_freeCount_congr hfree, ?_⟩
    · simp only [finish_x, settle_x, hdone.x, hdone'.x, effect_setMem_x hpass hm]
    · simp only [finish_f, settle_f, hdone.f, hdone'.f, effect_setMem_f]
    · simp only [finish_cmd, settle_cmd, hdone.cmd, hdone'.cmd, State.setMem_cmd]
    · simp only [finish_needlen, settle_needlen, hdone.needlen, hdone'.needlen, State.setMem_needlen]
    · intro a ha
      refine Memory.read_eq_of_bits fun k hk => ?_
      refine settle_bitRead_congr hfree (done_bit_setMem hpass hm hdone hdone' ?_)
      rw [Memory.bitRead, Memory.bitRead, show 0 + (8 * a + k) / 8 = a by omega, ha]

/-! ### Commands that are not hazard free -/

theorem grown_growReg {size : MemSize} {s : State} {fd : FIdx} {need : Nat} (hd : DescOK size s.f[fd])
    (h : need ≤ s.f[fd].cap.toNat) : Grown s.f[fd] (growReg s.f[fd] need) need := by
  have hgrown := grown_growDo hd h
  rwa [growDo_f] at hgrown

theorem raise_status_ne_zero (r : Raise) (s : State) : (raise r s).status ≠ 0 := by
  cases r with
  | fault c =>
    rw [raise_fault_status]
    cases c <;> decide
  | eof => rw [raise_eof_status]; decide
  | grow need => rw [raise_grow_status]; decide

/-- A command that ends `OK` passed its checks and performed its operation. -/
theorem exec_ok {i : Instr} {s t : State} (h : exec i s = .next t) (hok : t.status = 0) :
    Passes i s ∧ ∃ g, (effect i s).Done s g ∧ t = finish (settle (movement i s) g) := by
  obtain ⟨r, -, rfl⟩ | hdone := exec_cases h
  · exact absurd hok (raise_status_ne_zero r s)
  · exact hdone

/-- A destination grown to the length at which its grown range ends. -/
theorem grown_of_grownRange {s : State} {fd : FIdx} {need need' : Nat} (hd : DescOK s.memBytes s.f[fd])
    (h : need' ≤ s.f[fd].cap.toNat) (hneed : 8 * (s.f[fd].base.toNat + need) = (grownRange s.f[fd] need').hi) :
    Grown s.f[fd] (s.f.set fd (growReg s.f[fd] need'))[fd] need := by
  have heq : need = need' := by
    simp only [grownRange] at hneed
    omega
  rw [vector_getElem_set_self, heq]
  exact grown_growReg hd h

/-- R104, R182: what a movement that needs `need` bytes makes of its destination register. -/
def MovedReg (i : Instr) (r r' : FieldReg) (need : Nat) : Prop :=
  match i with
  | .rotl .. => r' = { r with len := BitVec.ofNat 64 need }
  | _ => Grown r r' need

/-- R104, R182: the destination of a movement after it, `need` being the length its grown range ends at. -/
theorem effect_f_of_movement {i : Instr} {s : State} {v : Movement} (hpass : Passes i s) (hv : movement i s = some v) :
    ∀ p ∈ writesF i, ∀ need, 8 * (s.f[p.1].base.toNat + need) = v.grown.hi →
      MovedReg i s.f[p.1] (effect i s).f[p.1] need := by
  cases i with
  | bits fd =>
    cases hv
    refine List.forall_mem_singleton.2 fun need hneed => ?_
    exact grown_of_grownRange (hpass.desc_fst rfl) (ceil8_le_cap_of_bits (hpass.desc_fst rfl) (hpass.own_snd rfl)) hneed
  | setbits | band | bandn | bor | bxor =>
    cases hv
    refine List.forall_mem_singleton.2 fun need hneed => ?_
    exact grown_of_grownRange (hpass.desc_fst rfl) (need_le_cap (hpass.desc_fst rfl) (hpass.own_snd rfl)) hneed
  | bnot =>
    cases hv
    refine List.forall_mem_singleton.2 fun need hneed => ?_
    exact grown_of_grownRange (hpass.desc_fst rfl) (need_le_cap (hpass.desc_fst rfl) (hpass.own_fst rfl)) hneed
  | rotl fd fa xs =>
    cases hv
    refine List.forall_mem_singleton.2 fun need hneed => ?_
    have hlen : need = s.f[fa].len.toNat := by
      simp only [bufferMovement, grownRange] at hneed
      omega
    refine (vector_getElem_set_self ..).trans ?_
    rw [hlen, BitVec.ofNat_toNat, BitVec.setWidth_eq]
  | ext2 | fand | fandn | forr | fxor | fnot | frotl => exact List.forall_mem_nil _
  | _ => cases hv

theorem fieldReg_ext {r r' : FieldReg} (h : ∀ c, r.get c = r'.get c) : r = r' := by
  obtain ⟨base, len, cap, pos, width⟩ := r
  obtain ⟨base', len', cap', pos', width'⟩ := r'
  rw [FieldReg.mk.injEq]
  exact ⟨h .base, h .len, h .cap, h .pos, h .width⟩

/-- R72: a field register that is not written is kept whole. -/
theorem effect_f_of_forall_ne {i : Instr} {s : State} {j : FIdx} (hj : ∀ p ∈ writesF i, p.1 ≠ j) :
    (effect i s).f[j] = s.f[j] := by
  have hget (c : Component) : (effect i s).f[j].get c = s.f[j].get c :=
    effect_f_of_not_mem i s fun p hp heq => absurd heq (hj p hp)
  exact fieldReg_ext hget

/-- R290: no command that moves data writes a scalar register. -/
theorem effect_x_of_movement {i : Instr} {s : State} {v : Movement} (hv : movement i s = some v) :
    (effect i s).x = s.x := by
  cases i <;> cases hv <;> rfl

/-- Settles O23: the effect is done, and then every bit it touches takes its free value. -/
theorem hazardLeavesOnlyDestinationOpen : Obligations.HazardLeavesOnlyDestinationOpen := by
  intro i s t v h hok hv hfree
  obtain ⟨hpass, g, hdone, rfl⟩ := exec_ok h hok
  obtain ⟨hdst, hgrown⟩ := movement_ranges hv
  have htouch (b : Nat) : v.InDst b ↔ (effect i s).Touches b := by
    rw [Movement.InDst, hdst, hgrown]
    rfl
  have hbit (b : Nat) : (finish (settle (movement i s) g)).mem.bitRead 0 b =
      if v.InDst b then Config.freeBit s.freeCount b else g.mem.bitRead 0 b := by
    rw [finish_mem, hv, settle_bitRead_of_not_free hfree, hdone.freeCount, Nat.mul_zero, Nat.zero_add]
  have hf : (finish (settle (movement i s) g)).f = (effect i s).f := by
    rw [finish_f, settle_f, hdone.f]
  refine ⟨fun b hb => ?_, fun b hb => ?_, ?_, ?_, ?_, fun j hj => ?_, ?_⟩
  · rw [hbit, if_neg hb, hdone.bit_of_not_touches ((htouch b).not.1 hb)]
  · rw [hbit, if_pos hb]
  · rw [finish_x, settle_x, hdone.x, effect_x_of_movement hv]
  · rw [finish_needlen, settle_needlen, hdone.needlen]
  · rw [finish_freeCount, hv, settle_of_not_free hfree, hdone.freeCount]
  · rw [hf, effect_f_of_forall_ne hj]
  · rw [hf]
    exact effect_f_of_movement hpass hv

end Sys2Proof.Proofs
end

section
/-! Faults and requests for growth (spec/60_exceptions.md R254, R256, R258): the first own check of a command that
raises is what the command ends with. -/

namespace Sys2Proof.Proofs

open Sys2Proof.Machine

/-! ### A command whose own checks raise -/

theorem wellFormed_of_count_none {i : Instr} (h : i.count? = none) : WellFormed i := by
  intro n hn
  rw [h] at hn
  cases hn

theorem wellFormed_of_count_le {i : Instr} {n : Nat} (h : i.count? = some n) (hn : n ≤ 64) : WellFormed i := by
  intro m hm
  rw [h] at hm
  cases hm
  exact hn

section Raises
variable {i : Instr} {s : State}

theorem exec_of_own_raise {r : Raise} (hwf : WellFormed i) (hdesc : ∀ j ∈ named i, DescOK s.memBytes s.f[j])
    (h : firstRaise (ownChecks i s) = some r) : exec i s = .next (raise r s) := by
  refine exec_of_raise ?_
  rw [allChecks, checkLegal_eq_none.2 hwf, firstRaise_none, checkDesc_eq_none.2 hdesc, firstRaise_none, h]

/-- R254. -/
theorem exec_of_bounds (hwf : WellFormed i) (hdesc : ∀ j ∈ named i, DescOK s.memBytes s.f[j])
    (h : firstRaise (ownChecks i s) = some (.fault .bounds)) : exec i s = .next { s with status := 0x13 } := by
  rw [exec_of_own_raise hwf hdesc h, ← statusWord_bounds]
  rfl

/-- R103, R256. -/
theorem exec_of_grow {need : Nat} (hwf : WellFormed i) (hdesc : ∀ j ∈ named i, DescOK s.memBytes s.f[j])
    (h : firstRaise (ownChecks i s) = some (.grow need)) :
    exec i s = .next { s with status := 0x02, needlen := BitVec.ofNat 64 need } := by
  rw [exec_of_own_raise hwf hdesc h, ← statusWord_grow]
  rfl

/-- R205: whichever of its checks fails, a whole-field command raises `BOUNDS`. -/
theorem firstRaise_fieldChecks {fd : FIdx} {l : List FIdx} (h : firstRaise (fieldChecks s fd l) ≠ none) :
    firstRaise (fieldChecks s fd l) = some (.fault .bounds) := by
  obtain ⟨r, hr⟩ := Option.ne_none_iff_exists'.1 h
  rw [hr, fieldChecks_raises (firstRaise_mem hr)]

/-- R254: a command whose only own check is the bounds of `w` bits at the position of its register. -/
theorem exec_of_not_inBuf {fa : FIdx} {w : Nat} (hwf : WellFormed i) (hnamed : named i = [fa])
    (hown : ownChecks i s = [checkBounds s.f[fa] s.f[fa].pos.toNat w]) (hd : DescOK s.memBytes s.f[fa])
    (h : ¬ InBuf s.f[fa] s.f[fa].pos.toNat w) : exec i s = .next { s with status := 0x13 } := by
  refine exec_of_bounds hwf (hnamed ▸ List.forall_mem_singleton.2 hd) ?_
  rw [hown, checkBounds_of_not h, firstRaise_some]

end Raises

section Triples
variable {s : State} {fd fa fb : FIdx}

theorem desc_pair (hd : DescOK s.memBytes s.f[fd]) (ha : DescOK s.memBytes s.f[fa]) :
    ∀ j ∈ [fd, fa], DescOK s.memBytes s.f[j] :=
  List.forall_mem_cons.2 ⟨hd, List.forall_mem_singleton.2 ha⟩

theorem desc_triple (hd : DescOK s.memBytes s.f[fd]) (ha : DescOK s.memBytes s.f[fa])
    (hb : DescOK s.memBytes s.f[fb]) : ∀ j ∈ [fd, fa, fb], DescOK s.memBytes s.f[j] :=
  List.forall_mem_cons.2 ⟨hd, desc_pair ha hb⟩

end Triples

/-! ### `BOUNDS` -/

section Bounds
variable {s : State} {fd fa fb : FIdx} {xd xs : XIdx} {n : BitVec 7}

/-- R106, R121, R125, R152 to R156: the commands that reach one range of one buffer. -/
theorem bounds_of_single_range (hn : n.toNat ≤ 64) :
    ∀ iw ∈ [(Instr.norm fa, 0), (.get xd fa n, n.toNat), (.put fa xs n, n.toNat), (.bit xd fa, 1), (.uint8 xd fa, 8),
        (.uint16 xd fa, 16), (.uint32 xd fa, 32), (.uint64 xd fa, 64)],
      WellFormed iw.1 ∧ named iw.1 = [fa] ∧ ownChecks iw.1 s = [checkBounds s.f[fa] s.f[fa].pos.toNat iw.2] := by
  simp only [List.forall_mem_cons]
  refine ⟨?_, ?_, ?_, ?_, ?_, ?_, ?_, ?_, List.forall_mem_nil _⟩
  case refine_2 => exact ⟨wellFormed_of_count_le rfl hn, rfl, rfl⟩
  case refine_3 => exact ⟨wellFormed_of_count_le rfl hn, rfl, rfl⟩
  all_goals exact ⟨wellFormed_of_count_none rfl, rfl, rfl⟩

theorem exec_rdbits_of_not_inBuf (hn : n.toNat ≤ 64) (ha : DescOK s.memBytes s.f[fa])
    (hw : n.toNat ≤ s.f[fa].width.toNat) (hb : ¬ InBuf s.f[fa] s.f[fa].pos.toNat n.toNat) :
    exec (.rdbits xd fa n) s = .next { s with status := 0x13 } := by
  refine exec_of_bounds (wellFormed_of_count_le rfl hn) (List.forall_mem_singleton.2 ha) ?_
  simp only [ownChecks]
  rw [if_neg (Nat.not_lt.2 hw), firstRaise_none, checkBounds_of_not hb, firstRaise_some]

/-- R214, R215: the bounds check of `FCOUNT` and `FFILL` stands after that of the bit value. -/
theorem exec_of_bit_value_not_inBuf {i : Instr} (hcount : i.count? = none) (hnamed : named i = [fa])
    (hown : ownChecks i s = [faultIf .invalidArg (1 < s.x[xs].toNat),
      checkBounds s.f[fa] s.f[fa].pos.toNat s.f[fa].width.toNat])
    (ha : DescOK s.memBytes s.f[fa]) (hx : s.x[xs].toNat ≤ 1)
    (hb : ¬ InBuf s.f[fa] s.f[fa].pos.toNat s.f[fa].width.toNat) : exec i s = .next { s with status := 0x13 } := by
  refine exec_of_bounds (wellFormed_of_count_none hcount) (hnamed ▸ List.forall_mem_singleton.2 ha) ?_
  rw [hown, faultIf_eq_none.2 (Nat.not_lt.2 hx), firstRaise_none, checkBounds_of_not hb, firstRaise_some]

theorem exec_ext2_of_too_short (hd : DescOK s.memBytes s.f[fd]) (ha : DescOK s.memBytes s.f[fa])
    (hb : DescOK s.memBytes s.f[fb])
    (h : 8 * (s.f[fa].len.toNat + s.f[fb].len.toNat) < s.f[fa].pos.toNat + 8 * s.f[fd].len.toNat) :
    exec (.ext2 fd fa fb) s = .next { s with status := 0x13 } := by
  refine exec_of_bounds (wellFormed_of_count_none rfl) (desc_triple hd ha hb) ?_
  simp only [ownChecks]
  rw [faultIf_of h, firstRaise_some]

/-- R205: what a dyadic whole-field command checks. -/
theorem fieldChecks_pair_eq_none :
    firstRaise (fieldChecks s fd [fa, fb]) = none ↔
      (s.f[fd].width.toNat ≤ s.f[fa].width.toNat ∧ s.f[fd].width.toNat ≤ s.f[fb].width.toNat) ∧
      InBuf s.f[fd] s.f[fd].pos.toNat s.f[fd].width.toNat ∧
      InBuf s.f[fa] s.f[fa].pos.toNat s.f[fd].width.toNat ∧ InBuf s.f[fb] s.f[fb].pos.toNat s.f[fd].width.toNat := by
  rw [fieldChecks_eq_none]
  simp only [List.forall_mem_cons, List.not_mem_nil, false_implies, implies_true, and_true]

/-- R205: what a whole-field command with one source checks. -/
theorem fieldChecks_single_eq_none :
    firstRaise (fieldChecks s fd [fa]) = none ↔ s.f[fd].width.toNat ≤ s.f[fa].width.toNat ∧
      InBuf s.f[fd] s.f[fd].pos.toNat s.f[fd].width.toNat ∧ InBuf s.f[fa] s.f[fa].pos.toNat s.f[fd].width.toNat := by
  rw [fieldChecks_eq_none]
  simp only [List.forall_mem_singleton]

theorem exec_of_monadic_fieldChecks {i : Instr} (hi : i ∈ [Instr.fnot fd fa, .frotl fd fa xs])
    (hd : DescOK s.memBytes s.f[fd]) (ha : DescOK s.memBytes s.f[fa])
    (h : firstRaise (fieldChecks s fd [fa]) ≠ none) : exec i s = .next { s with status := 0x13 } := by
  have hraise := firstRaise_fieldChecks h
  simp only [List.mem_cons, List.not_mem_nil, or_false] at hi
  obtain rfl | rfl := hi
  · exact exec_of_bounds (wellFormed_of_count_none rfl) (desc_pair hd ha) hraise
  · exact exec_of_bounds (wellFormed_of_count_none rfl) (desc_pair hd ha) hraise

theorem exec_of_dyadic_fieldChecks {i : Instr}
    (hi : i ∈ [Instr.fand fd fa fb, .fandn fd fa fb, .forr fd fa fb, .fxor fd fa fb]) (hd : DescOK s.memBytes s.f[fd])
    (ha : DescOK s.memBytes s.f[fa]) (hb : DescOK s.memBytes s.f[fb])
    (h : firstRaise (fieldChecks s fd [fa, fb]) ≠ none) : exec i s = .next { s with status := 0x13 } := by
  have hraise := firstRaise_fieldChecks h
  simp only [List.mem_cons, List.not_mem_nil, or_false] at hi
  obtain rfl | rfl | rfl | rfl := hi
  all_goals exact exec_of_bounds (wellFormed_of_count_none rfl) (desc_triple hd ha hb) hraise

end Bounds

/-- Settles O24, by the kind of range the command reaches. -/
theorem outOfBoundsFaults : Obligations.OutOfBoundsFaults := by
  intro s fd fa fb xd xs n hn hd ha hb
  refine ⟨fun iw hiw h => ?_, exec_rdbits_of_not_inBuf hn ha, fun hx h => ?_, exec_ext2_of_too_short hd ha hb,
    fun i hi h => ?_, fun i hi h => ?_⟩
  · obtain ⟨hwf, hnamed, hown⟩ := bounds_of_single_range hn iw hiw
    exact exec_of_not_inBuf hwf hnamed hown ha h
  · exact ⟨exec_of_bit_value_not_inBuf rfl rfl rfl ha hx h, exec_of_bit_value_not_inBuf rfl rfl rfl ha hx h⟩
  · obtain hi | hi := List.mem_append.1 (show i ∈ [Instr.fnot fd fa, .frotl fd fa xs] ++ _ from hi)
    · refine exec_of_monadic_fieldChecks hi hd ha fun hnone => ?_
      obtain ⟨hw, hbuf, hbufa⟩ := fieldChecks_single_eq_none.1 hnone
      obtain h | h | h := h
      · omega
      · exact h hbuf
      · exact h hbufa
    · refine exec_of_dyadic_fieldChecks hi hd ha hb fun hnone => ?_
      obtain ⟨⟨hw, -⟩, hbuf, hbufa, -⟩ := fieldChecks_pair_eq_none.1 hnone
      obtain h | h | h := h
      · omega
      · exact h hbuf
      · exact h hbufa
  · refine exec_of_dyadic_fieldChecks hi hd ha hb fun hnone => ?_
    obtain ⟨⟨-, hw⟩, -, -, hbufb⟩ := fieldChecks_pair_eq_none.1 hnone
    obtain h | h := h
    · omega
    · exact h hbufb

/-! ### `GROW` -/

section Grow
variable {s : State} {fd fa : FIdx} {xs : XIdx}

/-- R256: a command whose only own check is the growth of its destination. -/
theorem exec_of_cap_lt {i : Instr} {need : Nat} (hcount : i.count? = none)
    (hdesc : ∀ j ∈ named i, DescOK s.memBytes s.f[j]) (hown : ownChecks i s = [growPlan s.f[fd] need])
    (hd : DescOK s.memBytes s.f[fd]) (h : s.f[fd].cap.toNat < need) :
    exec i s = .next { s with status := 0x02, needlen := BitVec.ofNat 64 need } := by
  refine exec_of_grow (wellFormed_of_count_none hcount) hdesc ?_
  rw [hown, growPlan_of_cap_lt hd.1 h, firstRaise_some]

end Grow

/-- Settles O25: in each row the growth of the destination is the only check after the descriptors. -/
theorem tooSmallCapacityRequestsGrowth : Obligations.TooSmallCapacityRequestsGrowth := by
  intro s fd fa xs hd ha
  have h1 : ∀ j ∈ [fd], DescOK s.memBytes s.f[j] := List.forall_mem_singleton.2 hd
  have h2 := desc_pair hd ha
  simp only [List.forall_mem_cons]
  exact ⟨exec_of_cap_lt rfl h1 rfl hd, exec_of_cap_lt rfl h1 rfl hd, exec_of_cap_lt rfl h1 rfl hd,
    exec_of_cap_lt rfl h1 rfl hd, exec_of_cap_lt rfl h1 rfl hd, exec_of_cap_lt rfl h1 rfl hd,
    exec_of_cap_lt rfl h2 rfl hd, exec_of_cap_lt rfl h2 rfl hd, List.forall_mem_nil _⟩

/-! ### The source side of `BITS` and `SETBITS` before their destination side -/

section SourceFirst
variable {s : State} {fd fa : FIdx} {al : Align}

theorem ownChecks_bits_of_not_inBuf (h : ¬ InBuf s.f[fa] s.f[fa].pos.toNat s.f[fa].width.toNat) :
    firstRaise (ownChecks (.bits fd fa al) s) = some (.fault .bounds) := by
  simp only [ownChecks]
  rw [checkBounds_of_not h, firstRaise_some]

theorem ownChecks_bits_of_cap_lt (hd : DescOK s.memBytes s.f[fd])
    (h : InBuf s.f[fa] s.f[fa].pos.toNat s.f[fa].width.toNat) (hw : 0 < s.f[fa].width.toNat)
    (hcap : s.f[fd].cap.toNat < ceil8 s.f[fa].width.toNat) :
    firstRaise (ownChecks (.bits fd fa al) s) = some (.grow (ceil8 s.f[fa].width.toNat)) := by
  simp only [ownChecks]
  rw [checkBounds_eq_none.2 h, firstRaise_none, if_neg hw.ne', growPlan_of_cap_lt hd.1 hcap, firstRaise_some]

theorem ownChecks_setbits_of_short (h : s.f[fa].len.toNat < ceil8 s.f[fd].width.toNat) :
    firstRaise (ownChecks (.setbits fd fa al) s) = some (.fault .bounds) := by
  simp only [ownChecks]
  rw [faultIf_of h, firstRaise_some]

theorem ownChecks_setbits_of_cap_lt (hd : DescOK s.memBytes s.f[fd])
    (h : ceil8 s.f[fd].width.toNat ≤ s.f[fa].len.toNat)
    (hcap : s.f[fd].cap.toNat < needLen s.f[fd].pos.toNat s.f[fd].width.toNat) :
    firstRaise (ownChecks (.setbits fd fa al) s) =
      some (.grow (needLen s.f[fd].pos.toNat s.f[fd].width.toNat)) := by
  simp only [ownChecks]
  rw [faultIf_eq_none.2 (Nat.not_lt.2 h), firstRaise_none, growPlan_of_cap_lt hd.1 hcap, firstRaise_some]

end SourceFirst

/-- Settles O26, by the first of the own checks that raises. -/
theorem sourceFaultBeforeGrowth : Obligations.SourceFaultBeforeGrowth := by
  intro s fd fa al hd ha
  have hdesc := desc_pair hd ha
  exact ⟨fun h => exec_of_bounds (wellFormed_of_count_none rfl) hdesc (ownChecks_bits_of_not_inBuf h),
    fun h hw hcap => exec_of_grow (wellFormed_of_count_none rfl) hdesc (ownChecks_bits_of_cap_lt hd h hw hcap),
    fun h => exec_of_bounds (wellFormed_of_count_none rfl) hdesc (ownChecks_setbits_of_short h),
    fun h hcap => exec_of_grow (wellFormed_of_count_none rfl) hdesc (ownChecks_setbits_of_cap_lt hd h hcap)⟩

end Sys2Proof.Proofs
end

section
/-! What a completed command leaves, from its effect: the frame, the bits of `M`, the bits of a scalar register. -/

namespace Sys2Proof.Proofs

open Sys2Proof.Machine

/-! ### The frame of an effect -/

section Frames
variable {i : Instr} {e : Effect} {s t : State}

/-- R72: the registers a command's rule does not name, and the fields of the model's own. -/
theorem frame_of_done (h : (effect i s).Done s t) : Frame s t (writesX i) ((writesF i).map Prod.fst) := by
  refine ⟨fun j hj => ?_, fun j hj => ?_, h.cmd, h.needlen, h.memBytes, h.host, h.portOut, h.freeCount⟩
  · rw [h.x, effect_x_of_not_mem i s hj]
  · rw [h.f]
    exact effect_f_of_forall_ne fun p hp heq => hj (heq ▸ List.mem_map_of_mem hp)

/-- A range outside of which the effect touches nothing (R57). -/
theorem keepsOutside_of_done {r : BitRange} (h : e.Done s t) (hr : ∀ b, e.Touches b → r.Has b) :
    KeepsOutside s t r := by
  refine ⟨fun b hb => h.bit_of_not_touches fun ht => hb (hr b ht), fun a ha => ?_⟩
  refine Memory.read_eq_of_bits fun k hk => h.bit_of_not_touches fun ht => ?_
  obtain ⟨hlo, hhi⟩ := hr _ ht
  omega

/-- An effect that touches no bit keeps `M`. -/
theorem keepsMem_of_done (h : e.Done s t) (hdst : e.dst.hi ≤ e.dst.lo) (hgrown : e.grown.hi ≤ e.grown.lo) :
    KeepsMem s t :=
  fun _ => Memory.read_eq_of_bits fun _ _ => h.bit_of_not_touches (not_touches_of_empty hdst hgrown)

/-- Bit `k` of what an effect writes, as a bit of the destination's buffer. -/
theorem bitRead_of_done {r : FieldReg} {p w k : Nat} (h : e.Done s t) (hdst : e.dst = rangeOf r p w) (hk : k < w) :
    t.mem.bitRead r.base.toNat (p + k) = e.val k := by
  have hin : (rangeOf r p w).Has (8 * r.base.toNat + (p + k)) := has_rangeOf_iff.2 (by omega)
  rw [Memory.bitRead_abs, h.bit, hdst, if_pos hin]
  congr 1
  simp only [rangeOf, absBit]
  omega

/-- Byte `j` of what an effect writes from byte 0 of the destination's buffer. -/
theorem read_of_done {r : FieldReg} {n j : Nat} {out : Byte} (h : e.Done s t) (hdst : e.dst = rangeOf r 0 (8 * n))
    (hj : j < n) (hval : ∀ k < 8, e.val (8 * j + k) = bitOfByte out k) : t.mem.read (r.base.toNat + j) = out := by
  refine byte_ext fun k hk => ?_
  have hbit := bitRead_of_done h hdst (k := 8 * j + k) (by omega)
  rw [hval k hk, Memory.bitRead, Nat.zero_add, show (8 * j + k) / 8 = j by omega,
    show (8 * j + k) % 8 = k by omega] at hbit
  exact hbit

end Frames

/-! ### Bits of a scalar register -/

section Scalars
variable {s t : State} {i : Instr} {xd : XIdx} {fa : FIdx} {w : Nat} {v : Word}

theorem x_of_done {n : Nat} (h : (effect i s).Done s t) (hx : (effect i s).x = s.x.set xd (wordOf n)) :
    t.x[xd] = wordOf n := by
  rw [h.x, hx, vector_getElem_set_self]

/-- R11: the bits of a bit string in a word, the first the most significant. -/
theorem getLsbD_of_bitsRead {p : Nat} (hv : v = wordOf (s.mem.bitsRead s.f[fa].base.toNat p w)) (hw : w ≤ 64) :
    (∀ k < w, v.getLsbD (w - 1 - k) = bitAt s fa (p + k)) ∧ ∀ k, w ≤ k → v.getLsbD k = false := by
  subst hv
  constructor
  · intro k hk
    rw [Memory.bitsRead_getLsbD _ _ _ _ _ hw, decide_eq_true (by omega), Bool.true_and,
      show w - 1 - (w - 1 - k) = k by omega]
    rfl
  · intro k hk
    rw [Memory.bitsRead_getLsbD _ _ _ _ _ hw, decide_eq_false (by omega), Bool.false_and]

/-- A bit string of at most 64 bits fits a word. -/
theorem toNat_wordOf_bitsRead {m : Memory} {base p : Nat} (hw : w ≤ 64) :
    (wordOf (m.bitsRead base p w)).toNat = m.bitsRead base p w :=
  wordOf_of_lt (lt_of_lt_of_le (Memory.bitsRead_lt ..) (Nat.pow_le_pow_right (by decide) hw))

end Scalars

/-! ### When the checks pass -/

section Passing
variable {i : Instr} {s : State} {fd fa fb : FIdx}

theorem passes_of_single {c : Option Raise} (hwf : WellFormed i) (hdesc : ∀ j ∈ named i, DescOK s.memBytes s.f[j])
    (hown : ownChecks i s = [c]) (hc : c = none) : Passes i s :=
  ⟨hwf, hdesc, by rw [hown, hc]; rfl⟩

theorem passes_of_pair {c d : Option Raise} (hwf : WellFormed i) (hdesc : ∀ j ∈ named i, DescOK s.memBytes s.f[j])
    (hown : ownChecks i s = [c, d]) (hc : c = none) (hd : d = none) : Passes i s :=
  ⟨hwf, hdesc, by rw [hown, hc, hd]; rfl⟩

/-- A command without a movement is hazard free (R290). -/
theorem hazardFree_of_movement_none (h : movement i s = none) : HazardFree i s := by
  rw [HazardFree, h]
  rintro _ ⟨⟩

end Passing

end Sys2Proof.Proofs
end

section
/-! Position arithmetic, and the commands that read one buffer into a scalar register (spec/40_position_arithmetic.md,
spec/41_word_get_put.md, spec/43_field_access.md R152 to R156, spec/46_field_cursor.md R201). -/

namespace Sys2Proof.Proofs

open Sys2Proof.Machine

/-! ### `NORM` -/

section Norm
variable {s t : State} {fd : FIdx}

theorem passes_norm (hd : DescOK s.memBytes s.f[fd]) (hb : InBuf s.f[fd] s.f[fd].pos.toNat 0) :
    Passes (.norm fd) s :=
  passes_of_single (wellFormed_of_count_none rfl) (List.forall_mem_singleton.2 hd) rfl (checkBounds_eq_none.2 hb)

/-- R102: normalisation moves the start of the buffer and the position by the same whole bytes. -/
theorem inBuf_normalizeAt_iff {size : MemSize} {r : FieldReg} (hd : DescOK size r) (hb : InBuf r r.pos.toNat 0)
    (w : Nat) : InBuf (normalizeAt r r.pos.toNat) (normalizeAt r r.pos.toNat).pos.toNat w ↔ InBuf r r.pos.toNat w := by
  unfold InBuf needLen ceil8 at *
  obtain ⟨-, hlen, -, hpos, -⟩ := normalizeAt_toNat hd (p := r.pos.toNat) (by omega)
  rw [hlen, hpos]
  omega

/-- R106: a register whose position is below 8 is its own normal form. -/
theorem normalizeAt_of_lt {r : FieldReg} (h : r.pos.toNat < 8) : normalizeAt r r.pos.toNat = r := by
  unfold normalizeAt
  rw [Nat.div_eq_of_lt h, Nat.mod_eq_of_lt h]
  simp only [Nat.add_zero, Nat.sub_zero, wordOf_toNat_self]

/-- R106: the register's normal form, and nothing else, is written. -/
theorem exec_norm_of_passes (h : Passes (.norm fd) s) :
    exec (.norm fd) s = .next (finish (s.setF fd (normalizeAt s.f[fd] s.f[fd].pos.toNat))) := by
  have hdesc : checkDesc s [fd] = none := checkDesc_eq_none.2 h.desc
  simp only [exec, execNorm]
  rw [hdesc, runCommand_none_cons]
  exact runCommand_of_none h.own _ _

end Norm

/-- Settles O29: the new register is the normal form of the old one. -/
theorem normKeepsAddressAndBounds : Obligations.NormKeepsAddressAndBounds := by
  intro s fd hd hb
  obtain ⟨t, hexec, hok, hdone⟩ := exec_completes (passes_norm hd hb) (hazardFree_of_movement_none rfl)
  have hf : t.f[fd] = normalizeAt s.f[fd] s.f[fd].pos.toNat := by
    rw [hdone.f]
    exact vector_getElem_set_self ..
  refine ⟨t, hexec, hok, ?_, ?_, frame_of_done hdone, keepsMem_of_done hdone le_rfl le_rfl⟩
  · rw [hf]
    exact advanced_normalizeAt hd hb
  · rw [hf]
    exact inBuf_normalizeAt_iff hd hb

/-- Settles O30: an exception is taken again as it was, and a normal form is its own. -/
theorem normTwiceIsNormOnce : Obligations.NormTwiceIsNormOnce := by
  intro s t fd h
  obtain ⟨r, hr, rfl⟩ | ⟨hpass, -⟩ := exec_cases h
  · have hchecks : allChecks (.norm fd) (raise r s) = allChecks (.norm fd) s := by cases r <;> rfl
    rw [exec_of_raise (hchecks ▸ hr)]
    cases r <;> rfl
  · rw [exec_norm_of_passes hpass] at h
    cases h
    have hd := hpass.desc fd List.mem_cons_self
    have hb : InBuf s.f[fd] s.f[fd].pos.toNat 0 :=
      checkBounds_eq_none.1 (hpass.own_fst rfl)
    have hpos : (normalizeAt s.f[fd] s.f[fd].pos.toNat).pos.toNat < 8 := (advanced_normalizeAt hd hb).pos
    have hf : (finish (s.setF fd (normalizeAt s.f[fd] s.f[fd].pos.toNat))).f[fd] =
      normalizeAt s.f[fd] s.f[fd].pos.toNat := vector_getElem_set_self ..
    have hpass' : Passes (.norm fd) (finish (s.setF fd (normalizeAt s.f[fd] s.f[fd].pos.toNat))) :=
      passes_norm (by rw [hf]; exact descOK_normalizeAt hd hb) (by rw [hf]; exact (inBuf_normalizeAt_iff hd hb 0).2 hb)
    rw [exec_norm_of_passes hpass', hf, normalizeAt_of_lt hpos]
    simp only [finish, State.setF]
    rw [Vector.set_set]

/-! ### `NEED` -/

/-- Settles O31: the sum of two words fits the integer the model forms, and its eighth fits a word. -/
theorem needGivesByteLength : Obligations.NeedGivesByteLength := by
  intro s xd fa hd
  have hpass : Passes (.need xd fa) s :=
    ⟨wellFormed_of_count_none rfl, List.forall_mem_singleton.2 hd, rfl⟩
  obtain ⟨t, hexec, hok, hdone⟩ := exec_completes hpass (hazardFree_of_movement_none rfl)
  refine ⟨t, hexec, hok, ?_, frame_of_done hdone, keepsMem_of_done hdone le_rfl le_rfl⟩
  have hpos := s.f[fa].pos.isLt
  have hwidth := s.f[fa].width.isLt
  have hlt : needLen s.f[fa].pos.toNat s.f[fa].width.toNat < 2 ^ 64 := by
    unfold needLen ceil8
    omega
  rw [x_of_done hdone rfl, wordOf_of_lt hlt]
  rfl

/-! ### `ENSURE` -/

/-- R104: a byte that an effect does not write is 0 if growth brought it in, and kept if not. -/
theorem read_of_done_outside_dst {e : Effect} {s t : State} {r : FieldReg} {need a : Nat} (h : e.Done s t)
    (hgrown : e.grown = grownRange r need) (hdst : ∀ k < 8, ¬ e.dst.Has (8 * a + k)) :
    t.mem.read a = if r.base.toNat + r.len.toNat ≤ a ∧ a < r.base.toNat + need then 0 else s.mem.read a := by
  by_cases ha : r.base.toNat + r.len.toNat ≤ a ∧ a < r.base.toNat + need
  · rw [if_pos ha]
    refine byte_ext fun k hk => ?_
    have hin : e.grown.Has (8 * a + k) := by
      rw [hgrown]
      simp only [BitRange.Has, grownRange]
      omega
    have hbit := h.bit (8 * a + k)
    rw [if_neg (hdst k hk), if_pos hin, Memory.bitRead, show 0 + (8 * a + k) / 8 = a by omega,
      show (8 * a + k) % 8 = k by omega] at hbit
    rw [hbit]
    simp [bitOfByte]
  · rw [if_neg ha]
    refine Memory.read_eq_of_bits fun k hk => ?_
    have hout : ¬ e.grown.Has (8 * a + k) := by
      rw [hgrown]
      simp only [BitRange.Has, grownRange]
      omega
    rw [h.bit, if_neg (hdst k hk), if_neg hout]

/-- R104: the destination register after growth within its capacity. -/
theorem grown_of_done {e : Effect} {s t : State} {fd : FIdx} {need : Nat} (h : e.Done s t)
    (hf : e.f = s.f.set fd (growReg s.f[fd] need)) (hd : DescOK s.memBytes s.f[fd])
    (hcap : need ≤ s.f[fd].cap.toNat) : Grown s.f[fd] t.f[fd] need := by
  rw [h.f, hf, vector_getElem_set_self]
  exact grown_growReg hd hcap

/-- Settles O32: growth is all the command does, and what it touches is the range grown, with zeros. -/
theorem ensureGrowsWithZeros : Obligations.EnsureGrowsWithZeros := by
  rintro s fd need rfl hd hcap
  have hpass : Passes (.ensure fd) s := passes_of_single (wellFormed_of_count_none rfl)
    (List.forall_mem_singleton.2 hd) rfl (growPlan_eq_none.2 (.inl hcap))
  obtain ⟨t, hexec, hok, hdone⟩ := exec_completes hpass (hazardFree_of_movement_none rfl)
  refine ⟨t, hexec, hok, grown_of_done hdone rfl hd hcap, fun a => ?_, frame_of_done hdone⟩
  refine read_of_done_outside_dst hdone rfl fun k _ hin => ?_
  obtain ⟨hlo, hhi⟩ := has_rangeOf_iff.1 hin
  omega

/-! ### Reads of a fixed width -/

/-- R152 to R156: reading `w` bits at the position, for every command that does no more. -/
theorem uint_completes {i : Instr} {s : State} {xd : XIdx} {fa : FIdx} {w : Nat} (hcount : i.count? = none)
    (hnamed : named i = [fa]) (hown : ownChecks i s = [checkBounds s.f[fa] s.f[fa].pos.toNat w])
    (heffect : effect i s = uintEffect s xd fa w) (hmove : movement i s = none) (hd : DescOK s.memBytes s.f[fa])
    (hb : InBuf s.f[fa] s.f[fa].pos.toNat w) :
    ∃ t, exec i s = .next t ∧ t.status = 0 ∧ (effect i s).Done s t ∧
      t.x[xd] = wordOf (s.mem.bitsRead s.f[fa].base.toNat s.f[fa].pos.toNat w) := by
  have hpass : Passes i s := passes_of_single (wellFormed_of_count_none hcount)
    (hnamed ▸ List.forall_mem_singleton.2 hd) hown (checkBounds_eq_none.2 hb)
  obtain ⟨t, hexec, hok, hdone⟩ := exec_completes hpass (hazardFree_of_movement_none hmove)
  exact ⟨t, hexec, hok, hdone, x_of_done hdone (by rw [heffect]; rfl)⟩

/-- The same with the bits of the result and the frame. -/
theorem uint_reads {i : Instr} {s : State} {xd : XIdx} {fa : FIdx} {w : Nat} (hcount : i.count? = none)
    (hnamed : named i = [fa]) (hown : ownChecks i s = [checkBounds s.f[fa] s.f[fa].pos.toNat w])
    (heffect : effect i s = uintEffect s xd fa w) (hmove : movement i s = none) (hx : writesX i = [xd])
    (hf : writesF i = []) (hw : w ≤ 64) (hd : DescOK s.memBytes s.f[fa]) (hb : InBuf s.f[fa] s.f[fa].pos.toNat w) :
    ∃ t, exec i s = .next t ∧ t.status = 0 ∧
      (∀ k < w, t.x[xd].getLsbD (w - 1 - k) = bitAt s fa (s.f[fa].pos.toNat + k)) ∧
      (∀ k, w ≤ k → t.x[xd].getLsbD k = false) ∧ Frame s t [xd] [] ∧ KeepsMem s t := by
  obtain ⟨t, hexec, hok, hdone, hval⟩ := uint_completes hcount hnamed hown heffect hmove hd hb
  obtain ⟨hbits, hzero⟩ := getLsbD_of_bitsRead hval hw
  have hframe := frame_of_done hdone
  rw [hx, hf] at hframe
  rw [heffect] at hdone
  exact ⟨t, hexec, hok, hbits, hzero, hframe, keepsMem_of_done hdone le_rfl le_rfl⟩

/-- Settles O39: the five commands differ in the width alone. -/
theorem uintReadsFixedWidth : Obligations.UintReadsFixedWidth := by
  intro s xd fa hd
  simp only [List.forall_mem_cons]
  refine ⟨uint_reads rfl rfl rfl rfl rfl rfl rfl ?_ hd, uint_reads rfl rfl rfl rfl rfl rfl rfl ?_ hd,
    uint_reads rfl rfl rfl rfl rfl rfl rfl ?_ hd, uint_reads rfl rfl rfl rfl rfl rfl rfl ?_ hd,
    uint_reads rfl rfl rfl rfl rfl rfl rfl ?_ hd, List.forall_mem_nil _⟩
  all_goals decide

/-- R10: the bit at `o` is bit `7 - o % 8` of the byte that starts at `o - o % 8`. -/
theorem bitsRead_one_eq_byte (m : Memory) (base o : Nat) :
    wordOf (m.bitsRead base o 1) = (wordOf (m.bitsRead base (o - o % 8) 8) >>> (7 - o % 8)) &&& 1 := by
  apply BitVec.eq_of_getLsbD_eq
  intro k _
  rw [BitVec.getLsbD_and, BitVec.getLsbD_ushiftRight, Memory.bitsRead_getLsbD _ _ _ _ _ (by decide),
    Memory.bitsRead_getLsbD _ _ _ _ _ (by decide)]
  cases k with
  | zero =>
    rw [show o - o % 8 + (8 - 1 - (7 - o % 8 + 0)) = o by omega, decide_eq_true (show 7 - o % 8 + 0 < 8 by omega)]
    simp
  | succ k =>
    simp [BitVec.getLsbD_one]

/-- Settles O40: `UINT8` at the byte of the position reads that byte. -/
theorem bitAgreesWithByte : Obligations.BitAgreesWithByte := by
  rintro s xd fa o rfl hd hb
  obtain ⟨t, hexec, -, -, ht⟩ :=
    uint_completes (i := .bit xd fa) (xd := xd) rfl rfl rfl rfl rfl hd hb
  generalize hr : ({ s.f[fa] with pos := BitVec.ofNat 64 (s.f[fa].pos.toNat - s.f[fa].pos.toNat % 8) } : FieldReg) = r
  have hf : (s.setF fa r).f[fa] = r := vector_getElem_set_self ..
  have hbase : r.base = s.f[fa].base := by rw [← hr]
  have hpos : r.pos.toNat = s.f[fa].pos.toNat - s.f[fa].pos.toNat % 8 := by
    rw [← hr]
    exact wordOf_of_lt (lt_of_le_of_lt (Nat.sub_le ..) s.f[fa].pos.isLt)
  have hdr : DescOK (s.setF fa r).memBytes (s.setF fa r).f[fa] := by
    rw [hf, ← hr]
    exact hd
  have hbr : InBuf (s.setF fa r).f[fa] (s.setF fa r).f[fa].pos.toNat 8 := by
    have hlen : r.len = s.f[fa].len := by rw [← hr]
    unfold InBuf needLen ceil8 at hb ⊢
    rw [hf, hpos, hlen]
    omega
  obtain ⟨u, hexec', -, -, hu⟩ :=
    uint_completes (i := .uint8 xd fa) (s := s.setF fa r) (xd := xd) rfl rfl rfl rfl rfl hdr hbr
  refine ⟨t, u, hexec, hexec', ?_⟩
  rw [ht, hu, hf, hbase, hpos]
  exact bitsRead_one_eq_byte ..

/-! ### `GET` -/

section Get
variable {s : State} {xd : XIdx} {fd : FIdx} {n : BitVec 7}

/-- R121: the bits as a number, and the register normalised past them. -/
theorem get_completes (hn : n.toNat ≤ 64) (hd : DescOK s.memBytes s.f[fd])
    (hb : InBuf s.f[fd] s.f[fd].pos.toNat n.toNat) :
    ∃ t, exec (.get xd fd n) s = .next t ∧ t.status = 0 ∧ (effect (.get xd fd n) s).Done s t ∧
      t.x[xd] = wordOf (s.mem.bitsRead s.f[fd].base.toNat s.f[fd].pos.toNat n.toNat) ∧
      t.f[fd] = normalizeAt s.f[fd] (s.f[fd].pos.toNat + n.toNat) := by
  have hpass : Passes (.get xd fd n) s := passes_of_single (wellFormed_of_count_le rfl hn)
    (List.forall_mem_singleton.2 hd) rfl (checkBounds_eq_none.2 hb)
  obtain ⟨t, hexec, hok, hdone⟩ := exec_completes hpass (hazardFree_of_movement_none rfl)
  refine ⟨t, hexec, hok, hdone, x_of_done hdone rfl, ?_⟩
  rw [hdone.f]
  exact vector_getElem_set_self ..

theorem get_keepsMem {t : State} (h : (effect (.get xd fd n) s).Done s t) : KeepsMem s t :=
  keepsMem_of_done h le_rfl le_rfl

end Get

/-- Settles O33: `X[xd]` is the word of the bits read, and the register is normalised past them. -/
theorem getReadsNextBits : Obligations.GetReadsNextBits := by
  intro s xd fd n hn hd hb
  obtain ⟨t, hexec, hok, hdone, hx, hf⟩ := get_completes (xd := xd) hn hd hb
  obtain ⟨hbits, hzero⟩ := getLsbD_of_bitsRead hx hn
  refine ⟨t, hexec, hok, hbits, hzero, ?_, frame_of_done hdone, get_keepsMem hdone⟩
  rw [hf]
  exact advanced_normalizeAt hd hb

/-! ### Two reads one after the other -/

/-- The same bits, counted from the byte a position lies in (R102). -/
theorem bitsRead_normalised (m : Memory) (base q w : Nat) :
    m.bitsRead (base + q / 8) (q % 8) w = m.bitsRead base q w := by
  refine bitsValue_congr fun k _ => ?_
  have hplace : 8 * (base + q / 8) + (q % 8 + k) = 8 * base + (q + k) := by omega
  rw [Memory.bitRead_abs, Memory.bitRead_abs m base, hplace]

theorem bitsRead_of_keepsMem {s t : State} (h : KeepsMem s t) (base p w : Nat) :
    t.mem.bitsRead base p w = s.mem.bitsRead base p w :=
  bitsValue_congr fun _ _ => congrArg (bitOfByte · _) (h _)

/-- Two bit strings one after the other. -/
theorem bitsRead_add (m : Memory) (base p w w' : Nat) :
    m.bitsRead base p (w + w') = m.bitsRead base p w * 2 ^ w' + m.bitsRead base (p + w) w' := by
  unfold Memory.bitsRead
  rw [bitsValue_append]
  simp only [Nat.add_assoc]

/-- R102: normalising and then normalising further on is normalising once. -/
theorem normalizeAt_normalizeAt {size : MemSize} {r : FieldReg} {p n : Nat} (hd : DescOK size r)
    (hp : p / 8 ≤ r.len.toNat) :
    normalizeAt (normalizeAt r p) ((normalizeAt r p).pos.toNat + n) = normalizeAt r (p + n) := by
  obtain ⟨hbase, hlen, hcap, hpos, hwidth⟩ := normalizeAt_toNat hd hp
  generalize normalizeAt r p = r' at *
  unfold normalizeAt
  rw [hbase, hlen, hcap, hpos, hwidth, FieldReg.mk.injEq]
  refine ⟨?_, ?_, ?_, ?_, rfl⟩
  all_goals
    congr 1
    omega

/-- Settles O37: the second `GET` starts, in the same buffer, where the first one ended. -/
theorem getSplits : Obligations.GetSplits := by
  intro s x1 x2 x3 fd n1 n2 n3 hsum hn hd hb
  have hn1 : n1.toNat ≤ 64 := by omega
  have hn2 : n2.toNat ≤ 64 := by omega
  have hin : (s.f[fd].pos.toNat + n3.toNat + 7) / 8 ≤ s.f[fd].len.toNat := hb
  have hb1 : InBuf s.f[fd] s.f[fd].pos.toNat n1.toNat := by
    unfold InBuf needLen ceil8
    omega
  obtain ⟨t, hexec1, -, hdone1, hx1, hf1⟩ := get_completes (xd := x1) hn1 hd hb1
  obtain ⟨w, hexec3, -, hdone3, hx3, -⟩ := get_completes (xd := x3) hn hd hb
  obtain ⟨hbase, hlen, -, hpos, -⟩ := normalizeAt_toNat hd (p := s.f[fd].pos.toNat + n1.toNat) (by omega)
  have hd2 : DescOK t.memBytes t.f[fd] := by
    rw [hdone1.memBytes, hf1]
    exact descOK_normalizeAt hd hb1
  have hb2 : InBuf t.f[fd] t.f[fd].pos.toNat n2.toNat := by
    unfold InBuf needLen ceil8
    rw [hf1, hlen, hpos]
    omega
  obtain ⟨u, hexec2, -, hdone2, hx2, -⟩ := get_completes (xd := x2) hn2 hd2 hb2
  refine ⟨t, u, w, hexec1, hexec2, hexec3, ?_, ?_⟩
  · rw [hx1, hx2, hx3, hf1, hbase, hpos, toNat_wordOf_bitsRead hn, toNat_wordOf_bitsRead hn1,
      toNat_wordOf_bitsRead hn2, bitsRead_of_keepsMem (get_keepsMem hdone1), bitsRead_normalised, hsum, bitsRead_add]
  · have hu : u.f = t.f.set fd (normalizeAt t.f[fd] (t.f[fd].pos.toNat + n2.toNat)) := hdone2.f
    have ht : t.f = s.f.set fd (normalizeAt s.f[fd] (s.f[fd].pos.toNat + n1.toNat)) := hdone1.f
    have hw : w.f = s.f.set fd (normalizeAt s.f[fd] (s.f[fd].pos.toNat + n3.toNat)) := hdone3.f
    rw [hu, hw, hf1, normalizeAt_normalizeAt hd (by omega), ht, Vector.set_set, hsum, Nat.add_assoc]

/-! ### `RDBITS` -/

/-- Settles O51: the word of the bits read as for `GET`; the cursor moves without a wrap, `n` being within the width
and the buffer. -/
theorem cursorConsumesBits : Obligations.CursorConsumesBits := by
  intro s xd fd n hn hd hw hb
  have hpass : Passes (.rdbits xd fd n) s := passes_of_pair (wellFormed_of_count_le rfl hn)
    (List.forall_mem_singleton.2 hd) rfl (if_neg (Nat.not_lt.2 hw)) (checkBounds_eq_none.2 hb)
  obtain ⟨t, hexec, hok, hdone⟩ := exec_completes hpass (hazardFree_of_movement_none rfl)
  obtain ⟨hbits, hzero⟩ := getLsbD_of_bitsRead (x_of_done (xd := xd) hdone rfl) hn
  have hf : t.f[fd] = { s.f[fd] with pos := wordOf (s.f[fd].pos.toNat + n.toNat)
                                     width := wordOf (s.f[fd].width.toNat - n.toNat) } := by
    rw [hdone.f]
    exact vector_getElem_set_self ..
  have hbound := hd.bound
  have hwidth := s.f[fd].width.isLt
  unfold InBuf needLen ceil8 at hb
  refine ⟨t, hexec, hok, hbits, hzero, ?_, ?_, ?_, ?_, ?_, frame_of_done hdone,
    keepsMem_of_done hdone le_rfl le_rfl⟩
  · rw [hf]
    exact wordOf_of_lt (by omega)
  · rw [hf]
    exact wordOf_of_lt (by omega)
  all_goals rw [hf]

end Sys2Proof.Proofs
end

section
/-! `PUT`, with `GET` as its inverse, and both as shift and mask (spec/41_word_get_put.md R124 to R127). -/

namespace Sys2Proof.Proofs

open Sys2Proof.Machine

/-- An effect without growth touches only what it writes. -/
theorem dst_has_of_touches {e : Effect} (hgrown : e.grown.hi ≤ e.grown.lo) (b : Nat) (h : e.Touches b) :
    e.dst.Has b := by
  obtain h | ⟨hlo, hhi⟩ := h
  · exact h
  · omega

/-- A string of bits is the low bits of a word when it agrees with them bit by bit. -/
theorem bitsRead_eq_of_getLsbD {m : Memory} {base p n : Nat} {v : Word}
    (h : ∀ k < n, m.bitRead base (p + k) = v.getLsbD (n - 1 - k)) : m.bitsRead base p n = v.toNat % 2 ^ n := by
  rw [← bitsValue_of_testBit]
  exact bitsValue_congr fun k hk => (h k hk).trans (BitVec.testBit_toNat v).symm

/-! ### `PUT` -/

section Put
variable {s : State} {fd : FIdx} {xs : XIdx} {n : BitVec 7}

/-- R125: the low bits of the value, and the register normalised past them. -/
theorem put_completes (hn : n.toNat ≤ 64) (hd : DescOK s.memBytes s.f[fd])
    (hb : InBuf s.f[fd] s.f[fd].pos.toNat n.toNat) :
    ∃ t, exec (.put fd xs n) s = .next t ∧ t.status = 0 ∧ (effect (.put fd xs n) s).Done s t ∧
      (∀ k < n.toNat,
        t.mem.bitRead s.f[fd].base.toNat (s.f[fd].pos.toNat + k) = s.x[xs].getLsbD (n.toNat - 1 - k)) ∧
      t.f[fd] = normalizeAt s.f[fd] (s.f[fd].pos.toNat + n.toNat) := by
  have hpass : Passes (.put fd xs n) s := passes_of_single (wellFormed_of_count_le rfl hn)
    (List.forall_mem_singleton.2 hd) rfl (checkBounds_eq_none.2 hb)
  obtain ⟨t, hexec, hok, hdone⟩ := exec_completes hpass (hazardFree_of_movement_none rfl)
  refine ⟨t, hexec, hok, hdone, fun k hk => bitRead_of_done hdone rfl hk, ?_⟩
  rw [hdone.f]
  exact vector_getElem_set_self ..

theorem put_keepsOutside {t : State} (h : (effect (.put fd xs n) s).Done s t) :
    KeepsOutside s t (rangeOf s.f[fd] s.f[fd].pos.toNat n.toNat) :=
  keepsOutside_of_done h (dst_has_of_touches le_rfl)

end Put

/-- Settles O35: the command writes its `n` bits and touches no other, and normalises the register past them. -/
theorem putWritesNextBits : Obligations.PutWritesNextBits := by
  intro s fd xs n hn hd hb
  obtain ⟨t, hexec, hok, hdone, hbits, hf⟩ := put_completes (xs := xs) hn hd hb
  refine ⟨t, hexec, hok, hbits, put_keepsOutside hdone, ?_, frame_of_done hdone⟩
  rw [hf]
  exact advanced_normalizeAt hd hb

/-! ### Shift and mask -/

section ShiftMask

/-- R124: the bytes that hold a field are the bits before it, the field, and the bits after it. -/
theorem readNat_eq_before_field_after (m : Memory) (base p n : Nat) {b k sh : Nat} (hb : b = base + p / 8)
    (hk : 8 * k = p % 8 + n + sh) :
    m.readNat b k = (m.bitsRead b 0 (p % 8) * 2 ^ n + m.bitsRead base p n) * 2 ^ sh + m.bitsRead b (p % 8 + n) sh := by
  rw [Memory.readNat_eq_bitsRead, hk, bitsRead_add, bitsRead_add, Nat.zero_add, Nat.zero_add, hb,
    bitsRead_normalised]

/-- The middle of three numbers side by side. -/
theorem div_mod_middle {a v c n sh : Nat} (hv : v < 2 ^ n) (hc : c < 2 ^ sh) :
    ((a * 2 ^ n + v) * 2 ^ sh + c) / 2 ^ sh % 2 ^ n = v := by
  rw [Nat.add_comm, Nat.add_mul_div_right _ _ (Nat.two_pow_pos sh), Nat.div_eq_of_lt hc, Nat.zero_add, Nat.add_comm,
    Nat.add_mul_mod_self_right, Nat.mod_eq_of_lt hv]

/-- The bits of a range not touched are read as before. -/
theorem bitsRead_of_keepsOutside {s t : State} {r : BitRange} (h : KeepsOutside s t r) {base p w : Nat}
    (hr : 8 * base + p + w ≤ r.lo ∨ r.hi ≤ 8 * base + p) : t.mem.bitsRead base p w = s.mem.bitsRead base p w := by
  refine bitsValue_congr fun k hk => ?_
  rw [Memory.bitRead_abs, Memory.bitRead_abs s.mem]
  refine h.bits _ fun hin => ?_
  obtain ⟨hlo, hhi⟩ := hin
  omega

end ShiftMask

/-- Settles O34: both commands reach the middle one of the three parts of the bytes. -/
theorem getAndPutAreShiftAndMask : Obligations.GetAndPutAreShiftAndMask := by
  intro s xd xs fd n b k sh hn hd hb hbyte hk hsh
  have hbits : 8 * k = s.f[fd].pos.toNat % 8 + n.toNat + sh := by omega
  have hs := readNat_eq_before_field_after s.mem _ _ n.toNat hbyte hbits
  constructor
  · obtain ⟨t, hexec, -, -, hx, -⟩ := get_completes (xd := xd) hn hd hb
    refine ⟨t, hexec, ?_⟩
    rw [hx, toNat_wordOf_bitsRead hn, hs, div_mod_middle (Memory.bitsRead_lt ..) (Memory.bitsRead_lt ..)]
  · obtain ⟨t, hexec, -, hdone, hput, -⟩ := put_completes (xs := xs) hn hd hb
    refine ⟨t, hexec, ?_⟩
    have hkeep := put_keepsOutside hdone
    have hbefore : t.mem.bitsRead b 0 (s.f[fd].pos.toNat % 8) = s.mem.bitsRead b 0 (s.f[fd].pos.toNat % 8) :=
      bitsRead_of_keepsOutside hkeep (.inl (by simp only [rangeOf, absBit]; omega))
    have hafter : t.mem.bitsRead b (s.f[fd].pos.toNat % 8 + n.toNat) sh =
        s.mem.bitsRead b (s.f[fd].pos.toNat % 8 + n.toNat) sh :=
      bitsRead_of_keepsOutside hkeep (.inr (by simp only [rangeOf, absBit]; omega))
    have ht := readNat_eq_before_field_after t.mem _ _ n.toNat hbyte hbits
    rw [hbefore, hafter, bitsRead_eq_of_getLsbD hput] at ht
    rw [ht, hs, div_mod_middle (Memory.bitsRead_lt ..) (Memory.bitsRead_lt ..), Nat.add_mul, Nat.add_mul]
    omega

/-! ### `PUT` and `GET` undo each other -/

section Inverse
variable {s t : State} {fd : FIdx}

theorem setF_restored (s t : State) (fd : FIdx) : (t.setF fd s.f[fd]).f[fd] = s.f[fd] := vector_getElem_set_self ..

/-- The field register put back, the checks are those before. -/
theorem descOK_restored (hsize : t.memBytes = s.memBytes) (hd : DescOK s.memBytes s.f[fd]) :
    DescOK (t.setF fd s.f[fd]).memBytes (t.setF fd s.f[fd]).f[fd] := by
  rw [setF_restored, State.setF_memBytes, hsize]
  exact hd

theorem inBuf_restored {n : Nat} (hb : InBuf s.f[fd] s.f[fd].pos.toNat n) :
    InBuf (t.setF fd s.f[fd]).f[fd] (t.setF fd s.f[fd]).f[fd].pos.toNat n := by
  rw [setF_restored]
  exact hb

end Inverse

/-- R127 (a). -/
theorem get_after_put {s : State} {xd xs : XIdx} {fd : FIdx} {n : BitVec 7} (hn : n.toNat ≤ 64)
    (hd : DescOK s.memBytes s.f[fd]) (hb : InBuf s.f[fd] s.f[fd].pos.toNat n.toNat) :
    ∃ t u, exec (.put fd xs n) s = .next t ∧ exec (.get xd fd n) (t.setF fd s.f[fd]) = .next u ∧
      u.x[xd].toNat = s.x[xs].toNat % 2 ^ n.toNat := by
  obtain ⟨t, hexec, -, hdone, hput, -⟩ := put_completes (xs := xs) hn hd hb
  obtain ⟨u, hexec', -, -, hx, -⟩ :=
    get_completes (xd := xd) hn (descOK_restored hdone.memBytes hd) (inBuf_restored (t := t) hb)
  refine ⟨t, u, hexec, hexec', ?_⟩
  rw [hx, toNat_wordOf_bitsRead hn, setF_restored, State.setF_mem, bitsRead_eq_of_getLsbD hput]

/-- R127 (b): the bits of the field are written with what they were, and no other bit is written. -/
theorem put_after_get {s : State} {xd : XIdx} {fd : FIdx} {n : BitVec 7} (hn : n.toNat ≤ 64)
    (hd : DescOK s.memBytes s.f[fd]) (hb : InBuf s.f[fd] s.f[fd].pos.toNat n.toNat) :
    ∃ t u, exec (.get xd fd n) s = .next t ∧ exec (.put fd xd n) (t.setF fd s.f[fd]) = .next u ∧ KeepsMem s u := by
  obtain ⟨t, hexec, -, hdone, hx, -⟩ := get_completes (xd := xd) hn hd hb
  obtain ⟨u, hexec', -, hdone', hput, -⟩ :=
    put_completes (xs := xd) hn (descOK_restored hdone.memBytes hd) (inBuf_restored (t := t) hb)
  refine ⟨t, u, hexec, hexec', fun a => Memory.read_eq_of_bits fun j _ => ?_⟩
  have hkeep := put_keepsOutside hdone'
  obtain ⟨hbits, -⟩ := getLsbD_of_bitsRead hx hn
  rw [setF_restored] at hput hkeep
  by_cases hin : (rangeOf s.f[fd] s.f[fd].pos.toNat n.toNat).Has (8 * a + j)
  · obtain ⟨hlo, hhi⟩ := has_rangeOf_iff.1 hin
    obtain ⟨k, hk, hpos⟩ : ∃ k < n.toNat, 8 * a + j = 8 * s.f[fd].base.toNat + (s.f[fd].pos.toNat + k) :=
      ⟨8 * a + j - (8 * s.f[fd].base.toNat + s.f[fd].pos.toNat), by omega, by omega⟩
    rw [hpos, ← Memory.bitRead_abs, ← Memory.bitRead_abs, hput k hk, State.setF_x, hbits k hk]
    rfl
  · have hmem := get_keepsMem hdone
    rw [hkeep.bits _ hin, State.setF_mem, Memory.bitRead, Memory.bitRead, hmem]

/-- Settles O36: each command reaches the bits the other one did, the register being put back. -/
theorem putAndGetAreInverse : Obligations.PutAndGetAreInverse := by
  intro s xd fd xs n hn hd hb
  exact ⟨get_after_put hn hd hb, put_after_get hn hd hb⟩

end Sys2Proof.Proofs
end

section
/-! `EXT2` and `ROTL`: bytes put together from two neighbouring bytes (spec/42_concat_extract.md, spec/44_rotate.md). -/

namespace Sys2Proof.Proofs

open Sys2Proof.Machine

/-! ### A byte at a sub-byte offset -/

/-- R142, R185: bit `k` of the byte that starts `sh` bits into the first of two bytes. -/
theorem bitOfByte_spanning (a b : Byte) {sh k : Nat} (hsh : sh < 8) (hk : k < 8) :
    bitOfByte (if sh = 0 then a else a <<< sh ||| b >>> (8 - sh)) k =
      if k + sh < 8 then bitOfByte a (k + sh) else bitOfByte b (k + sh - 8) := by
  by_cases h0 : sh = 0
  · subst h0
    rw [if_pos rfl, if_pos (by omega), Nat.add_zero]
  · rw [if_neg h0, bitOfByte_shift_or a b (by omega) hsh hk]

/-! ### `EXT2` -/

section Extract
variable {s : State} {fd fa fb : FIdx} {c : Nat → Byte}

/-- R141: the bytes of the concatenation are those of the first buffer and then those of the second. -/
theorem concatByte_eq {m : Memory} {x y : FieldReg} (hx : ∀ i < x.len.toNat, c i = m.read (x.base.toNat + i))
    (hy : ∀ i < y.len.toNat, c (x.len.toNat + i) = m.read (y.base.toNat + i)) {i : Nat}
    (hi : i < x.len.toNat + y.len.toNat) : concatByte m x y i = c i := by
  unfold concatByte
  split
  · next h => exact (hx i h).symm
  · have h := hy (i - x.len.toNat) (by omega)
    rw [show x.len.toNat + (i - x.len.toNat) = i by omega] at h
    exact h.symm

theorem passes_ext2 (hd : DescOK s.memBytes s.f[fd]) (ha : DescOK s.memBytes s.f[fa]) (hb : DescOK s.memBytes s.f[fb])
    (h : s.f[fa].pos.toNat + 8 * s.f[fd].len.toNat ≤ 8 * (s.f[fa].len.toNat + s.f[fb].len.toNat)) :
    Passes (.ext2 fd fa fb) s :=
  passes_of_single (wellFormed_of_count_none rfl) (desc_triple hd ha hb) rfl (faultIf_eq_none.2 (Nat.not_lt.2 h))

end Extract

/-- Settles O38: bit `k` of byte `j` is bit `off + 8 * j + k` of the concatenation, in one of two neighbouring bytes. -/
theorem extractAssemblesBytes : Obligations.ExtractAssemblesBytes := by
  intro s fd fa fb hd ha hb hlen hfree c hca hcb
  obtain ⟨t, hexec, hok, hdone⟩ := exec_completes (passes_ext2 hd ha hb hlen) hfree
  refine ⟨t, hexec, hok, fun j hj => ?_, keepsOutside_of_done hdone (dst_has_of_touches le_rfl), frame_of_done hdone⟩
  refine read_of_done hdone rfl hj fun k hk => ?_
  rw [bitOfByte_spanning _ _ (Nat.mod_lt _ (by decide)) hk]
  show bitOfByte (concatByte s.mem s.f[fa] s.f[fb] ((s.f[fa].pos.toNat + (8 * j + k)) / 8))
    ((s.f[fa].pos.toNat + (8 * j + k)) % 8) = _
  rw [concatByte_eq hca hcb (by omega)]
  split
  · congr 1
    · congr 1
      omega
    · omega
  · congr 1
    · congr 1
      omega
    · omega

/-! ### `ROTL` -/

section Rotate
variable {s t : State} {fd fa : FIdx} {xs : XIdx}

theorem passes_rotl (hd : DescOK s.memBytes s.f[fd]) (ha : DescOK s.memBytes s.f[fa])
    (hcap : s.f[fa].len.toNat ≤ s.f[fd].cap.toNat) : Passes (.rotl fd fa xs) s :=
  passes_of_single (wellFormed_of_count_none rfl) (desc_pair hd ha) rfl (growPlan_eq_none.2 (.inl hcap))

/-- R182: bit `p` of the rotated buffer. -/
theorem rotl_bit (h : (effect (.rotl fd fa xs) s).Done s t) {p : Nat} (hp : p < 8 * s.f[fa].len.toNat) :
    t.mem.bitRead s.f[fd].base.toNat p =
      bitAt s fa ((p + reducedAmount s.x[xs] (8 * s.f[fa].len.toNat)) % (8 * s.f[fa].len.toNat)) := by
  have hbit := bitRead_of_done (r := s.f[fd]) h rfl hp
  rw [Nat.zero_add] at hbit
  exact hbit

theorem rotl_f (h : (effect (.rotl fd fa xs) s).Done s t) :
    t.f = s.f.set fd { s.f[fd] with len := s.f[fa].len } := h.f

/-- Growth and a store from byte 0 touch no byte above the length grown to. -/
theorem has_range_of_touches_from_zero {e : Effect} {r : FieldReg} {n : Nat} (hdst : e.dst = rangeOf r 0 (8 * n))
    (hgrown : e.grown = grownRange r n) (b : Nat) (h : e.Touches b) : (rangeOf r 0 (8 * n)).Has b := by
  obtain h | h := h
  · rw [← hdst]
    exact h
  · rw [hgrown] at h
    obtain ⟨hlo, hhi⟩ := h
    simp only [grownRange] at hlo hhi
    exact has_rangeOf_iff.2 (by omega)

/-- R185: a bit `r` bits on, around a buffer of `n` bytes, by its byte and its place in it. -/
theorem rotated_place {n : Nat} (j k r : Nat) (hk : k < 8) :
    (8 * j + k + r) % (8 * n) / 8 = (if k + r % 8 < 8 then j + r / 8 else j + r / 8 + 1) % n ∧
      (8 * j + k + r) % (8 * n) % 8 = if k + r % 8 < 8 then k + r % 8 else k + r % 8 - 8 := by
  rw [Nat.mod_mul_right_div_self, Nat.mod_mul_right_mod]
  split
  · exact ⟨by congr 1; omega, by omega⟩
  · exact ⟨by congr 1; omega, by omega⟩

end Rotate

/-- Settles O45: bit `k` of byte `j` lies `r` bits on in the source, in one of two neighbouring bytes. -/
theorem rotateSelectsBytes : Obligations.RotateSelectsBytes := by
  rintro s fd fa xs n r rfl hr hd ha hcap hfree
  obtain ⟨t, hexec, hok, hdone⟩ := exec_completes (passes_rotl hd ha hcap) hfree
  refine ⟨t, hexec, hok, fun j hj => ?_, ?_,
    keepsOutside_of_done hdone (has_range_of_touches_from_zero rfl rfl), frame_of_done hdone⟩
  · obtain ⟨hlt, hdvd⟩ := hr (by omega)
    refine read_of_done hdone rfl hj fun k hk => ?_
    rw [bitOfByte_spanning _ _ (Nat.mod_lt _ (by decide)) hk]
    show bitAt s fa ((8 * j + k + reducedAmount s.x[xs] (8 * s.f[fa].len.toNat)) % (8 * s.f[fa].len.toNat)) = _
    obtain ⟨hbyte, hplace⟩ := rotated_place (n := s.f[fa].len.toNat) j k r hk
    rw [reducedAmount_eq hlt hdvd, bitAt, Memory.bitRead, hbyte, hplace]
    split
    · rfl
    · rfl
  · rw [rotl_f hdone]
    exact vector_getElem_set_self ..

/-- R186: two rotations around a length move a place as one rotation by the sum does. -/
theorem rotated_twice {T : Nat} (hT : 0 < T) {v1 v2 v3 : Word} (h : v3.toInt = v1.toInt + v2.toInt) (p : Nat) :
    ((p + reducedAmount v2 T) % T + reducedAmount v1 T) % T = (p + reducedAmount v3 T) % T := by
  have hnat (v : Word) : ((reducedAmount v T : Nat) : Int) = v.toInt % T :=
    Int.toNat_of_nonneg (Int.emod_nonneg _ (by omega))
  have hint : ((((p + reducedAmount v2 T) % T + reducedAmount v1 T) % T : Nat) : Int) =
      ((p + reducedAmount v3 T) % T : Nat) := by
    push_cast
    rw [hnat, hnat, hnat, h, Int.emod_add_emod, Int.add_emod_emod, Int.add_emod_emod, Int.add_right_comm,
      Int.add_emod_emod]
    congr 1
    ring
  exact_mod_cast hint

/-- A hazard-free command that ends `OK` has done its effect. -/
theorem done_of_ok {i : Instr} {s t : State} (h : exec i s = .next t) (hok : t.status = 0) (hfree : HazardFree i s) :
    Passes i s ∧ (effect i s).Done s t := by
  obtain ⟨hpass, g, hdone, rfl⟩ := exec_ok h hok
  rw [settle_of_free hfree]
  exact ⟨hpass, hdone.finish⟩

/-- Settles O46: bit by bit, the place in the first buffer is the same. -/
theorem rotationsCompose : Obligations.RotationsCompose := by
  intro s t u v fa fb fc fd x1 x2 x3 hab hbc hx ht htok htfree hu huok hufree hv hvok hvfree j hj
  obtain ⟨-, hdone1⟩ := done_of_ok ht htok htfree
  obtain ⟨-, hdone2⟩ := done_of_ok hu huok hufree
  obtain ⟨-, hdone3⟩ := done_of_ok hv hvok hvfree
  have hf1 := rotl_f hdone1
  have hb : t.f[fb] = { s.f[fb] with len := s.f[fa].len } := by
    rw [hf1]
    exact vector_getElem_set_self ..
  have hc : t.f[fc] = s.f[fc] := by
    rw [hf1]
    exact vector_getElem_set_of_ne _ _ hbc.symm
  have hlen : t.f[fb].len = s.f[fa].len := by rw [hb]
  have hbase : t.f[fb].base = s.f[fb].base := by rw [hb]
  have hxt : t.x = s.x := hdone1.x
  refine byte_ext fun k hk => ?_
  have h2 := rotl_bit hdone2 (p := 8 * j + k) (by rw [hlen]; omega)
  have h3 := rotl_bit hdone3 (p := 8 * j + k) (by omega)
  have hpos : 0 < 8 * s.f[fa].len.toNat := by omega
  rw [hlen, hc, bitAt, hbase, rotl_bit hdone1 (Nat.mod_lt _ hpos), hxt, rotated_twice hpos hx, ← h3, Memory.bitRead,
    Memory.bitRead, show (8 * j + k) / 8 = j by omega, show (8 * j + k) % 8 = k by omega] at h2
  exact h2

end Sys2Proof.Proofs
end

section
/-! `BITS`, the fixed-width writes and `SETBITS` (spec/43_field_access.md R151 to R167). -/

namespace Sys2Proof.Proofs

open Sys2Proof.Machine

/-! ### `BITS` -/

section Bits
variable {s : State} {fd fa : FIdx} {al : Align}

theorem passes_bits (hd : DescOK s.memBytes s.f[fd]) (ha : DescOK s.memBytes s.f[fa])
    (hb : InBuf s.f[fa] s.f[fa].pos.toNat s.f[fa].width.toNat)
    (hcap : ceil8 s.f[fa].width.toNat ≤ s.f[fd].cap.toNat) : Passes (.bits fd fa al) s := by
  refine passes_of_pair (wellFormed_of_count_none rfl) (desc_pair hd ha) rfl (checkBounds_eq_none.2 hb) ?_
  rw [growPlan_eq_none.2 (.inl hcap), ite_self]

/-- R157: the representation, bit by bit. -/
theorem bits_bit {t : State} (h : (effect (.bits fd fa al) s).Done s t) {k : Nat}
    (hk : k < 8 * ceil8 s.f[fa].width.toNat) : t.mem.bitRead s.f[fd].base.toNat k = reprBit s fa al k := by
  have hbit := bitRead_of_done (r := s.f[fd]) h rfl hk
  rw [Nat.zero_add] at hbit
  exact hbit

theorem bits_keepsOutside {t : State} (h : (effect (.bits fd fa al) s).Done s t) :
    KeepsOutside s t (rangeOf s.f[fd] 0 (8 * ceil8 s.f[fa].width.toNat)) :=
  keepsOutside_of_done h (has_range_of_touches_from_zero rfl rfl)

end Bits

/-- Settles O41: the bits written are those of `reprBit`, which places the padding on the side `align` says. -/
theorem bitsWritesRepresentation : Obligations.BitsWritesRepresentation := by
  rintro s fd fa al w n rfl rfl hd ha hb hcap hfree
  obtain ⟨t, hexec, hok, hdone⟩ := exec_completes (passes_bits hd ha hb hcap) hfree
  refine ⟨t, hexec, hok, fun k hk => ?_, grown_of_done hdone rfl hd hcap, bits_keepsOutside hdone,
    frame_of_done hdone⟩
  rw [bits_bit hdone hk]
  cases al with
  | left => rfl
  | right => rfl

/-! ### Writes of a fixed width -/

/-- R160 to R164: writing `w` bits at the position, for every command that does no more. -/
theorem setUint_completes {i : Instr} {s : State} {fd : FIdx} {xs : XIdx} {w : Nat} (hcount : i.count? = none)
    (hnamed : named i = [fd]) (hown : ownChecks i s = [growPlan s.f[fd] (needLen s.f[fd].pos.toNat w)])
    (heffect : effect i s = setUintEffect s fd xs w) (hmove : movement i s = none) (hx : writesX i = [])
    (hf : writesF i = [(fd, [.len])]) (hd : DescOK s.memBytes s.f[fd])
    (hcap : needLen s.f[fd].pos.toNat w ≤ s.f[fd].cap.toNat) :
    ∃ t, exec i s = .next t ∧ t.status = 0 ∧
      (∀ b, t.mem.bitRead 0 b =
        if (rangeOf s.f[fd] s.f[fd].pos.toNat w).Has b
        then s.x[xs].getLsbD (w - 1 - (b - absBit s.f[fd] s.f[fd].pos.toNat))
        else if (grownRange s.f[fd] (needLen s.f[fd].pos.toNat w)).Has b then false else s.mem.bitRead 0 b) ∧
      (∀ a, 8 * a + 8 ≤ absBit s.f[fd] s.f[fd].pos.toNat ∨ absBit s.f[fd] s.f[fd].pos.toNat + w ≤ 8 * a →
        t.mem.read a = if s.f[fd].base.toNat + s.f[fd].len.toNat ≤ a ∧
          a < s.f[fd].base.toNat + needLen s.f[fd].pos.toNat w then 0 else s.mem.read a) ∧
      Grown s.f[fd] t.f[fd] (needLen s.f[fd].pos.toNat w) ∧ Frame s t [] [fd] := by
  have hpass : Passes i s := passes_of_single (wellFormed_of_count_none hcount)
    (hnamed ▸ List.forall_mem_singleton.2 hd) hown (growPlan_eq_none.2 (.inl hcap))
  obtain ⟨t, hexec, hok, hdone⟩ := exec_completes hpass (hazardFree_of_movement_none hmove)
  have hframe := frame_of_done hdone
  rw [hx, hf] at hframe
  rw [heffect] at hdone
  refine ⟨t, hexec, hok, hdone.bit, fun a ha => read_of_done_outside_dst hdone rfl fun k hk hin => ?_,
    grown_of_done hdone rfl hd hcap, hframe⟩
  obtain ⟨hlo, hhi⟩ := has_rangeOf_iff.1 hin
  simp only [absBit] at ha
  omega

/-- Settles O42: the five commands differ in the width alone. -/
theorem setUintWritesFixedWidth : Obligations.SetUintWritesFixedWidth := by
  rintro s fd xs o rfl hd
  simp only [List.forall_mem_cons]
  exact ⟨setUint_completes rfl rfl rfl rfl rfl rfl rfl hd, setUint_completes rfl rfl rfl rfl rfl rfl rfl hd,
    setUint_completes rfl rfl rfl rfl rfl rfl rfl hd, setUint_completes rfl rfl rfl rfl rfl rfl rfl hd,
    setUint_completes rfl rfl rfl rfl rfl rfl rfl hd, List.forall_mem_nil _⟩

/-! ### `SETBITS` -/

section SetBits
variable {s : State} {fd fa : FIdx} {al : Align}

theorem passes_setbits (hd : DescOK s.memBytes s.f[fd]) (ha : DescOK s.memBytes s.f[fa])
    (hlen : ceil8 s.f[fd].width.toNat ≤ s.f[fa].len.toNat)
    (hcap : needLen s.f[fd].pos.toNat s.f[fd].width.toNat ≤ s.f[fd].cap.toNat) : Passes (.setbits fd fa al) s :=
  passes_of_pair (wellFormed_of_count_none rfl) (desc_pair hd ha) rfl (faultIf_eq_none.2 (Nat.not_lt.2 hlen))
    (growPlan_eq_none.2 (.inl hcap))

end SetBits

/-- Settles O43: the bits written are those of `unreprBit`, the field within the representation. -/
theorem setBitsWritesField : Obligations.SetBitsWritesField := by
  rintro s fd fa al o w n rfl rfl rfl hd ha hlen hcap hfree
  obtain ⟨t, hexec, hok, hdone⟩ := exec_completes (passes_setbits hd ha hlen hcap) hfree
  refine ⟨t, hexec, hok, fun b => ?_, fun a ha => read_of_done_outside_dst hdone rfl fun k hk hin => ?_,
    grown_of_done hdone rfl hd hcap, frame_of_done hdone⟩
  · refine (hdone.bit b).trans ?_
    cases al with
    | left => rfl
    | right => rfl
  · obtain ⟨hlo, hhi⟩ := has_rangeOf_iff.1 hin
    simp only [absBit] at ha
    omega

/-! ### The round trip -/

section RoundTrip
variable {s : State} {f1 : FIdx} {al : Align} {w k : Nat}

/-- R167 (a): where the field stands in its representation. -/
def reprStart (al : Align) (w : Nat) : Nat :=
  match al with
  | .left => 0
  | .right => 8 * ceil8 w - w

theorem reprStart_add_le (al : Align) (w : Nat) : reprStart al w + w ≤ 8 * ceil8 w := by
  have hle : w ≤ 8 * ceil8 w := by unfold ceil8; omega
  cases al with
  | left => exact (Nat.zero_add w).symm ▸ hle
  | right => exact (Nat.sub_add_cancel hle).le

theorem unreprBit_eq (s : State) (fa : FIdx) (al : Align) (w k : Nat) :
    unreprBit s fa al w k = bitAt s fa (reprStart al w + k) := by
  cases al with
  | left => exact congrArg (bitAt s fa) (Nat.zero_add k).symm
  | right => rfl

/-- The representation holds bit `k` of the field at the place `SETBITS` looks for it. -/
theorem reprBit_reprStart_add (hw : w = s.f[f1].width.toNat) (hk : k < w) :
    reprBit s f1 al (reprStart al w + k) = fieldBit s f1 k := by
  subst hw
  cases al with
  | left =>
    have hstart : reprStart .left s.f[f1].width.toNat + k = k := Nat.zero_add k
    rw [hstart]
    exact if_pos hk
  | right =>
    have hpad : ¬ reprStart .right s.f[f1].width.toNat + k < 8 * ceil8 s.f[f1].width.toNat - s.f[f1].width.toNat :=
      Nat.not_lt.2 (Nat.le_add_right ..)
    have hsub : reprStart .right s.f[f1].width.toNat + k - (8 * ceil8 s.f[f1].width.toNat - s.f[f1].width.toNat) = k :=
      Nat.add_sub_cancel_left ..
    refine (if_neg hpad).trans ?_
    rw [hsub]

end RoundTrip

section Reinsert
variable {s t : State} {fd fa : FIdx} {al : Align}

/-- R290: a source and a destination in buffers apart have no bit in common. -/
theorem setbits_hazardFree (hneed : needLen s.f[fd].pos.toNat s.f[fd].width.toNat ≤ s.f[fd].len.toNat)
    (hdisj : s.f[fa].base.toNat + ceil8 s.f[fd].width.toNat ≤ s.f[fd].base.toNat ∨
      s.f[fd].base.toNat + s.f[fd].len.toNat ≤ s.f[fa].base.toNat) : HazardFree (.setbits fd fa al) s := by
  have hstart := reprStart_add_le al s.f[fd].width.toNat
  have hsrc : (if al = .left then 0 else 8 * ceil8 s.f[fd].width.toNat - s.f[fd].width.toNat) =
      reprStart al s.f[fd].width.toNat := by cases al <;> rfl
  have hgrown := grownRange_of_le hneed
  unfold needLen at hneed
  unfold ceil8 at hneed
  rintro v ⟨⟩
  refine List.forall_mem_singleton.2 (.inr ⟨?_, ?_⟩)
  · simp only [BitRange.Overlaps, rangeOf, absBit, hsrc]
    omega
  · simp only [BitRange.Overlaps]
    omega

/-- R165: the field, bit by bit. -/
theorem setbits_bit (h : (effect (.setbits fd fa al) s).Done s t) {k : Nat} (hk : k < s.f[fd].width.toNat) :
    t.mem.bitRead s.f[fd].base.toNat (s.f[fd].pos.toNat + k) =
      bitAt s fa (reprStart al s.f[fd].width.toNat + k) := by
  rw [← unreprBit_eq]
  exact bitRead_of_done h rfl hk

theorem setbits_keepsOutside (h : (effect (.setbits fd fa al) s).Done s t)
    (hneed : needLen s.f[fd].pos.toNat s.f[fd].width.toNat ≤ s.f[fd].len.toNat) :
    KeepsOutside s t (rangeOf s.f[fd] s.f[fd].pos.toNat s.f[fd].width.toNat) :=
  keepsOutside_of_done h (dst_has_of_touches (grownRange_of_le hneed))

/-- R167 (a): a field that `BITS` extracted is read back by `SETBITS` of the same width. -/
theorem setbits_bit_after_bits {u : State} {f0 f1 f2 : FIdx} (h : (effect (.bits f0 f1 al) s).Done s t)
    (h' : (effect (.setbits f2 f0 al) t).Done t u) (hbase : t.f[f0].base = s.f[f0].base)
    (hwidth : t.f[f2].width = s.f[f1].width) {k : Nat} (hk : k < s.f[f1].width.toNat) :
    u.mem.bitRead t.f[f2].base.toNat (t.f[f2].pos.toNat + k) = fieldBit s f1 k := by
  have hstart := reprStart_add_le al s.f[f1].width.toNat
  rw [setbits_bit h' (hwidth ▸ hk), hwidth, bitAt, hbase, bits_bit h (by omega), reprBit_reprStart_add rfl hk]

theorem descOK_of_grown {size : MemSize} {r r' : FieldReg} {need : Nat} (hd : DescOK size r) (hg : Grown r r' need)
    (h : need ≤ r.cap.toNat) : DescOK size r' := by
  have hlen := hg.len
  have hle := hd.1
  rw [DescOK, hg.base, hg.cap]
  exact ⟨by omega, hd.2⟩

end Reinsert

/-- Settles O44: the second command reads back what the first wrote, and reaches nothing else of the buffer. -/
theorem extractThenReinsertIsIdentity : Obligations.ExtractThenReinsertIsIdentity := by
  intro s f0 f1 f2 al h01 h02 hd0 hd1 hd2 hw hb hcap hlen hpos hwidth hdisj hsame hfree
  obtain ⟨t, hexec, -, hdone⟩ := exec_completes (passes_bits (al := al) hd0 hd1 hb hcap) hfree
  have hgrown : Grown s.f[f0] t.f[f0] (ceil8 s.f[f1].width.toNat) := grown_of_done hdone rfl hd0 hcap
  have hf2 : t.f[f2] = s.f[f2] := by
    rw [hdone.f]
    exact vector_getElem_set_of_ne _ _ h02.symm
  have hneed : needLen t.f[f2].pos.toNat t.f[f2].width.toNat ≤ t.f[f2].len.toNat := by
    rw [hf2, hpos, hwidth, hlen]
    exact hb
  have hd0' : DescOK t.memBytes t.f[f0] := hdone.memBytes ▸ descOK_of_grown hd0 hgrown hcap
  have hd2' : DescOK t.memBytes t.f[f2] := by
    rw [hf2, hdone.memBytes]
    exact hd2
  have hbytes : ceil8 t.f[f2].width.toNat ≤ t.f[f0].len.toNat := by
    rw [hf2, hwidth, hgrown.len]
    exact le_max_right ..
  have hfree' : HazardFree (.setbits f2 f0 al) t := by
    refine setbits_hazardFree hneed ?_
    rw [hf2, hwidth, hgrown.base]
    exact hdisj
  obtain ⟨u, hexec', hok, hdone'⟩ :=
    exec_completes (passes_setbits hd2' hd0' hbytes (hneed.trans hd2'.1)) hfree'
  refine ⟨t, u, hexec, hexec', hok, fun j hj => byte_ext fun k hk => ?_⟩
  have hkeep := setbits_keepsOutside hdone' hneed
  have hbit : u.mem.bitRead s.f[f2].base.toNat (8 * j + k) = bitAt s f1 (8 * j + k) := by
    by_cases hfield : s.f[f1].pos.toNat ≤ 8 * j + k ∧ 8 * j + k < s.f[f1].pos.toNat + s.f[f1].width.toNat
    · obtain ⟨i, hi, hki⟩ : ∃ i < s.f[f1].width.toNat, 8 * j + k = s.f[f1].pos.toNat + i :=
        ⟨8 * j + k - s.f[f1].pos.toNat, by omega, by omega⟩
      have hset := setbits_bit_after_bits hdone hdone' hgrown.base (by rw [hf2, hwidth]) hi
      rw [hf2, hpos] at hset
      rw [hki, hset]
      rfl
    · rw [← hsame _ (by omega) hfield, bitAt, Memory.bitRead_abs, Memory.bitRead_abs s.mem]
      rw [hf2] at hkeep
      have hout2 : ¬ (rangeOf s.f[f2] s.f[f2].pos.toNat s.f[f2].width.toNat).Has
          (8 * s.f[f2].base.toNat + (8 * j + k)) := by
        rw [has_rangeOf_iff, hpos, hwidth]
        omega
      have hout0 : ¬ (rangeOf s.f[f0] 0 (8 * ceil8 s.f[f1].width.toNat)).Has
          (8 * s.f[f2].base.toNat + (8 * j + k)) := by
        have hlen2 : s.f[f2].len.toNat = s.f[f1].len.toNat := by rw [hlen]
        rw [has_rangeOf_iff]
        unfold ceil8
        omega
      rw [hkeep.bits _ hout2, (bits_keepsOutside hdone).bits _ hout0]
  rw [Memory.bitRead, bitAt, Memory.bitRead, show (8 * j + k) / 8 = j by omega,
    show (8 * j + k) % 8 = k by omega] at hbit
  exact hbit

end Sys2Proof.Proofs
end

section
/-! `LZ`, `TZ`, `ONES` (spec/45_counts.md) and `FCOUNT` (spec/46_field_cursor.md R214). -/

namespace Sys2Proof.Proofs

open Sys2Proof.Machine

/-! ### Counting -/

/-- The number of 1 bits is the number of positions that hold one. -/
theorem countOnes_eq_countP (g : Nat → Bool) (n : Nat) : countOnes g n = (List.range n).countP g := by
  induction n with
  | zero => rfl
  | succ n ih =>
    rw [countOnes, ih, List.range_succ, List.countP_append, List.countP_singleton]
    cases g n <;> rfl

theorem countOnes_eq_card (g : Nat → Bool) (n : Nat) : countOnes g n = ((Finset.range n).filter (g · = true)).card := by
  induction n with
  | zero => rfl
  | succ n ih =>
    rw [countOnes, ih, Finset.range_add_one, Finset.filter_insert]
    cases hg : g n with
    | false => simp
    | true => simp

theorem countOnes_add_countOnes_not (g : Nat → Bool) (n : Nat) : countOnes g n + countOnes (fun k => !g k) n = n := by
  induction n with
  | zero => rfl
  | succ n ih =>
    rw [countOnes, countOnes]
    cases g n with
    | false => simp only [Bool.toNat_false, Bool.not_false, Bool.toNat_true]; omega
    | true => simp only [Bool.toNat_false, Bool.not_true, Bool.toNat_true]; omega

/-- A number of bits of a buffer fits a word. -/
theorem toNat_wordOf_le_bits {size : MemSize} {r : FieldReg} (hd : DescOK size r) {n : Nat}
    (h : n ≤ 8 * r.len.toNat) : (wordOf n).toNat = n := by
  have hb := hd.bound
  exact wordOf_of_lt (by omega)

/-! ### A command that counts in one buffer -/

section Counts
variable {s : State} {xd : XIdx} {fa : FIdx}

/-- A command without checks of its own, whose result is a number of at most `8 * len`. -/
theorem count_completes {i : Instr} {n : Nat} (hcount : i.count? = none) (hnamed : named i = [fa])
    (hown : ownChecks i s = []) (heffect : effect i s = scalarEffect s xd n) (hmove : movement i s = none)
    (hx : writesX i = [xd]) (hf : writesF i = []) (hd : DescOK s.memBytes s.f[fa])
    (hn : n ≤ 8 * s.f[fa].len.toNat) :
    ∃ t, exec i s = .next t ∧ t.status = 0 ∧ t.x[xd].toNat = n ∧ Frame s t [xd] [] ∧ KeepsMem s t := by
  have hpass : Passes i s :=
    ⟨wellFormed_of_count_none hcount, hnamed ▸ List.forall_mem_singleton.2 hd, by rw [hown]; rfl⟩
  obtain ⟨t, hexec, hok, hdone⟩ := exec_completes hpass (hazardFree_of_movement_none hmove)
  have hframe := frame_of_done hdone
  have hval : t.x[xd] = wordOf n := x_of_done hdone (by rw [heffect]; rfl)
  rw [hx, hf] at hframe
  rw [heffect] at hdone
  refine ⟨t, hexec, hok, ?_, hframe, keepsMem_of_done hdone le_rfl le_rfl⟩
  rw [hval, toNat_wordOf_le_bits hd hn]

/-- R191. -/
theorem lz_completes (hd : DescOK s.memBytes s.f[fa]) :
    ∃ t, exec (.lz xd fa) s = .next t ∧ t.status = 0 ∧
      t.x[xd].toNat = zerosFrom (bitAt s fa) (8 * s.f[fa].len.toNat) 0 ∧ Frame s t [xd] [] ∧ KeepsMem s t :=
  count_completes rfl rfl rfl rfl rfl rfl rfl hd (zerosFrom_le ..)

/-- R192. -/
theorem tz_completes (hd : DescOK s.memBytes s.f[fa]) :
    ∃ t, exec (.tz xd fa) s = .next t ∧ t.status = 0 ∧
      t.x[xd].toNat = zerosFrom (fun k => bitAt s fa (8 * s.f[fa].len.toNat - 1 - k)) (8 * s.f[fa].len.toNat) 0 ∧
      Frame s t [xd] [] ∧ KeepsMem s t :=
  count_completes rfl rfl rfl rfl rfl rfl rfl hd (zerosFrom_le ..)

/-- R193. -/
theorem ones_completes (hd : DescOK s.memBytes s.f[fa]) :
    ∃ t, exec (.ones xd fa) s = .next t ∧ t.status = 0 ∧
      t.x[xd].toNat = countOnes (bitAt s fa) (8 * s.f[fa].len.toNat) ∧ Frame s t [xd] [] ∧ KeepsMem s t :=
  count_completes rfl rfl rfl rfl rfl rfl rfl hd (countOnes_le ..)

end Counts

/-! ### Runs of zeros -/

section Runs
variable {g : Nat → Bool} {T : Nat}

/-- R191: the count from the start, from what `zerosFrom` does. -/
theorem leading_zeros_spec (g : Nat → Bool) (T : Nat) :
    zerosFrom g T 0 ≤ T ∧ (∀ p < zerosFrom g T 0, g p = false) ∧
      (zerosFrom g T 0 < T → g (zerosFrom g T 0) = true) := by
  refine ⟨zerosFrom_le .., fun p hp => ?_, fun h => ?_⟩
  · have hzero := zerosFrom_before g T 0 p hp
    rwa [Nat.zero_add] at hzero
  · have hone := zerosFrom_at g T 0 h
    rwa [Nat.zero_add] at hone

/-- R192: the count from the end is the count from the start of the bits in reverse. -/
theorem trailing_zeros_spec (g : Nat → Bool) (T : Nat) :
    let c := zerosFrom (fun k => g (T - 1 - k)) T 0
    c ≤ T ∧ (∀ p < T, T ≤ p + c → g p = false) ∧ (c < T → g (T - 1 - c) = true) := by
  intro c
  obtain ⟨hle, hbefore, hat⟩ := leading_zeros_spec (fun k => g (T - 1 - k)) T
  refine ⟨hle, fun p hp hc => ?_, hat⟩
  have hzero := hbefore (T - 1 - p) (by omega)
  rwa [show T - 1 - (T - 1 - p) = p by omega] at hzero

/-- R194: the first and the last 1 of a string of bits, between which all its 1 bits lie. -/
theorem zero_runs_le_of_exists (hex : ∃ p < T, g p = true) {a b : Nat} (ha : ∀ p < a, g p = false) (haT : a ≤ T)
    (haone : a < T → g a = true) (hb : ∀ p < T, T ≤ p + b → g p = false) (hbT : b ≤ T)
    (hbone : b < T → g (T - 1 - b) = true) : a + b ≤ T - 1 ∧ (a + b = T - 1 ↔ countOnes g T = 1) := by
  obtain ⟨p, hp, hgp⟩ := hex
  have hap : a ≤ p := by
    by_contra hlt
    rw [ha p (by omega)] at hgp
    cases hgp
  have hbp : p + b < T := by
    by_contra hge
    rw [hb p hp (by omega)] at hgp
    cases hgp
  have hfirst : g a = true := haone (by omega)
  have hlast : g (T - 1 - b) = true := hbone (by omega)
  refine ⟨by omega, ?_⟩
  rw [countOnes_eq_card]
  constructor
  · intro heq
    refine Finset.card_eq_one.2 ⟨a, Finset.ext fun q => ?_⟩
    rw [Finset.mem_filter, Finset.mem_range, Finset.mem_singleton]
    constructor
    · rintro ⟨hq, hgq⟩
      by_contra hne
      obtain hlt | hgt := Nat.lt_or_gt_of_ne hne
      · rw [ha q hlt] at hgq
        cases hgq
      · rw [hb q hq (by omega)] at hgq
        cases hgq
    · rintro rfl
      exact ⟨by omega, hfirst⟩
  · intro hcard
    have hone := Finset.card_le_one.1 hcard.le a (Finset.mem_filter.2 ⟨Finset.mem_range.2 (by omega), hfirst⟩)
      (T - 1 - b) (Finset.mem_filter.2 ⟨Finset.mem_range.2 (by omega), hlast⟩)
    omega

end Runs

/-- Settles O47: both count a run of zeros, `TZ` on the buffer read from its end. -/
theorem zeroRunsCounted : Obligations.ZeroRunsCounted := by
  rintro s xd fa T rfl hd
  constructor
  · obtain ⟨t, hexec, hok, hx, hframe, hmem⟩ := lz_completes (xd := xd) hd
    obtain ⟨hle, hbefore, hat⟩ := leading_zeros_spec (bitAt s fa) (8 * s.f[fa].len.toNat)
    rw [← hx] at hle hbefore hat
    exact ⟨t, hexec, hok, hle, hbefore, hat, hframe, hmem⟩
  · obtain ⟨t, hexec, hok, hx, hframe, hmem⟩ := tz_completes (xd := xd) hd
    obtain ⟨hle, hafter, hat⟩ := trailing_zeros_spec (bitAt s fa) (8 * s.f[fa].len.toNat)
    rw [← hx] at hle hafter hat
    exact ⟨t, hexec, hok, hle, hafter, hat, hframe, hmem⟩

/-- Settles O48: the model's counter counts the positions whose bit is 1. -/
theorem onesCounted : Obligations.OnesCounted := by
  intro s xd fa hd
  obtain ⟨t, hexec, hok, hx, hframe, hmem⟩ := ones_completes (xd := xd) hd
  exact ⟨t, hexec, hok, hx.trans (countOnes_eq_countP ..), hframe, hmem⟩

/-- Settles O49: the counts are determined, and the law is one of strings of bits. -/
theorem zeroRunsBoundedByOnes : Obligations.ZeroRunsBoundedByOnes := by
  rintro s t u v xd fa T rfl hd hex ht hu hv
  obtain ⟨t', ht', -, hlz, -⟩ := lz_completes (xd := xd) hd
  obtain ⟨u', hu', -, htz, -⟩ := tz_completes (xd := xd) hd
  obtain ⟨v', hv', -, hones, -⟩ := ones_completes (xd := xd) hd
  cases ht.symm.trans ht'
  cases hu.symm.trans hu'
  cases hv.symm.trans hv'
  obtain ⟨haT, ha, haone⟩ := leading_zeros_spec (bitAt s fa) (8 * s.f[fa].len.toNat)
  obtain ⟨hbT, hb, hbone⟩ := trailing_zeros_spec (bitAt s fa) (8 * s.f[fa].len.toNat)
  rw [hlz, htz, hones]
  exact zero_runs_le_of_exists hex ha haT haone hb hbT hbone

/-! ### `FCOUNT` -/

/-- A bit equals the flag of a value of 0 or 1 when its number is that value. -/
theorem beq_decide_eq_one {b : Bool} {n : Nat} (hn : n ≤ 1) : (b == decide (n = 1)) = decide (b.toNat = n) := by
  obtain rfl | rfl : n = 0 ∨ n = 1 := by omega
  · cases b <;> rfl
  · cases b <;> rfl

/-- Settles O56: the counter of `ONES`, on whether a bit equals the one the value gives. -/
theorem fieldCountCountsBitValue : Obligations.FieldCountCountsBitValue := by
  intro s xd fa xs hd hx hb
  have hpass : Passes (.fcount xd fa xs) s := passes_of_pair (wellFormed_of_count_none rfl)
    (List.forall_mem_singleton.2 hd) rfl (faultIf_eq_none.2 (Nat.not_lt.2 hx)) (checkBounds_eq_none.2 hb)
  obtain ⟨t, hexec, hok, hdone⟩ := exec_completes hpass (hazardFree_of_movement_none rfl)
  refine ⟨t, hexec, hok, ?_, frame_of_done hdone, keepsMem_of_done hdone le_rfl le_rfl⟩
  have hle : s.f[fa].width.toNat ≤ 8 * s.f[fa].len.toNat := by
    unfold InBuf needLen ceil8 at hb
    omega
  rw [x_of_done hdone rfl, toNat_wordOf_le_bits hd ((countOnes_le ..).trans hle), countOnes_eq_countP]
  exact congrArg (List.countP · _) (funext fun k => beq_decide_eq_one hx)

end Sys2Proof.Proofs
end

section
/-! The whole-field commands (spec/46_field_cursor.md R205 to R215) and the whole-buffer commands
(spec/47_buffer_boolean.md), each bit or byte of the destination from the same one of the sources. -/

namespace Sys2Proof.Proofs

open Sys2Proof.Machine

/-! ### Whole fields -/

section Fields
variable {i : Instr} {s : State} {fd fa fb : FIdx} {val : Nat → Bool}

/-- R205: a whole-field command whose checks pass, `val k` being bit `k` of the field it writes. -/
theorem field_completes (hpass : Passes i s) (hfree : HazardFree i s) (heffect : effect i s = fieldEffect s fd val)
    (hx : writesX i = []) (hf : writesF i = []) :
    ∃ t, exec i s = .next t ∧ t.status = 0 ∧
      (∀ k < s.f[fd].width.toNat, t.mem.bitRead s.f[fd].base.toNat (s.f[fd].pos.toNat + k) = val k) ∧
      KeepsOutside s t (rangeOf s.f[fd] s.f[fd].pos.toNat s.f[fd].width.toNat) ∧ Frame s t [] [] := by
  obtain ⟨t, hexec, hok, hdone⟩ := exec_completes hpass hfree
  have hframe := frame_of_done hdone
  rw [hx, hf] at hframe
  rw [heffect] at hdone
  exact ⟨t, hexec, hok, fun k hk => bitRead_of_done hdone rfl hk,
    keepsOutside_of_done hdone (dst_has_of_touches le_rfl), hframe⟩

theorem passes_field_pair (hcount : i.count? = none) (hnamed : named i = [fd, fa, fb])
    (hown : ownChecks i s = fieldChecks s fd [fa, fb]) (hd : DescOK s.memBytes s.f[fd])
    (ha : DescOK s.memBytes s.f[fa]) (hb : DescOK s.memBytes s.f[fb])
    (hwa : s.f[fd].width.toNat ≤ s.f[fa].width.toNat) (hwb : s.f[fd].width.toNat ≤ s.f[fb].width.toNat)
    (hbd : InBuf s.f[fd] s.f[fd].pos.toNat s.f[fd].width.toNat)
    (hba : InBuf s.f[fa] s.f[fa].pos.toNat s.f[fd].width.toNat)
    (hbb : InBuf s.f[fb] s.f[fb].pos.toNat s.f[fd].width.toNat) : Passes i s :=
  ⟨wellFormed_of_count_none hcount, hnamed ▸ desc_triple hd ha hb,
    hown ▸ fieldChecks_pair_eq_none.2 ⟨⟨hwa, hwb⟩, hbd, hba, hbb⟩⟩

theorem passes_field_single (hcount : i.count? = none) (hnamed : named i = [fd, fa])
    (hown : ownChecks i s = fieldChecks s fd [fa]) (hd : DescOK s.memBytes s.f[fd])
    (ha : DescOK s.memBytes s.f[fa]) (hwa : s.f[fd].width.toNat ≤ s.f[fa].width.toNat)
    (hbd : InBuf s.f[fd] s.f[fd].pos.toNat s.f[fd].width.toNat)
    (hba : InBuf s.f[fa] s.f[fa].pos.toNat s.f[fd].width.toNat) : Passes i s :=
  ⟨wellFormed_of_count_none hcount, hnamed ▸ desc_pair hd ha, hown ▸ fieldChecks_single_eq_none.2 ⟨hwa, hbd, hba⟩⟩

end Fields

/-- Settles O52: the three commands differ in the operation on two bits. -/
theorem fieldBooleanIsBitwise : Obligations.FieldBooleanIsBitwise := by
  rintro s fd fa fb W rfl hd ha hb hwa hwb hbd hba hbb
  have hpass {i : Instr} (hcount : i.count? = none) (hnamed : named i = [fd, fa, fb])
      (hown : ownChecks i s = fieldChecks s fd [fa, fb]) : Passes i s :=
    passes_field_pair hcount hnamed hown hd ha hb hwa hwb hbd hba hbb
  simp only [List.forall_mem_cons]
  exact ⟨fun hfree => field_completes (hpass rfl rfl rfl) hfree rfl rfl rfl,
    fun hfree => field_completes (hpass rfl rfl rfl) hfree rfl rfl rfl,
    fun hfree => field_completes (hpass rfl rfl rfl) hfree rfl rfl rfl, List.forall_mem_nil _⟩

/-- Settles O53: the operation on two bits takes the complement of the second. -/
theorem fieldAndNotKeepsFirstSource : Obligations.FieldAndNotKeepsFirstSource := by
  rintro s fd fa fb W rfl hd ha hb hwa hwb hbd hba hbb hfree
  exact field_completes (passes_field_pair rfl rfl rfl hd ha hb hwa hwb hbd hba hbb) hfree rfl rfl rfl

/-- Settles O54: the operation on the one bit is the complement. -/
theorem fieldNotComplements : Obligations.FieldNotComplements := by
  rintro s fd fa W rfl hd ha hwa hbd hba hfree
  exact field_completes (passes_field_single rfl rfl rfl hd ha hwa hbd hba) hfree rfl rfl rfl

/-- Settles O55: `r` is the amount the command reduces to. -/
theorem fieldRotates : Obligations.FieldRotates := by
  rintro s fd fa xs W r rfl hr hd ha hwa hbd hba hfree
  obtain ⟨t, hexec, hok, hbits, hkeep, hframe⟩ := field_completes (i := .frotl fd fa xs)
    (passes_field_single rfl rfl rfl hd ha hwa hbd hba) hfree rfl rfl rfl
  refine ⟨t, hexec, hok, fun k hk => ?_, hkeep, hframe⟩
  obtain ⟨hlt, hdvd⟩ := hr (by omega)
  rw [hbits k hk, reducedAmount_eq hlt hdvd]
  rfl

/-- R215: every bit of `0` or of `2^w - 1` is the bit the value gives. -/
theorem toNat_testBit_fill {b w k : Nat} (hb : b ≤ 1) (hk : k < w) :
    ((b * (2 ^ w - 1)).testBit (w - 1 - k)).toNat = b := by
  obtain rfl | rfl : b = 0 ∨ b = 1 := by omega
  · rw [Nat.zero_mul, Nat.zero_testBit]
    rfl
  · rw [Nat.one_mul, Nat.testBit_two_pow_sub_one, decide_eq_true (by omega)]
    rfl

/-- Settles O57: the value written is 0 or `2^W - 1`, of which every bit is the same. -/
theorem fieldFillSetsEveryBit : Obligations.FieldFillSetsEveryBit := by
  rintro s fd xs W rfl hd hx hb
  have hpass : Passes (.ffill fd xs) s := passes_of_pair (wellFormed_of_count_none rfl)
    (List.forall_mem_singleton.2 hd) rfl (faultIf_eq_none.2 (Nat.not_lt.2 hx)) (checkBounds_eq_none.2 hb)
  obtain ⟨t, hexec, hok, hbits, hkeep, hframe⟩ :=
    field_completes hpass (hazardFree_of_movement_none rfl) rfl rfl rfl
  refine ⟨t, hexec, hok, fun k hk => ?_, hkeep, hframe⟩
  rw [hbits k hk, toNat_testBit_fill hx hk]

/-! ### Whole buffers -/

section Buffers
variable {i : Instr} {s : State} {fd fa fb : FIdx} {out : Nat → Byte}

/-- R231: a whole-buffer command whose checks pass, `out j` being byte `j` of the buffer it writes. -/
theorem buffer_completes (hpass : Passes i s) (hfree : HazardFree i s) (heffect : effect i s = bufferEffect s fd fa out)
    (hx : writesX i = []) (hf : writesF i = [(fd, [.len])]) (hd : DescOK s.memBytes s.f[fd])
    (hcap : s.f[fa].len.toNat ≤ s.f[fd].cap.toNat) :
    ∃ t, exec i s = .next t ∧ t.status = 0 ∧
      (∀ a, t.mem.read a =
        if s.f[fd].base.toNat ≤ a ∧ a < s.f[fd].base.toNat + s.f[fa].len.toNat then out (a - s.f[fd].base.toNat)
        else s.mem.read a) ∧
      Grown s.f[fd] t.f[fd] s.f[fa].len.toNat ∧ Frame s t [] [fd] := by
  obtain ⟨t, hexec, hok, hdone⟩ := exec_completes hpass hfree
  have hframe := frame_of_done hdone
  rw [hx, hf] at hframe
  rw [heffect] at hdone
  refine ⟨t, hexec, hok, fun a => ?_, grown_of_done hdone rfl hd hcap, hframe⟩
  split
  · next ha =>
    obtain ⟨j, rfl⟩ := Nat.exists_eq_add_of_le ha.1
    refine read_of_done hdone rfl (by omega) fun k hk => ?_
    show bitOfByte (out ((8 * j + k) / 8)) ((8 * j + k) % 8) = _
    rw [Nat.add_sub_cancel_left, show (8 * j + k) / 8 = j by omega, show (8 * j + k) % 8 = k by omega]
  · next ha =>
    refine (keepsOutside_of_done hdone (has_range_of_touches_from_zero rfl rfl)).bytes a ?_
    simp only [rangeOf, absBit]
    omega

theorem passes_buffer_pair (hcount : i.count? = none) (hnamed : named i = [fd, fa, fb])
    (hown : ownChecks i s = [faultIf .length (s.f[fa].len ≠ s.f[fb].len), growPlan s.f[fd] s.f[fa].len.toNat])
    (hd : DescOK s.memBytes s.f[fd]) (ha : DescOK s.memBytes s.f[fa]) (hb : DescOK s.memBytes s.f[fb])
    (hlen : s.f[fb].len = s.f[fa].len) (hcap : s.f[fa].len.toNat ≤ s.f[fd].cap.toNat) : Passes i s :=
  passes_of_pair (wellFormed_of_count_none hcount) (hnamed ▸ desc_triple hd ha hb) hown
    (faultIf_eq_none.2 (not_not.2 hlen.symm)) (growPlan_eq_none.2 (.inl hcap))

theorem passes_bnot (hd : DescOK s.memBytes s.f[fd]) (ha : DescOK s.memBytes s.f[fa])
    (hcap : s.f[fa].len.toNat ≤ s.f[fd].cap.toNat) : Passes (.bnot fd fa) s :=
  passes_of_single (wellFormed_of_count_none rfl) (desc_pair hd ha) rfl (growPlan_eq_none.2 (.inl hcap))

end Buffers

/-- R233, R236: `255 - b` is the complement of a byte. -/
theorem byte_sub_eq_not (b : Byte) : 255 - b = ~~~b := by
  revert b
  decide +kernel

/-- Settles O58: the three commands differ in the operation on two bytes. -/
theorem bufferBooleanIsBytewise : Obligations.BufferBooleanIsBytewise := by
  rintro s fd fa fb L rfl hlen hd ha hb hcap
  have hpass {i : Instr} (hcount : i.count? = none) (hnamed : named i = [fd, fa, fb])
      (hown : ownChecks i s = [faultIf .length (s.f[fa].len ≠ s.f[fb].len), growPlan s.f[fd] s.f[fa].len.toNat]) :
      Passes i s := passes_buffer_pair hcount hnamed hown hd ha hb hlen hcap
  simp only [List.forall_mem_cons]
  exact ⟨
    fun hfree => buffer_completes (out := fun j => bufferByte s fa j &&& bufferByte s fb j) (hpass rfl rfl rfl) hfree
      rfl rfl rfl hd hcap,
    fun hfree => buffer_completes (out := fun j => bufferByte s fa j ||| bufferByte s fb j) (hpass rfl rfl rfl) hfree
      rfl rfl rfl hd hcap,
    fun hfree => buffer_completes (out := fun j => bufferByte s fa j ^^^ bufferByte s fb j) (hpass rfl rfl rfl) hfree
      rfl rfl rfl hd hcap,
    List.forall_mem_nil _⟩

/-- Settles O59: `255 - b` is the complement of the byte `b`. -/
theorem bufferAndNotKeepsFirstSource : Obligations.BufferAndNotKeepsFirstSource := by
  rintro s fd fa fb L rfl hlen hd ha hb hcap hfree
  obtain ⟨t, hexec, hok, hread, hgrown, hframe⟩ :=
    buffer_completes (out := fun j => bufferByte s fa j &&& (255 - bufferByte s fb j))
      (passes_buffer_pair (i := .bandn fd fa fb) rfl rfl rfl hd ha hb hlen hcap) hfree rfl rfl rfl hd hcap
  simp only [byte_sub_eq_not] at hread
  exact ⟨t, hexec, hok, hread, hgrown, hframe⟩

/-- Settles O60: `255 - b` is the complement of the byte `b`. -/
theorem bufferNotComplements : Obligations.BufferNotComplements := by
  rintro s fd fa L rfl hd ha hcap hfree
  obtain ⟨t, hexec, hok, hread, hgrown, hframe⟩ :=
    buffer_completes (out := fun j => 255 - bufferByte s fa j) (passes_bnot hd ha hcap) hfree rfl rfl rfl hd hcap
  simp only [byte_sub_eq_not] at hread
  exact ⟨t, hexec, hok, hread, hgrown, hframe⟩

/-! ### `ONES` of a complement -/

/-- R236: bit `p` of the complement of a buffer. -/
theorem bnot_bit {s u : State} {fd fa : FIdx} (h : (effect (.bnot fd fa) s).Done s u) {p : Nat}
    (hp : p < 8 * s.f[fa].len.toNat) : u.mem.bitRead s.f[fd].base.toNat p = !bitAt s fa p := by
  have hbit := bitRead_of_done (r := s.f[fd]) h rfl hp
  rw [Nat.zero_add] at hbit
  rw [hbit]
  show bitOfByte (255 - bufferByte s fa (p / 8)) (p % 8) = _
  rw [byte_sub_eq_not, bitOfByte, BitVec.getMsbD_not, decide_eq_true (Nat.mod_lt p (by decide)), Bool.true_and]
  rfl

/-- Settles O50: the destination holds the complement of every bit of the source, and no more bits. -/
theorem onesOfComplement : Obligations.OnesOfComplement := by
  intro s t u v xd fd fa hle ht htok hu huok hfree hv
  obtain ⟨hpass, hdone⟩ := done_of_ok hu huok hfree
  have hd : DescOK s.memBytes s.f[fd] := hpass.desc fd List.mem_cons_self
  have ha : DescOK s.memBytes s.f[fa] := hpass.desc fa (List.mem_cons_of_mem _ List.mem_cons_self)
  have hcap : s.f[fa].len.toNat ≤ s.f[fd].cap.toNat :=
    need_le_cap hd (hpass.own_fst rfl)
  have hgrown : Grown s.f[fd] u.f[fd] s.f[fa].len.toNat := grown_of_done hdone rfl hd hcap
  have hlen : u.f[fd].len.toNat = s.f[fa].len.toNat := hgrown.len.trans (max_eq_right hle)
  have hd' : DescOK u.memBytes u.f[fd] := hdone.memBytes ▸ descOK_of_grown hd hgrown hcap
  obtain ⟨t', ht', -, hones, -⟩ := ones_completes (xd := xd) ha
  obtain ⟨v', hv', hok, hones', -⟩ := ones_completes (xd := xd) hd'
  cases ht.symm.trans ht'
  cases hv.symm.trans hv'
  refine ⟨hok, ?_⟩
  have hbits : countOnes (bitAt u fd) (8 * s.f[fa].len.toNat) =
      countOnes (fun p => !bitAt s fa p) (8 * s.f[fa].len.toNat) := by
    refine countOnes_congr fun p hp => ?_
    rw [bitAt, hgrown.base, bnot_bit hdone hp]
  rw [hones, hones', hlen, hbits, countOnes_add_countOnes_not]

end Sys2Proof.Proofs
end
